-- ==== Sys2Proof/Word.lean ====
section
/-! DEFINITION. The bit vectors of the block: bytes of the wire, the 16-bit and 32-bit registers
(00_scope.md R8, R13; all quantities are unsigned, R15). -/

namespace Sys2Proof

/-- One byte on the wire (R13). -/
abbrev Byte := BitVec 8

/-- The width of `delayTicks`, `delayCounter` and `IDAC` (R8). -/
abbrev Half := BitVec 16

/-- The width of `remainingSteps` (R8). -/
abbrev Word := BitVec 32

end Sys2Proof
end

