-- ==== Sys2Proof/Config.lean ====
section
/-! DEFINITION. The parameters of 00_scope.md R8: what an implementation fixes. A machine carries one
`Config` (State.cfg), so that a claim over all states is a claim over all configurations; the spec's
default values are `Config.default` in Decode.lean. -/

namespace Sys2Proof

/-- The 18 commands of R2, as names (the operations of 00_scope.md R18). -/
inductive Op where
  | setSteps | setSafeSteps | setSeek | start | stop | getMoving
  | setEnable | getEnable | setMicrosteps | getMicrosteps | setDirection | getDirection
  | setCurrent | getCurrent | setStepDelay | getStepDelay | getRelayStatus | getVersion
  deriving DecidableEq, Repr

/-- One row of the opcode table (30_encoding.md R86): an opcode number with its whole-frame request
length `L` and response length `M`. -/
structure OpEntry where
  op : Op
  code : Byte
  reqLen : Nat
  respLen : Nat
  deriving DecidableEq, Repr

/-- The operand codes of 30_encoding.md R91 to R94 (decisions D8 to D11). -/
structure WireCodes where
  axis1Bit : Byte
  axis2Bit : Byte
  full : Byte
  half : Byte
  quarter : Byte
  sixteenth : Byte
  dirLow : Byte
  dirHigh : Byte
  disable : Byte
  enable : Byte
  deriving DecidableEq, Repr

/-- The configuration record of R8. -/
structure Config where
  startToken : Byte
  end1Token : Byte
  end2Token : Byte
  poison : Byte
  statusSuccess : Byte
  statusFail : Byte
  /-- The opcode table of R86; an opcode value with no row here has no table entry. -/
  table : List OpEntry
  wire : WireCodes
  /-- `CURRENT_MAX`, OPEN (D12); the constraint `0 <= CURRENT_MAX < 2^16` is its type. -/
  currentMax : Half
  /-- `DEFAULT_DELAY`, OPEN (D13). -/
  defaultDelay : Half
  /-- `VERSION_MAJOR` and `VERSION_MINOR`, OPEN (D21). -/
  versionMajor : Byte
  versionMinor : Byte
  /-- `RX_DEPTH`, OPEN (D26); only a host duty reads it (Safety.lean). -/
  rxDepth : Nat
  deriving DecidableEq, Repr

/-- `DELAY_SENTINEL` (R8, fixed): the greatest unsigned 16-bit value. -/
def delaySentinel : Half := 0xFFFF

/-- `TICK_PERIOD` in microseconds (R8, R233); timing only, no rule reads it. -/
def tickPeriodMicroseconds : Nat := 100

/-- `REF_CLOCK` in hertz (R8, R233); timing only. -/
def refClockHertz : Nat := 32000000

/-- `TICK_DIVIDE`, reference clocks per tick (R8, R233), derived from the two constants above. -/
def tickDivide : Nat := refClockHertz * tickPeriodMicroseconds / 1000000

end Sys2Proof
end

