-- ==== Sys2Proof/Syntax.lean ====
section
/-! DEFINITION. The 18 commands with their operands, one constructor per row of the opcode table
(30_encoding.md R86, R88). An operand is the raw unsigned field of the frame: every value a field can
encode is a command (R97), and the operation answers a value it rejects with a validation failure. -/

namespace Sys2Proof

inductive Instr where
  /-- SET_STEPS `axis, count` (R131). -/
  | setSteps (axis : Byte) (count : Word)
  /-- SET_SAFE_STEPS `axis, count` (R132). -/
  | setSafeSteps (axis : Byte) (count : Word)
  /-- SET_SEEK `axis` (R133). -/
  | setSeek (axis : Byte)
  /-- START `bf` (R134). -/
  | start (bf : Byte)
  /-- STOP `bf` (R135). -/
  | stop (bf : Byte)
  /-- GET_MOVING `axis` (R136). -/
  | getMoving (axis : Byte)
  /-- SET_ENABLE `axis, en` (R151). -/
  | setEnable (axis : Byte) (en : Byte)
  /-- GET_ENABLE `axis` (R152). -/
  | getEnable (axis : Byte)
  /-- SET_MICROSTEPS `axis, mode` (R153). -/
  | setMicrosteps (axis : Byte) (mode : Byte)
  /-- GET_MICROSTEPS `axis` (R154). -/
  | getMicrosteps (axis : Byte)
  /-- SET_DIRECTION `axis, dir` (R155). -/
  | setDirection (axis : Byte) (dir : Byte)
  /-- GET_DIRECTION `axis` (R156). -/
  | getDirection (axis : Byte)
  /-- SET_CURRENT `axis, value` (R157). -/
  | setCurrent (axis : Byte) (value : Half)
  /-- GET_CURRENT `axis` (R158). -/
  | getCurrent (axis : Byte)
  /-- SET_STEP_DELAY `axis, ticks` (R159). -/
  | setStepDelay (axis : Byte) (ticks : Half)
  /-- GET_STEP_DELAY `axis` (R160). -/
  | getStepDelay (axis : Byte)
  /-- GET_RELAY_STATUS `pair` (R181). -/
  | getRelayStatus (pair : Byte)
  /-- GET_VERSION (R182). -/
  | getVersion
  deriving DecidableEq, Repr

/-- The operation a command names. -/
def Instr.op : Instr → Op
  | .setSteps _ _ => .setSteps
  | .setSafeSteps _ _ => .setSafeSteps
  | .setSeek _ => .setSeek
  | .start _ => .start
  | .stop _ => .stop
  | .getMoving _ => .getMoving
  | .setEnable _ _ => .setEnable
  | .getEnable _ => .getEnable
  | .setMicrosteps _ _ => .setMicrosteps
  | .getMicrosteps _ => .getMicrosteps
  | .setDirection _ _ => .setDirection
  | .getDirection _ => .getDirection
  | .setCurrent _ _ => .setCurrent
  | .getCurrent _ => .getCurrent
  | .setStepDelay _ _ => .setStepDelay
  | .getStepDelay _ => .getStepDelay
  | .getRelayStatus _ => .getRelayStatus
  | .getVersion => .getVersion

end Sys2Proof
end

