-- ==== Sys2Proof/WellFormed.lean ====
section
/-! DEFINITION. The checks made once when a configuration is built (00_scope.md R9, 30_encoding.md R87)
and the check that a command can be framed under a configuration. -/

namespace Sys2Proof

/-- All 18 operations, in the order of the opcode list (R86). -/
def Op.all : List Op :=
  [.setSteps, .setSafeSteps, .setSeek, .start, .stop, .getMoving,
   .setEnable, .getEnable, .setMicrosteps, .getMicrosteps, .setDirection, .getDirection,
   .setCurrent, .getCurrent, .setStepDelay, .getStepDelay, .getRelayStatus, .getVersion]

/-- The widths in bytes of the request fields, in payload order (R88). -/
def Op.reqFields : Op → List Nat
  | .setSteps | .setSafeSteps => [1, 4]
  | .setCurrent | .setStepDelay => [1, 2]
  | .setEnable | .setMicrosteps | .setDirection => [1, 1]
  | .setSeek | .start | .stop | .getMoving | .getEnable | .getMicrosteps | .getDirection
  | .getCurrent | .getStepDelay | .getRelayStatus => [1]
  | .getVersion => []

/-- The widths in bytes of the response fields, in payload order (R88). -/
def Op.respFields : Op → List Nat
  | .getMoving | .getEnable | .getMicrosteps | .getDirection | .getRelayStatus => [1]
  | .getCurrent | .getStepDelay => [2]
  | .getVersion => [1, 1]
  | .setSteps | .setSafeSteps | .setSeek | .start | .stop | .setEnable | .setMicrosteps
  | .setDirection | .setCurrent | .setStepDelay => []

/-- R87: a row's request length is at least 4, its response length at least 5, and each is the frame
overhead plus the widths of the operation's fields. -/
def OpEntry.lengthsOk (e : OpEntry) : Bool :=
  4 ≤ e.reqLen && 5 ≤ e.respLen
    && e.reqLen == 4 + e.op.reqFields.sum && e.respLen == 5 + e.op.respFields.sum

/-- R87: every operation has exactly one opcode. -/
def Config.everyOpOnce (c : Config) : Bool :=
  Op.all.all fun op => c.table.countP (fun e => e.op == op) == 1

/-- R87: no two operations share an opcode. -/
def Config.codesDistinct (c : Config) : Bool := decide (c.table.map OpEntry.code).Nodup

/-- R9: each axis bit is a single bit. -/
def isSingleBit (b : Byte) : Bool := b != 0 && b &&& (b - 1) == 0

/-- R9: the axis bits are two different single bits. -/
def WireCodes.axisBitsOk (w : WireCodes) : Bool :=
  isSingleBit w.axis1Bit && isSingleBit w.axis2Bit && w.axis1Bit != w.axis2Bit

/-- No two values of one enumerated operand share a code. DEDUCED from the round trip of R161 and R87's
"no two share one"; log 30. -/
def WireCodes.codesDistinct (w : WireCodes) : Bool :=
  decide [w.full, w.half, w.quarter, w.sixteenth].Nodup
    && w.dirLow != w.dirHigh && w.disable != w.enable

/-- R9: `END1_TOKEN != END2_TOKEN`. -/
def Config.endTokensDiffer (c : Config) : Bool := c.end1Token != c.end2Token

/-- R9: `1 <= DEFAULT_DELAY < DELAY_SENTINEL`. -/
def Config.defaultDelayOk (c : Config) : Bool :=
  decide (1 ≤ c.defaultDelay) && decide (c.defaultDelay < delaySentinel)

/-- The checks of R9 and R87 on a configuration. -/
def Config.valid (c : Config) : Bool :=
  c.endTokensDiffer && c.table.all OpEntry.lengthsOk && c.everyOpOnce && c.codesDistinct
    && c.wire.axisBitsOk && c.wire.codesDistinct && c.defaultDelayOk

/-- A command can be framed under `c`: the table has a row for it whose request length is the length
of its frame. Under a valid configuration every command can (R87). -/
def Instr.wellFormed (c : Config) (i : Instr) : Bool :=
  c.table.any fun e => e.op == i.op && e.reqLen == 4 + i.op.reqFields.sum

end Sys2Proof
end

