-- ==== Sys2Proof/Decode.lean ====
section
/-! DEFINITION. The opcode table's default values, the assembly of operands from frame bytes, the decoder
from bytes to a command or a named framing failure, and the encoder (30_encoding.md, 44_framer_dispatch.md
R198). -/

namespace Sys2Proof

/-! ### The default configuration (00_scope.md R8; log 7, log 8) -/

/-- The table of R86: the 18 opcodes with frame lengths `L` and `M`. -/
def defaultTable : List OpEntry :=
  [⟨.setSteps, 0x01, 9, 5⟩, ⟨.setSafeSteps, 0x02, 9, 5⟩, ⟨.setSeek, 0x03, 5, 5⟩,
   ⟨.start, 0x04, 5, 5⟩, ⟨.stop, 0x05, 5, 5⟩, ⟨.getMoving, 0x06, 5, 6⟩]
  ++ [⟨.setEnable, 0x07, 6, 5⟩, ⟨.getEnable, 0x08, 5, 6⟩, ⟨.setMicrosteps, 0x09, 6, 5⟩,
   ⟨.getMicrosteps, 0x0A, 5, 6⟩, ⟨.setDirection, 0x0B, 6, 5⟩, ⟨.getDirection, 0x0C, 5, 6⟩]
  ++ [⟨.setCurrent, 0x0D, 7, 5⟩, ⟨.getCurrent, 0x0E, 5, 7⟩, ⟨.setStepDelay, 0x0F, 7, 5⟩,
   ⟨.getStepDelay, 0x10, 5, 7⟩, ⟨.getRelayStatus, 0x11, 5, 6⟩, ⟨.getVersion, 0x12, 4, 7⟩]

/-- The operand codes of R91 to R94. -/
def WireCodes.default : WireCodes where
  axis1Bit := 0x01
  axis2Bit := 0x02
  full := 0x00
  half := 0x01
  quarter := 0x02
  sixteenth := 0x03
  dirLow := 0x00
  dirHigh := 0x01
  disable := 0x00
  enable := 0x01

/-- The default configuration of R8. `rxDepth` has no default in the spec: DESIGN CHOICE 9 (log 7). -/
def Config.default : Config where
  startToken := 0xA5
  end1Token := 0x5A
  end2Token := 0xC3
  poison := 0xFF
  statusSuccess := 0x01
  statusFail := 0x00
  table := defaultTable
  wire := WireCodes.default
  currentMax := 4095
  defaultDelay := 10
  versionMajor := 1
  versionMinor := 0
  rxDepth := 9

/-! ### Table lookups (R86, 44_framer_dispatch.md preamble) -/

/-- The table entry of an opcode byte; request length 0 means "no table entry" (R86). -/
def Config.lookup (c : Config) (b : Byte) : Option OpEntry :=
  c.table.find? fun e => e.code == b && e.reqLen != 0

/-- `P(o) = L(o) - 4`, the request payload length. -/
def Config.reqPayload (c : Config) (b : Byte) : Nat :=
  match c.lookup b with
  | some e => e.reqLen - 4
  | none => 0

/-- `M(o)`, the response frame length. -/
def Config.respLen (c : Config) (b : Byte) : Nat :=
  match c.lookup b with
  | some e => e.respLen
  | none => 0

/-- The opcode number of an operation. -/
def Config.codeOf (c : Config) (op : Op) : Byte :=
  match c.table.find? fun e => e.op == op with
  | some e => e.code
  | none => 0

/-! ### Operand assembly (R89; 20_memory.md R60) -/

/-- `le16(b0, b1) = {b1, b0}`. -/
def le16 (b0 b1 : Byte) : Half := b1 ++ b0

/-- `le32(b0, b1, b2, b3) = {b3, b2, b1, b0}`. -/
def le32 (b0 b1 b2 b3 : Byte) : Word := b3 ++ b2 ++ b1 ++ b0

/-- The bytes of a 16-bit field in wire order: `v[7:0], v[15:8]` (R60). -/
def bytes16 (v : Half) : List Byte := [v.extractLsb' 0 8, v.extractLsb' 8 8]

/-- The bytes of a 32-bit field in wire order (R60). -/
def bytes32 (v : Word) : List Byte :=
  [v.extractLsb' 0 8, v.extractLsb' 8 8, v.extractLsb' 16 8, v.extractLsb' 24 8]

/-- The request payload buffer `pay[0..4]` (10_state.md R44). -/
abbrev Payload := Vector Byte 5

/-- Bytes beyond a payload's length are never read (R44). -/
def payloadOfList (bs : List Byte) : Payload :=
  #v[bs.getD 0 0, bs.getD 1 0, bs.getD 2 0, bs.getD 3 0, bs.getD 4 0]

/-- Decode and route (44_framer_dispatch.md R198): the operation with its operands from `pay`. -/
def decodeOp (op : Op) (pay : Payload) : Instr :=
  match op with
  | .setSteps => .setSteps pay[0] (le32 pay[1] pay[2] pay[3] pay[4])
  | .setSafeSteps => .setSafeSteps pay[0] (le32 pay[1] pay[2] pay[3] pay[4])
  | .setSeek => .setSeek pay[0]
  | .start => .start pay[0]
  | .stop => .stop pay[0]
  | .getMoving => .getMoving pay[0]
  | .setEnable => .setEnable pay[0] pay[1]
  | .getEnable => .getEnable pay[0]
  | .setMicrosteps => .setMicrosteps pay[0] pay[1]
  | .getMicrosteps => .getMicrosteps pay[0]
  | .setDirection => .setDirection pay[0] pay[1]
  | .getDirection => .getDirection pay[0]
  | .setCurrent => .setCurrent pay[0] (le16 pay[1] pay[2])
  | .getCurrent => .getCurrent pay[0]
  | .setStepDelay => .setStepDelay pay[0] (le16 pay[1] pay[2])
  | .getStepDelay => .getStepDelay pay[0]
  | .getRelayStatus => .getRelayStatus pay[0]
  | .getVersion => .getVersion

/-- The command that an opcode byte and a payload buffer stand for (R198). -/
def decodeCommand (c : Config) (opc : Byte) (pay : Payload) : Option Instr :=
  (c.lookup opc).map fun e => decodeOp e.op pay

/-! ### Whole request frames (R81) -/

/-- Why a byte sequence is no request frame (60_exceptions.md R224, F1 to F4), or that it ends too soon
(44_framer_dispatch.md R206: the framer holds). -/
inductive FramingError where
  /-- F1: the first byte is not `START_TOKEN`. -/
  | noStartToken
  /-- F2: the opcode byte has no table entry (R96). -/
  | noTableEntry
  /-- F3: a byte other than `END1_TOKEN` at its position. -/
  | badEnd1
  /-- F4: a byte other than `END2_TOKEN` at its position. -/
  | badEnd2
  /-- The bytes end inside the frame. -/
  | incomplete
  deriving DecidableEq, Repr

/-- The end tokens of a frame whose opcode and payload have been read. -/
def decodeEnds (c : Config) (i : Instr) : List Byte → Except FramingError (Instr × List Byte)
  | [] => .error .incomplete
  | [b] => .error (if b = c.end1Token then .incomplete else .badEnd1)
  | b1 :: b2 :: rest =>
    if b1 ≠ c.end1Token then .error .badEnd1
    else if b2 ≠ c.end2Token then .error .badEnd2
    else .ok (i, rest)

/-- Decode one request frame from the front of a byte sequence; total on any bytes, rejecting by name. -/
def decodeFrame (c : Config) : List Byte → Except FramingError (Instr × List Byte)
  | [] => .error .incomplete
  | [b] => .error (if b = c.startToken then .incomplete else .noStartToken)
  | b :: opc :: rest =>
    if b ≠ c.startToken then .error .noStartToken
    else
      match c.lookup opc with
      | none => .error .noTableEntry
      | some e =>
        if rest.length < e.reqLen - 4 then .error .incomplete
        else decodeEnds c (decodeOp e.op (payloadOfList (rest.take (e.reqLen - 4))))
          (rest.drop (e.reqLen - 4))

/-! ### The encoder (R81, R88) -/

/-- The request payload bytes of a command, fields in declared order (R88). -/
def encodePayload : Instr → List Byte
  | .setSteps axis count => axis :: bytes32 count
  | .setSafeSteps axis count => axis :: bytes32 count
  | .setSeek axis => [axis]
  | .start bf => [bf]
  | .stop bf => [bf]
  | .getMoving axis => [axis]
  | .setEnable axis en => [axis, en]
  | .getEnable axis => [axis]
  | .setMicrosteps axis mode => [axis, mode]
  | .getMicrosteps axis => [axis]
  | .setDirection axis dir => [axis, dir]
  | .getDirection axis => [axis]
  | .setCurrent axis value => axis :: bytes16 value
  | .getCurrent axis => [axis]
  | .setStepDelay axis ticks => axis :: bytes16 ticks
  | .getStepDelay axis => [axis]
  | .getRelayStatus pair => [pair]
  | .getVersion => []

/-- The request frame of a command (R81). -/
def encode (c : Config) (i : Instr) : List Byte :=
  c.startToken :: c.codeOf i.op :: (encodePayload i ++ [c.end1Token, c.end2Token])

/-! ### The host's numbering of an instruction's bits (log 24)

`match` and `mask` of opcode_table.json apply to the opcode byte (R101), so bit 0 is bit 0 of the opcode
byte and the payload bytes count on from bit 8; the three token bytes are the same for every row and are
supplied here. A word that begins with `START_TOKEN` is read as a whole frame instead. -/

/-- Byte `k` of a word laid out least significant byte first. -/
def byteAt (w k : Nat) : Byte := BitVec.ofNat 8 (w >>> (8 * k))

/-- The bytes `k` to `k + n - 1` of a word. -/
def bytesAt (w k : Nat) : Nat → List Byte
  | 0 => []
  | n + 1 => byteAt w k :: bytesAt w (k + 1) n

/-- The request frame that an opcode-table word stands for, every bit above `nbits` zero. -/
def tableFrame (c : Config) (nbits w : Nat) : List Byte :=
  let v := w % 2 ^ nbits
  if byteAt v 0 = c.startToken then bytesAt v 0 9
  else c.startToken :: byteAt v 0 ::
    (bytesAt v 1 (c.reqPayload (byteAt v 0)) ++ [c.end1Token, c.end2Token])

/-- The command that the decoder reads from an opcode-table word. -/
def decodeTableWord (nbits w : Nat) : Option Instr :=
  match decodeFrame Config.default (tableFrame Config.default nbits w) with
  | .ok (i, _) => some i
  | .error _ => none

end Sys2Proof
end

