-- ==== Sys2Proof/Machine/State.lean ====
section
/-! DEFINITION. The state of TWOSTEP_CORE (10_state.md) with its environment's side of the ports
(00_scope.md R10), its reset values (R46 to R48), and the reasons a step can stop. -/

namespace Sys2Proof.Machine

/-- The two axes, and the relay pairs paired with them (R29, R40). -/
inductive AxisId where
  | one
  | two
  deriving DecidableEq, Repr

/-- The registers and output latches of one axis. -/
structure Axis where
  /-- R21: the axis is actively stepping. -/
  running : Bool
  /-- R22: pulses left to emit. -/
  remainingSteps : Word
  /-- R23: current half of the step pulse. -/
  pulseHigh : Bool
  /-- R24: the configured delay. -/
  delayTicks : Half
  /-- R25: the runtime countdown. -/
  delayCounter : Half
  /-- R26: relay-seek mode. -/
  seekUntilRelay : Bool
  /-- R27: a relay trip stops the axis. -/
  safeMode : Bool
  /-- R34: the step pulse output `STEP[a]`. -/
  step : Bool
  /-- R35: the active-low enable line; `false` drives the driver enabled. -/
  nEN : Bool
  /-- R36: the direction line; `true` is high. -/
  dir : Bool
  /-- R37: the two microstep mode lines, bit 0 MS1, bit 1 MS2. -/
  ms : BitVec 2
  /-- R38: the drive-current register. -/
  idac : Half
  deriving DecidableEq, Repr

/-- R42: what the command agent does with the next byte, or that it executes a command. -/
inductive FState where
  | awaitStart
  | awaitOpcode
  | awaitPayload
  | awaitEnd1
  | awaitEnd2
  | dispatch
  deriving DecidableEq, Repr

/-- The command agent's place inside `Dispatch`: before the operation (R198), between two of its accesses
(20_memory.md R62), or sending the response (R202). The model's field (log 29). -/
inductive Phase where
  | operate
  | access
  | transmit
  deriving DecidableEq, Repr

/-- The two contact inputs of one relay pair (R40); `true` is "reads open". -/
structure Contacts where
  aOpen : Bool
  bOpen : Bool
  deriving DecidableEq, Repr

/-- One entry of the schedule: who moves next, and what the host does (R11, R12; 70_reset_and_hazards.md
R262). -/
inductive Turn where
  /-- The tick agent takes one step: an occurrence of `TICK`. -/
  | tick
  /-- The command agent takes one step, a single action of 20_memory.md R62. -/
  | command
  /-- The command agent takes one step, but from the start of an operation to its response at once, the
  turns after this one falling between its accesses: an abbreviation for a run of single steps (log 1). -/
  | operation
  /-- The host delivers one byte on `RX`. -/
  | rxByte (b : Byte)
  /-- The host drives the two contacts of a relay pair. -/
  | contacts (pair : AxisId) (aOpen bOpen : Bool)
  /-- The transport accepts `TX` bytes from now on, or does not. -/
  | txAccept (ready : Bool)
  /-- The host asserts `RESET`. -/
  | reset
  deriving DecidableEq, Repr

/-- The response buffer `resp[0..6]` (R45). -/
abbrev Response := Vector Byte 7

/-- The complete state (R20), the configuration it runs under (R8), and the environment's side of the
ports. -/
structure State where
  /-- The configuration; no step changes it. -/
  cfg : Config
  axis1 : Axis
  axis2 : Axis
  /-- R30: the global run flag. -/
  anyAxisRunning : Bool
  /-- R39: the activity indicator latch. -/
  indicator : Bool
  /-- R42. -/
  fstate : FState
  /-- R43: the opcode byte of the frame being received or executed. -/
  opc : Byte
  /-- R44: the payload buffer and the count of bytes in it. -/
  pay : Payload
  pidx : Nat
  phase : Phase
  /-- One entry for each access the operation in progress has made, oldest first: the private value it read
  (60_exceptions.md R230), 0 for a write. The model's field (log 29). -/
  seen : List Half
  /-- R45: the response buffer, its length, and the index of the next byte to send. -/
  resp : Response
  rlen : Nat
  tidx : Nat
  /-- R40: the relay contact inputs of pair 1 and pair 2. -/
  contacts1 : Contacts
  contacts2 : Contacts
  /-- R66, R78: bytes delivered on `RX` and not yet consumed, oldest first. -/
  rx : List Byte
  /-- R77: bytes produced on `TX` since reset, oldest first. -/
  tx : List Byte
  /-- R66: whether the transport accepts a `TX` byte now. -/
  txReady : Bool
  /-- The schedule of this machine's environment, next turn first (log 2). -/
  turns : List Turn
  deriving DecidableEq, Repr

/-- Why a step stops with a fault. There is no such reason: no behaviour of the spec maps to a fault
(60_exceptions.md R225, R226; 93_implementation_defined.md), so this type has no constructor. -/
inductive Fault where
  deriving DecidableEq, Repr

/-- Why a step is refused. -/
inductive Refusal where
  /-- Raised by `exec` alone, for a command without a meaning; no arm uses it. Safe: nothing follows
  from a refused step. -/
  | notModelled (mnemonic : String)
  /-- Raised by `step` in `Dispatch` with an opcode that has no table entry. "No other `opc` value can
  reach `Dispatch`" (R198), so no run raises it. Safe (log 23). -/
  | noSuchCommand (opc : Byte)
  deriving DecidableEq, Repr

/-- An axis after `RESET` (R46, R47). -/
def Axis.initial (c : Config) : Axis where
  running := false
  remainingSteps := 0
  pulseHigh := false
  delayTicks := c.defaultDelay
  delayCounter := 0
  seekUntilRelay := false
  safeMode := true
  step := false
  nEN := true
  dir := false
  ms := 0
  idac := 0

/-- The machine of a configuration after `RESET` (R46 to R48, R250). The framer's buffers and indices
are unspecified there: DESIGN CHOICE zero (log 9); inputs and schedule: log 2, 4, 5. -/
def State.initial (c : Config) : State where
  cfg := c
  axis1 := Axis.initial c
  axis2 := Axis.initial c
  anyAxisRunning := false
  indicator := false
  fstate := .awaitStart
  opc := 0
  pay := Vector.replicate 5 0
  pidx := 0
  phase := .operate
  seen := []
  resp := Vector.replicate 7 0
  rlen := 0
  tidx := 0
  contacts1 := ⟨true, true⟩
  contacts2 := ⟨true, true⟩
  rx := []
  tx := []
  txReady := true
  turns := []

/-- Right after reset, under the default configuration of R8. -/
def State.reset : State := State.initial Config.default

/-- Build the machine of a configuration: one that fails the checks of R9 and R87 is refused
(93_implementation_defined.md U10). -/
def State.build (c : Config) : Option State := if c.valid then some (State.initial c) else none

end Sys2Proof.Machine
end

