-- ==== Sys2Proof/Machine/Ops.lean ====
section
/-! DEFINITION. The named operations over registers, buffers and streams, and the two failure classes of
the block, each one shared operation: `State.respond false []` (validation failure, 60_exceptions.md R220; named
`fails` in Turns.lean) and `State.abort` (framing failure, R224). -/

namespace Sys2Proof.Machine

/-! ### Registers -/

/-- `v` for axis 1, `w` for axis 2. -/
def AxisId.pick {α : Type} (a : AxisId) (v w : α) : α :=
  match a with
  | .one => v
  | .two => w

/-- The registers and latches of an axis. -/
def State.axis (s : State) (a : AxisId) : Axis := a.pick s.axis1 s.axis2

/-- Rewrite one axis, leaving the other (R29: the two are disjoint). -/
def State.updAxis (s : State) (a : AxisId) (f : Axis → Axis) : State :=
  { s with
    axis1 := a.pick (f s.axis1) s.axis1
    axis2 := a.pick s.axis2 (f s.axis2) }

/-- The contact inputs of a relay pair (R40). -/
def State.contacts (s : State) (a : AxisId) : Contacts := a.pick s.contacts1 s.contacts2

/-- The host drives a relay pair (R262). -/
def State.setContacts (s : State) (a : AxisId) (v : Contacts) : State :=
  { s with
    contacts1 := a.pick v s.contacts1
    contacts2 := a.pick s.contacts2 v }

/-- `RelayTriggered(a)` (R41): not both contacts read open. -/
def State.relayTriggered (s : State) (a : AxisId) : Bool :=
  !((s.contacts a).aOpen && (s.contacts a).bOpen)

/-! ### Buffers (20_memory.md R64; indices out of range never occur, log 31) -/

/-- `pay[pidx] <- b; pidx <- pidx + 1` (R193). -/
def State.storePayload (s : State) (b : Byte) : State :=
  { s with pay := s.pay.setIfInBounds s.pidx b, pidx := s.pidx + 1 }

/-- `for i in 0 .. n-1: resp[i] <- POISON` (R200). -/
def fillPoison (poison : Byte) (r : Response) : Nat → Response
  | 0 => r
  | n + 1 => (fillPoison poison r n).setIfInBounds n poison

/-- `for j: resp[i + j] <- out[j]` (R201). -/
def writeOuts (r : Response) (i : Nat) : List Byte → Response
  | [] => r
  | b :: bs => writeOuts (r.setIfInBounds i b) (i + 1) bs

/-- The response buffer of a command whose response has length `m` (R200, R201): poison, header and
status, outputs on success, end tokens. -/
def assemble (c : Config) (r : Response) (m : Nat) (opc : Byte) (ok : Bool) (outs : List Byte) :
    Response :=
  let r := fillPoison c.poison r m
  let r := r.setIfInBounds 0 c.startToken
  let r := r.setIfInBounds 1 opc
  let r := r.setIfInBounds 2 (if ok then c.statusSuccess else c.statusFail)
  let r := if ok then writeOuts r 3 outs else r
  let r := r.setIfInBounds (m - 2) c.end1Token
  r.setIfInBounds (m - 1) c.end2Token

/-! ### The two failure classes and the response -/

/-- Framing failure (R197, R224): `fstate <- AwaitStart`, nothing else. -/
def State.abort (s : State) : State := { s with fstate := .awaitStart }

/-- Response assembly (44_framer_dispatch.md R200, R201), after which the response is sent. -/
def State.respond (s : State) (ok : Bool) (outs : List Byte) : State :=
  { s with
    resp := assemble s.cfg s.resp (s.cfg.respLen s.opc) s.opc ok outs
    rlen := s.cfg.respLen s.opc
    tidx := 0
    phase := .transmit
    seen := [] }

/-- Transmission (R202), one byte: `TxByte(resp[tidx])`, a hold while the transport does not accept;
after the last byte `fstate <- AwaitStart`. -/
def State.transmit (s : State) : State :=
  if s.txReady then
    let s := { s with tx := s.tx ++ [s.resp[s.tidx]?.getD s.cfg.poison], tidx := s.tidx + 1 }
    if s.tidx < s.rlen then s else { s with fstate := .awaitStart, phase := .operate }
  else s

/-! ### Reset (70_reset_and_hazards.md R250) -/

/-- The event `RESET`: the reset values of R46 to R48; pending bytes are not seen; the configuration, the
inputs and the rest of the schedule are the environment's and stay (log 16). -/
def State.powerUp (s : State) : State :=
  { State.initial s.cfg with
    contacts1 := s.contacts1
    contacts2 := s.contacts2
    txReady := s.txReady
    turns := s.turns }

end Sys2Proof.Machine
end

