-- ==== Sys2Proof/Machine/Flags.lean ====
section
/-! DEFINITION. The flags of 10_state.md R31: reading and writing `running`, `seekUntilRelay`, `safeMode`
and `anyAxisRunning`. There are no arithmetic condition codes; `pulseHigh` belongs to the tick handler
alone (R23). -/

namespace Sys2Proof.Machine

/-- A read of `running[a]`, one atomic load (R21). -/
def State.running (s : State) (a : AxisId) : Bool := (s.axis a).running

def State.setRunning (a : AxisId) (v : Bool) (s : State) : State :=
  s.updAxis a fun x => { x with running := v }

def State.setSafeMode (a : AxisId) (v : Bool) (s : State) : State :=
  s.updAxis a fun x => { x with safeMode := v }

def State.setSeekUntilRelay (a : AxisId) (v : Bool) (s : State) : State :=
  s.updAxis a fun x => { x with seekUntilRelay := v }

/-- A write of the global run flag (R30). -/
def State.setAnyAxisRunning (v : Bool) (s : State) : State := { s with anyAxisRunning := v }

end Sys2Proof.Machine
end

