-- ==== Sys2Proof/Machine/Operands.lean ====
section
/-! DEFINITION. The operand forms of 30_encoding.md R90 to R94: axis number, axis bitfield, microstep,
direction and enable codes, boolean and multi-byte results, and the writes of the remaining registers. -/

namespace Sys2Proof.Machine

/-- The axis number (R90): 1 and 2 are legal, every other value is a validation failure (R29, R130). -/
def axisOf (b : Byte) : Option AxisId :=
  if b = 1 then some .one else if b = 2 then some .two else none

/-- `AXIS1_BIT`, `AXIS2_BIT` (R91). -/
def axisBit (w : WireCodes) (a : AxisId) : Byte := a.pick w.axis1Bit w.axis2Bit

/-- The bitfield requests axis `a` (R91). -/
def requests (w : WireCodes) (bf : Byte) (a : AxisId) : Bool := bf &&& axisBit w a != 0

/-- No bit outside the valid set (R91). -/
def bitfieldOk (w : WireCodes) (bf : Byte) : Bool := bf &&& ~~~(w.axis1Bit ||| w.axis2Bit) == 0

/-- The microstep mode lines of a code (R37, R92); `none` is an invalid mode. -/
def microOf (w : WireCodes) (b : Byte) : Option (BitVec 2) :=
  if b = w.full then some 0 else if b = w.half then some 1
  else if b = w.quarter then some 2 else if b = w.sixteenth then some 3 else none

/-- The code of the microstep mode lines (R92). -/
def microCode (w : WireCodes) (m : BitVec 2) : Byte :=
  if m = 0 then w.full else if m = 1 then w.half else if m = 2 then w.quarter else w.sixteenth

/-- The direction line level of a code (R93). -/
def dirOf (w : WireCodes) (b : Byte) : Option Bool :=
  if b = w.dirLow then some false else if b = w.dirHigh then some true else none

/-- The code of a direction line level (R93). -/
def dirCode (w : WireCodes) (v : Bool) : Byte := if v then w.dirHigh else w.dirLow

/-- The level of the active-low enable line for a code (R94, R151): enable drives it to 0. -/
def enableLineOf (w : WireCodes) (b : Byte) : Option Bool :=
  if b = w.disable then some true else if b = w.enable then some false else none

/-- A boolean result (R94): 0x00 or 0x01. -/
def boolByte (v : Bool) : Byte := if v then 1 else 0

/-! ### Register writes -/

def State.setRemainingSteps (a : AxisId) (v : Word) (s : State) : State :=
  s.updAxis a fun x => { x with remainingSteps := v }

def State.setDelayTicks (a : AxisId) (v : Half) (s : State) : State :=
  s.updAxis a fun x => { x with delayTicks := v }

def State.setDelayCounter (a : AxisId) (v : Half) (s : State) : State :=
  s.updAxis a fun x => { x with delayCounter := v }

def State.setNEN (a : AxisId) (v : Bool) (s : State) : State :=
  s.updAxis a fun x => { x with nEN := v }

def State.setDir (a : AxisId) (v : Bool) (s : State) : State :=
  s.updAxis a fun x => { x with dir := v }

def State.setMs (a : AxisId) (v : BitVec 2) (s : State) : State :=
  s.updAxis a fun x => { x with ms := v }

def State.setIdac (a : AxisId) (v : Half) (s : State) : State :=
  s.updAxis a fun x => { x with idac := v }

end Sys2Proof.Machine
end

