-- ==== Sys2Proof/Machine/Access.lean ====
section
/-! DEFINITION. The single accesses of the command agent (20_memory.md R62 s2 and s3, R67): one read of one
state element, output latch or relay input pair, and one write of one element or latch. -/

namespace Sys2Proof.Machine

/-- What one read reads (R62 s2). -/
inductive Read where
  | running (a : AxisId)
  | nEN (a : AxisId)
  | ms (a : AxisId)
  | dir (a : AxisId)
  | idac (a : AxisId)
  | delayTicks (a : AxisId)
  /-- The two contacts of a pair, sampled together as `RelayTriggered` (R41). -/
  | relay (pair : AxisId)
  deriving DecidableEq, Repr

/-- What one write writes (R62 s3). -/
inductive Write where
  | running (a : AxisId) (v : Bool)
  | remainingSteps (a : AxisId) (v : Word)
  | delayTicks (a : AxisId) (v : Half)
  | delayCounter (a : AxisId) (v : Half)
  | seekUntilRelay (a : AxisId) (v : Bool)
  | safeMode (a : AxisId) (v : Bool)
  | nEN (a : AxisId) (v : Bool)
  | dir (a : AxisId) (v : Bool)
  | ms (a : AxisId) (v : BitVec 2)
  | idac (a : AxisId) (v : Half)
  | anyAxisRunning (v : Bool)
  deriving DecidableEq, Repr

/-- A bit as a private value of the command agent. -/
def bitValue (v : Bool) : Half := if v then 1 else 0

/-- The value of one read, no side effect (R75). -/
def State.get (s : State) : Read → Half
  | .running a => bitValue (s.running a)
  | .nEN a => bitValue (s.axis a).nEN
  | .ms a => (s.axis a).ms.setWidth 16
  | .dir a => bitValue (s.axis a).dir
  | .idac a => (s.axis a).idac
  | .delayTicks a => (s.axis a).delayTicks
  | .relay p => bitValue (s.relayTriggered p)

/-- The effect of one write. -/
def State.put (s : State) : Write → State
  | .running a v => s.setRunning a v
  | .remainingSteps a v => s.setRemainingSteps a v
  | .delayTicks a v => s.setDelayTicks a v
  | .delayCounter a v => s.setDelayCounter a v
  | .seekUntilRelay a v => s.setSeekUntilRelay a v
  | .safeMode a v => s.setSafeMode a v
  | .nEN a v => s.setNEN a v
  | .dir a v => s.setDir a v
  | .ms a v => s.setMs a v
  | .idac a v => s.setIdac a v
  | .anyAxisRunning v => s.setAnyAxisRunning v

end Sys2Proof.Machine
end

