-- ==== Sys2Proof/Machine/Tick.lean ====
section
/-! DEFINITION. The step generator (40_step_generator.md R110 to R115), the handler of the block's one
interrupt. Entry and return save and restore nothing (60_exceptions.md R230). -/

namespace Sys2Proof.Machine

/-- Step 2, the relay trip (R112). -/
def Axis.relayTrip (x : Axis) (triggered : Bool) : Axis :=
  if x.running && (x.safeMode || x.seekUntilRelay) && triggered then { x with running := false } else x

/-- Step 3, natural completion (R113). -/
def Axis.complete (x : Axis) : Axis :=
  if x.running && !x.seekUntilRelay && !x.pulseHigh && x.remainingSteps == 0 then
    { x with running := false }
  else x

/-- The toggle of step 4 (R115): the low to high transition is counted, unless in seek mode, and either
transition reloads the countdown. -/
def Axis.toggle (x : Axis) : Axis :=
  { x with
    step := !x.step
    pulseHigh := !x.pulseHigh
    remainingSteps :=
      if !x.pulseHigh && !x.seekUntilRelay then x.remainingSteps - 1 else x.remainingSteps
    delayCounter := x.delayTicks }

/-- Step 4, pulse work (R115). -/
def Axis.pulse (x : Axis) : Axis :=
  if x.running then
    if x.delayCounter == 0 then x.toggle else { x with delayCounter := x.delayCounter - 1 }
  else x

/-- Steps 2 to 4 for one axis (R114). -/
def Axis.tick (x : Axis) (triggered : Bool) : Axis := (x.relayTrip triggered).complete.pulse

/-- Steps 2 to 4 for axis `a` in the machine. -/
def State.tickAxis (s : State) (a : AxisId) : State :=
  s.updAxis a fun x => x.tick (s.relayTriggered a)

/-- The tick handler (R110): the fast exit (R111), then axis 1, then axis 2. -/
def State.tick (s : State) : State :=
  if s.anyAxisRunning then (s.tickAxis .one).tickAxis .two else s

end Sys2Proof.Machine
end

