-- ==== Sys2Proof/Machine/Turns.lean ====
section
/-! DEFINITION. The interleaving of the agents (00_scope.md R11, R12; 20_memory.md R62, R69): the host's
turns, the gap between two steps of the command agent, and the operation of a command as the single
accesses it is made of. An operation is written as its pseudocode: each line that touches shared state is
one access (log 1, log 2). -/

namespace Sys2Proof.Machine

/-! ### The turns of a gap -/

/-- One turn of the tick agent or of the host (R262). -/
def State.hostTurn (s : State) : Turn → State
  | .tick => s.tick
  | .command => s
  | .operation => s
  | .rxByte b => { s with rx := s.rx ++ [b] }
  | .contacts pair aOpen bOpen => s.setContacts pair ⟨aOpen, bOpen⟩
  | .txAccept ready => { s with txReady := ready }
  | .reset => s.powerUp

/-- The turns that fall into one gap: all up to the command agent's next turn, or to the end of the
schedule, after which the command agent goes on. A `RESET` ends the command: `true` in the second
component. -/
def State.runTurns (s : State) : List Turn → State × Bool
  | [] => ({ s with turns := [] }, false)
  | .command :: ts => ({ s with turns := ts }, false)
  | .operation :: ts => ({ s with turns := ts }, false)
  | .reset :: ts => ({ s.powerUp with turns := ts }, true)
  | t :: ts => (s.hostTurn t).runTurns ts

/-- The gap before an access, and what the command agent does after it. -/
def gap (k : State → State) (s : State) : State :=
  match s.runTurns s.turns with
  | (s, true) => s
  | (s, false) => k s

/-! ### Operations -/

/-- What an operation has left to do: its response, or one access and the rest. The value read is private
to the operation and is not refreshed (60_exceptions.md R230). -/
inductive Script where
  | respond (ok : Bool) (outs : List Byte)
  | read (r : Read) (k : Half → Script)
  | write (w : Write) (k : Script)

/-- One read of a bit. -/
def readsBit (r : Read) (k : Bool → Script) : Script := .read r fun v => k (v != 0)

/-- One read of the microstep lines. -/
def readsLines (r : Read) (k : BitVec 2 → Script) : Script := .read r fun v => k (v.setWidth 2)

/-- One read of a 16-bit element. -/
def readsHalf (r : Read) (k : Half → Script) : Script := .read r k

/-- One write. -/
def writes (w : Write) (k : Script) : Script := .write w k

/-- A write made only under a condition on private values. -/
def writesIf (c : Bool) (w : Write) (k : Script) : Script := if c then writes w k else k

/-- `fail` (60_exceptions.md R220): no further write, the fail response. -/
def fails : Script := .respond false []

/-- `succeed(v...)`: the success response with its output bytes. -/
def succeeds (outs : List Byte) : Script := .respond true outs

/-- `if not c: fail`. -/
def requires (c : Bool) (k : Script) : Script := if c then k else fails

/-- A decoded operand, or `fail` when its code is invalid (R97). -/
def decoded {α : Type} (v : Option α) (k : α → Script) : Script :=
  match v with
  | some v => k v
  | none => fails

/-- `CheckAxis` (R130): an axis number outside {1, 2} never selects state (R223). -/
def checkAxis (axis : Byte) (k : AxisId → Script) : Script := decoded (axisOf axis) k

/-- `CheckIdle` (R130): one read of `running[a]`. -/
def checkIdle (a : AxisId) (k : Script) : Script := readsBit (.running a) fun r => requires (!r) k

/-! ### A whole operation, and its single steps -/

/-- An operation from here to its response, the scheduled turns falling between its accesses. -/
def Script.run : Script → State → State
  | .respond ok outs, s => s.respond ok outs
  | .read r k, s => gap (fun s => (k (s.get r)).run s) s
  | .write w k, s => gap (fun s => k.run (s.put w)) s

/-- `Dispatch` as a whole (44_framer_dispatch.md R199): the indicator is inverted first, then the operation
runs. -/
def dispatch (k : Script) (s : State) : State := k.run { s with indicator := !s.indicator }

/-- What is left after the next access, when that is a read of `v`, or a write. -/
def Script.next : Script → Half → Script
  | .respond ok outs, _ => .respond ok outs
  | .read _ k, v => k v
  | .write _ k, _ => k

/-- What is left of an operation whose accesses so far are `seen`. -/
def Script.resume (k : Script) (seen : List Half) : Script := seen.foldl Script.next k

/-- The command agent stops before the next access, or, when none is left, with the response assembled:
private work is merged into the step before it (R62). -/
def Script.pause (k : Script) (seen : List Half) (s : State) : State :=
  match k with
  | .respond ok outs => s.respond ok outs
  | .read _ _ => { s with phase := .access, seen := seen }
  | .write _ _ => { s with phase := .access, seen := seen }

/-- The first step of `Dispatch` (R199). -/
def Script.start (k : Script) (s : State) : State := k.pause [] { s with indicator := !s.indicator }

/-- One access of an operation (R62 s2, s3). -/
def Script.access (k : Script) (s : State) : State :=
  match k with
  | .respond ok outs => s.respond ok outs
  | .read r k => (k (s.get r)).pause (s.seen ++ [s.get r]) s
  | .write w k => k.pause (s.seen ++ [0]) (s.put w)

end Sys2Proof.Machine
end

