-- ==== Sys2Proof/Machine/Configure.lean ====
section
/-! DEFINITION. The configuration commands (42_config_commands.md R150 to R162): five setter and getter
pairs over one element each; for each command its operation, access by access, and its meaning. -/

namespace Sys2Proof.Machine

/-- SET_ENABLE (R151): the line is active low. -/
def setEnableOp (w : WireCodes) (axis en : Byte) : Script :=
  checkAxis axis fun a =>
  checkIdle a <|
  decoded (enableLineOf w en) fun line =>
  writes (.nEN a line) <|
  succeeds []

def execSetEnable (axis en : Byte) (s : State) : Host.Outcome State Fault Refusal :=
  .next (dispatch (setEnableOp s.cfg.wire axis en) s)

/-- GET_ENABLE (R152): the logical enable, not the line level. -/
def getEnableOp (axis : Byte) : Script :=
  checkAxis axis fun a =>
  readsBit (.nEN a) fun v =>
  succeeds [boolByte (!v)]

def execGetEnable (axis : Byte) (s : State) : Host.Outcome State Fault Refusal :=
  .next (dispatch (getEnableOp axis) s)

/-- SET_MICROSTEPS (R153). -/
def setMicrostepsOp (w : WireCodes) (axis mode : Byte) : Script :=
  checkAxis axis fun a =>
  checkIdle a <|
  decoded (microOf w mode) fun lines =>
  writes (.ms a lines) <|
  succeeds []

def execSetMicrosteps (axis mode : Byte) (s : State) : Host.Outcome State Fault Refusal :=
  .next (dispatch (setMicrostepsOp s.cfg.wire axis mode) s)

/-- GET_MICROSTEPS (R154). -/
def getMicrostepsOp (w : WireCodes) (axis : Byte) : Script :=
  checkAxis axis fun a =>
  readsLines (.ms a) fun v =>
  succeeds [microCode w v]

def execGetMicrosteps (axis : Byte) (s : State) : Host.Outcome State Fault Refusal :=
  .next (dispatch (getMicrostepsOp s.cfg.wire axis) s)

/-- SET_DIRECTION (R155). -/
def setDirectionOp (w : WireCodes) (axis dir : Byte) : Script :=
  checkAxis axis fun a =>
  checkIdle a <|
  decoded (dirOf w dir) fun level =>
  writes (.dir a level) <|
  succeeds []

def execSetDirection (axis dir : Byte) (s : State) : Host.Outcome State Fault Refusal :=
  .next (dispatch (setDirectionOp s.cfg.wire axis dir) s)

/-- GET_DIRECTION (R156). -/
def getDirectionOp (w : WireCodes) (axis : Byte) : Script :=
  checkAxis axis fun a =>
  readsBit (.dir a) fun v =>
  succeeds [dirCode w v]

def execGetDirection (axis : Byte) (s : State) : Host.Outcome State Fault Refusal :=
  .next (dispatch (getDirectionOp s.cfg.wire axis) s)

/-- SET_CURRENT (R157). -/
def setCurrentOp (currentMax : Half) (axis : Byte) (value : Half) : Script :=
  checkAxis axis fun a =>
  checkIdle a <|
  requires (decide (value ≤ currentMax)) <|
  writes (.idac a value) <|
  succeeds []

def execSetCurrent (axis : Byte) (value : Half) (s : State) : Host.Outcome State Fault Refusal :=
  .next (dispatch (setCurrentOp s.cfg.currentMax axis value) s)

/-- GET_CURRENT (R158). -/
def getCurrentOp (axis : Byte) : Script :=
  checkAxis axis fun a =>
  readsHalf (.idac a) fun v =>
  succeeds (bytes16 v)

def execGetCurrent (axis : Byte) (s : State) : Host.Outcome State Fault Refusal :=
  .next (dispatch (getCurrentOp axis) s)

/-- SET_STEP_DELAY (R159); 0 is accepted (D19), `delayCounter` is not written. -/
def setStepDelayOp (axis : Byte) (ticks : Half) : Script :=
  checkAxis axis fun a =>
  checkIdle a <|
  requires (decide (ticks < delaySentinel)) <|
  writes (.delayTicks a ticks) <|
  succeeds []

def execSetStepDelay (axis : Byte) (ticks : Half) (s : State) : Host.Outcome State Fault Refusal :=
  .next (dispatch (setStepDelayOp axis ticks) s)

/-- GET_STEP_DELAY (R160): the configured value, not the countdown. -/
def getStepDelayOp (axis : Byte) : Script :=
  checkAxis axis fun a =>
  readsHalf (.delayTicks a) fun v =>
  succeeds (bytes16 v)

def execGetStepDelay (axis : Byte) (s : State) : Host.Outcome State Fault Refusal :=
  .next (dispatch (getStepDelayOp axis) s)

end Sys2Proof.Machine
end

