-- ==== Sys2Proof/Machine/Motion.lean ====
section
/-! DEFINITION. The motion commands (41_motion_commands.md R131 to R139): for each its operation, access by
access, and its meaning. -/

namespace Sys2Proof.Machine

/-- SET_STEPS (R131). -/
def setStepsOp (axis : Byte) (count : Word) : Script :=
  checkAxis axis fun a =>
  checkIdle a <|
  writes (.remainingSteps a count) <|
  writes (.safeMode a false) <|
  writes (.seekUntilRelay a false) <|
  succeeds []

def execSetSteps (axis : Byte) (count : Word) (s : State) : Host.Outcome State Fault Refusal :=
  .next (dispatch (setStepsOp axis count) s)

/-- SET_SAFE_STEPS (R132). -/
def setSafeStepsOp (axis : Byte) (count : Word) : Script :=
  checkAxis axis fun a =>
  checkIdle a <|
  writes (.remainingSteps a count) <|
  writes (.safeMode a true) <|
  writes (.seekUntilRelay a false) <|
  succeeds []

def execSetSafeSteps (axis : Byte) (count : Word) (s : State) : Host.Outcome State Fault Refusal :=
  .next (dispatch (setSafeStepsOp axis count) s)

/-- SET_SEEK (R133); `remainingSteps` is left as it is. -/
def setSeekOp (axis : Byte) : Script :=
  checkAxis axis fun a =>
  checkIdle a <|
  writes (.safeMode a true) <|
  writes (.seekUntilRelay a true) <|
  succeeds []

def execSetSeek (axis : Byte) (s : State) : Host.Outcome State Fault Refusal :=
  .next (dispatch (setSeekOp axis) s)

/-- START (R134, R137): the clear-then-set sequence on `anyAxisRunning` (20_memory.md R71). -/
def startOp (w : WireCodes) (bf : Byte) : Script :=
  requires (bitfieldOk w bf) <|
  readsBit (.running .one) fun r1 =>
  readsBit (.running .two) fun r2 =>
  requires (!((requests w bf .one && r1) || (requests w bf .two && r2))) <|
  writesIf (!r1 && !r2) (.anyAxisRunning false) <|
  writesIf (requests w bf .one) (.delayCounter .one 0) <|
  writesIf (requests w bf .one) (.running .one true) <|
  writesIf (requests w bf .two) (.delayCounter .two 0) <|
  writesIf (requests w bf .two) (.running .two true) <|
  writes (.anyAxisRunning true) <|
  succeeds []

def execStart (bf : Byte) (s : State) : Host.Outcome State Fault Refusal :=
  .next (dispatch (startOp s.cfg.wire bf) s)

/-- STOP (R135, R137): "same validation" is the bitfield-range check only. -/
def stopOp (w : WireCodes) (bf : Byte) : Script :=
  requires (bitfieldOk w bf) <|
  writesIf (requests w bf .one && requests w bf .two) (.anyAxisRunning false) <|
  writesIf (requests w bf .one) (.running .one false) <|
  writesIf (requests w bf .two) (.running .two false) <|
  succeeds []

def execStop (bf : Byte) (s : State) : Host.Outcome State Fault Refusal :=
  .next (dispatch (stopOp s.cfg.wire bf) s)

/-- GET_MOVING (R136): one atomic load, no busy check. -/
def getMovingOp (axis : Byte) : Script :=
  checkAxis axis fun a =>
  readsBit (.running a) fun m =>
  succeeds [boolByte m]

def execGetMoving (axis : Byte) (s : State) : Host.Outcome State Fault Refusal :=
  .next (dispatch (getMovingOp axis) s)

end Sys2Proof.Machine
end

