-- ==== Sys2Proof/Machine/System.lean ====
section
/-! DEFINITION. The system commands (43_system_commands.md R181, R182). -/

namespace Sys2Proof.Machine

/-- GET_RELAY_STATUS (R181): the pair's contacts are sampled once, at the read. -/
def getRelayStatusOp (pair : Byte) : Script :=
  checkAxis pair fun p =>
  readsBit (.relay p) fun t =>
  succeeds [boolByte t]

def execGetRelayStatus (pair : Byte) (s : State) : Host.Outcome State Fault Refusal :=
  .next (dispatch (getRelayStatusOp pair) s)

/-- GET_VERSION (R182): reads no state and cannot fail. -/
def getVersionOp (c : Config) : Script := succeeds [c.versionMajor, c.versionMinor]

def execGetVersion (s : State) : Host.Outcome State Fault Refusal :=
  .next (dispatch (getVersionOp s.cfg) s)

end Sys2Proof.Machine
end

