-- ==== Sys2Proof/Machine/Dispatch.lean ====
section
/-! DEFINITION. One arm per command. -/

namespace Sys2Proof.Machine

def exec (i : Instr) (s : State) : Host.Outcome State Fault Refusal :=
  match i with
  | .setSteps axis count => Sys2Proof.Machine.execSetSteps axis count s
  | .setSafeSteps axis count => Sys2Proof.Machine.execSetSafeSteps axis count s
  | .setSeek axis => Sys2Proof.Machine.execSetSeek axis s
  | .start bf => Sys2Proof.Machine.execStart bf s
  | .stop bf => Sys2Proof.Machine.execStop bf s
  | .getMoving axis => Sys2Proof.Machine.execGetMoving axis s
  | .setEnable axis en => Sys2Proof.Machine.execSetEnable axis en s
  | .getEnable axis => Sys2Proof.Machine.execGetEnable axis s
  | .setMicrosteps axis mode => Sys2Proof.Machine.execSetMicrosteps axis mode s
  | .getMicrosteps axis => Sys2Proof.Machine.execGetMicrosteps axis s
  | .setDirection axis dir => Sys2Proof.Machine.execSetDirection axis dir s
  | .getDirection axis => Sys2Proof.Machine.execGetDirection axis s
  | .setCurrent axis value => Sys2Proof.Machine.execSetCurrent axis value s
  | .getCurrent axis => Sys2Proof.Machine.execGetCurrent axis s
  | .setStepDelay axis ticks => Sys2Proof.Machine.execSetStepDelay axis ticks s
  | .getStepDelay axis => Sys2Proof.Machine.execGetStepDelay axis s
  | .getRelayStatus pair => Sys2Proof.Machine.execGetRelayStatus pair s
  | .getVersion => Sys2Proof.Machine.execGetVersion s

end Sys2Proof.Machine
end

