-- ==== Sys2Proof/Machine/Framer.lean ====
section
/-! DEFINITION. The framer (44_framer_dispatch.md R190 to R197): the transition of each `Await` state on
one byte, the command agent's `RxByte`, and the fetch of the command that stands in `Dispatch`. -/

namespace Sys2Proof.Machine

/-- `AwaitOpcode` on byte `b` (R192). -/
def State.takeOpcode (s : State) (b : Byte) : State :=
  match s.cfg.lookup b with
  | none => s.abort
  | some e =>
    { s with opc := b, pidx := 0, fstate := if 0 < e.reqLen - 4 then .awaitPayload else .awaitEnd1 }

/-- `AwaitPayload` on byte `b` (R193); no byte is compared with a token (R196). -/
def State.takePayload (s : State) (b : Byte) : State :=
  let s := s.storePayload b
  if s.pidx < s.cfg.reqPayload s.opc then s else { s with fstate := .awaitEnd1 }

/-- The framer's transition on one byte (R190). -/
def State.takeByte (s : State) (b : Byte) : State :=
  match s.fstate with
  | .awaitStart => if b = s.cfg.startToken then { s with fstate := .awaitOpcode } else s
  | .awaitOpcode => s.takeOpcode b
  | .awaitPayload => s.takePayload b
  | .awaitEnd1 => if b = s.cfg.end1Token then { s with fstate := .awaitEnd2 } else s.abort
  | .awaitEnd2 =>
    if b = s.cfg.end2Token then { s with fstate := .dispatch, phase := .operate } else s.abort
  | .dispatch => s

/-- One step of the command agent in an `Await` state: `RxByte` and its transition, or a hold while no
byte is available (20_memory.md R66; log 28). -/
def State.receive (s : State) : State :=
  match s.rx with
  | [] => s
  | b :: rest => ({ s with rx := rest }).takeByte b

/-- The command that stands in `Dispatch` (R198). -/
def State.fetched (s : State) : Option Instr := decodeCommand s.cfg s.opc s.pay

/-- Whose turn it is, and the state with that turn taken off the schedule; with no turn scheduled the
command agent moves (log 2). -/
def State.nextTurn (s : State) : Turn × State :=
  match s.turns with
  | [] => (.command, s)
  | t :: ts => (t, { s with turns := ts })

/-- A request frame's opcode and payload bytes placed where `Dispatch` reads them, and the next turn given
to the whole operation. -/
def State.placeFrame (s : State) : List Byte → State
  | _ :: opc :: rest =>
    (rest.take (s.cfg.reqPayload opc)).foldl State.storePayload
      { s with
        fstate := .dispatch, phase := .operate, opc := opc, pidx := 0
        turns := .operation :: s.turns }
  | _ => s

end Sys2Proof.Machine
end

