-- ==== Sys2Proof/Machine/Operations.lean ====
section
/-! DEFINITION. The operation each command invokes (44_framer_dispatch.md R198), access by access. -/

namespace Sys2Proof.Machine

/-- The operation of a command under a configuration. -/
def operationOf (c : Config) : Instr → Script
  | .setSteps axis count => setStepsOp axis count
  | .setSafeSteps axis count => setSafeStepsOp axis count
  | .setSeek axis => setSeekOp axis
  | .start bf => startOp c.wire bf
  | .stop bf => stopOp c.wire bf
  | .getMoving axis => getMovingOp axis
  | .setEnable axis en => setEnableOp c.wire axis en
  | .getEnable axis => getEnableOp axis
  | .setMicrosteps axis mode => setMicrostepsOp c.wire axis mode
  | .getMicrosteps axis => getMicrostepsOp c.wire axis
  | .setDirection axis dir => setDirectionOp c.wire axis dir
  | .getDirection axis => getDirectionOp c.wire axis
  | .setCurrent axis value => setCurrentOp c.currentMax axis value
  | .getCurrent axis => getCurrentOp axis
  | .setStepDelay axis ticks => setStepDelayOp axis ticks
  | .getStepDelay axis => getStepDelayOp axis
  | .getRelayStatus pair => getRelayStatusOp pair
  | .getVersion => getVersionOp c

end Sys2Proof.Machine
end

