-- ==== Sys2Proof/Machine/Step.lean ====
section
/-! DEFINITION. One step of the machine: the turn the schedule gives, and, when it is the command agent's,
one single action (00_scope.md R11; 20_memory.md R62): one byte received, the start of an operation, one
access of it, or one byte transmitted. -/

namespace Sys2Proof.Machine

/-- One step of the command agent (R62 s1 to s4). -/
def agentStep (s : State) : Host.Outcome State Fault Refusal :=
  match s.fstate, s.phase with
  | .dispatch, .operate =>
    match s.fetched with
    | some i => .next ((operationOf s.cfg i).start s)
    | none => .refused (.noSuchCommand s.opc)
  | .dispatch, .access =>
    match s.fetched with
    | some i => .next (((operationOf s.cfg i).resume s.seen).access s)
    | none => .refused (.noSuchCommand s.opc)
  | .dispatch, .transmit => .next s.transmit
  | _, _ => .next s.receive

/-- A step of the command agent that, at the start of an operation, goes on to the response (log 1). -/
def operationStep (s : State) : Host.Outcome State Fault Refusal :=
  match s.fstate, s.phase, s.fetched with
  | .dispatch, .operate, some i => exec i s
  | _, _, _ => agentStep s

/-- One step of the machine. -/
def step (s : State) : Host.Outcome State Fault Refusal :=
  match s.nextTurn with
  | (.command, s) => agentStep s
  | (.operation, s) => operationStep s
  | (t, s) => .next (s.hostTurn t)

/-- The state whose very next step fetches and runs the instruction of an opcode-table word (log 24). -/
def State.withFetchWord (s : State) (nbits w : Nat) : State :=
  s.placeFrame (tableFrame s.cfg nbits w)

end Sys2Proof.Machine
end

