-- ==== Sys2Proof/Safety.lean ====
section
/-! DEFINITION. The terms claims are stated in: the invariants of 10_state.md R50 with the framer's bounds and
the operation in progress, runs and fair schedules (00_scope.md R12), quiescent states
(70_reset_and_hazards.md R272), the host duties that are predicates of a state (R262), and the response
frame of 30_encoding.md R82. -/

namespace Sys2Proof.Machine

/-! ### An operation in progress -/

/-- The writes an operation still makes once it reads no more. -/
def Script.pending : Script → List Write
  | .write w k => w :: k.pending
  | .read _ _ => []
  | .respond _ _ => []

/-- What is left of the operation in progress, if the command agent stands inside one. -/
def State.inProgress (s : State) : Option Script :=
  match s.fstate, s.phase, s.fetched with
  | .dispatch, .access, some i => some ((operationOf s.cfg i).resume s.seen)
  | _, _, _ => none

/-- The writes still to come of the operation in progress. -/
def State.pending (s : State) : List Write :=
  match s.inProgress with
  | some k => k.pending
  | none => []

/-- A write `running[a] <- 0`, which STOP alone makes (R135). -/
def Write.stops : Write → Bool
  | .running _ v => !v
  | _ => false

/-- The ownership discipline (20_memory.md R68) for one write, about to be made in `s` with `ws` to follow:
every write to an axis but STOP's finds the axis idle, and the value keeps the ranges of 10_state.md R50;
an axis that is armed counts down from at most its delay; what leaves safe mode leaves seek mode too; a STOP
goes on only to stop. -/
def State.mayWrite (s : State) (ws : List Write) : Write → Bool
  | .running a v =>
    if v then !s.running a && decide ((s.axis a).delayCounter ≤ (s.axis a).delayTicks)
    else ws.all Write.stops
  | .remainingSteps a _ => !s.running a
  | .delayTicks a v => !s.running a && v != delaySentinel
  | .delayCounter a _ => !s.running a
  | .seekUntilRelay a v => !s.running a && (!v || (s.axis a).safeMode)
  | .safeMode a v =>
    !s.running a && (v || !(s.axis a).seekUntilRelay || decide (.seekUntilRelay a false ∈ ws))
  | .nEN a _ => !s.running a
  | .dir a _ => !s.running a
  | .ms a _ => !s.running a
  | .idac a v => !s.running a && decide (v ≤ s.cfg.currentMax)
  | .anyAxisRunning _ => true

/-- Each of the writes `ws`, made in turn, keeps the discipline. -/
def State.mayFinish (s : State) : List Write → Bool
  | [] => true
  | w :: ws => s.mayWrite ws w && (s.put w).mayFinish ws

/-- The operation in progress keeps the ownership discipline: the writes still to come do, and an axis that
START's first read found idle is idle at its second. -/
def State.operationOk (s : State) : Bool :=
  s.mayFinish s.pending
    && (match s.inProgress, s.seen with
      | some (.read (.running .two) _), [v] => v != 0 || !s.axis1.running
      | _, _ => true)

/-! ### Invariants -/

/-- R50 I-1, I-2, I-3 and I-5 for one axis: the delay is never the sentinel, the current is in range, `STEP`
equals `pulseHigh`, and a running axis counts down from at most its delay. -/
def Axis.inRange (c : Config) (x : Axis) : Bool :=
  x.delayTicks != delaySentinel && decide (x.idac ≤ c.currentMax) && x.step == x.pulseHigh
    && (!x.running || decide (x.delayCounter ≤ x.delayTicks))

/-- R50 I-4: seek mode is safe mode. -/
def Axis.seekIsSafe (x : Axis) : Bool := !x.seekUntilRelay || x.safeMode

/-- I-1 to I-5 for one axis. -/
def Axis.ok (c : Config) (x : Axis) : Bool := x.inRange c && x.seekIsSafe

/-- I-1 to I-5 for one axis of the machine. Between SET_STEPS's write of `safeMode` and its write of
`seekUntilRelay` (R131) I-4 waits for the second of the two (log 33). -/
def State.axisOk (s : State) (a : AxisId) : Bool :=
  (s.axis a).inRange s.cfg
    && ((s.axis a).seekIsSafe || decide (.seekUntilRelay a false ∈ s.pending))

/-- The framer's buffers and indices are in range in each state (10_state.md R43 to R45; 20_memory.md
R64). -/
def State.framerOk (s : State) : Bool :=
  match s.fstate with
  | .awaitStart | .awaitOpcode => s.phase == .operate
  | .awaitPayload =>
    s.phase == .operate && (s.cfg.lookup s.opc).isSome && decide (s.pidx < s.cfg.reqPayload s.opc)
  | .awaitEnd1 | .awaitEnd2 =>
    s.phase == .operate && (s.cfg.lookup s.opc).isSome && s.pidx == s.cfg.reqPayload s.opc
  | .dispatch =>
    (s.cfg.lookup s.opc).isSome && s.pidx == s.cfg.reqPayload s.opc
      && (s.phase != .transmit || (s.rlen == s.cfg.respLen s.opc && decide (s.tidx < s.rlen)))

/-- The invariant of the machine: a valid configuration, both axes, the framer and the operation in progress
in range. -/
def State.inv (s : State) : Bool :=
  s.cfg.valid && s.axisOk .one && s.axisOk .two && s.framerOk && s.operationOk

/-! ### Runs -/

/-- A quiescent state (R272): waiting for a frame, no byte pending, neither axis running. -/
def State.quiescent (s : State) : Bool :=
  s.fstate == .awaitStart && s.rx.isEmpty && !s.axis1.running && !s.axis2.running

/-- The host duty of R262 and R78: no more than `RX_DEPTH` bytes wait. -/
def State.rxWithinDepth (s : State) : Bool := decide (s.rx.length ≤ s.cfg.rxDepth)

/-- The axis number on the wire (R90). -/
def AxisId.number : AxisId → Byte
  | .one => 1
  | .two => 2

/-- The toggle of `INDICATOR` that opens every `Dispatch` (R199). -/
def State.toggled (s : State) : State := { s with indicator := !s.indicator }

/-- No `RESET` is scheduled. -/
abbrev State.noReset (s : State) : Prop := Turn.reset ∉ s.turns

/-- `n` successive steps, stopping where a step stops (the host's `Host.Core.run` of this machine). -/
def run : Nat → State → Host.Outcome State Fault Refusal
  | 0, s => .next s
  | n + 1, s =>
    match step s with
    | .next t => run n t
    | .fault f => .fault f
    | .refused r => .refused r

/-- A schedule without end: the turn of each step (00_scope.md R12). -/
abbrev Schedule := Nat → Turn

/-- The first `n` steps from `s` under a schedule without end, each given its turn. -/
def State.along (σ : Schedule) (s : State) : Nat → Host.Outcome State Fault Refusal
  | 0 => .next s
  | n + 1 =>
    match s.along σ n with
    | .next t => step { t with turns := [σ n] }
    | .fault f => .fault f
    | .refused r => .refused r

/-- The command agent has no step (a *hold*, 00_scope.md R17; 20_memory.md R66): it waits for a
byte, or for the transport to accept one. -/
def State.held (s : State) : Bool :=
  match s.fstate, s.phase with
  | .dispatch, .transmit => !s.txReady
  | .dispatch, _ => false
  | _, _ => s.rx.isEmpty

/-- Weak fairness (00_scope.md R12; 70_reset_and_hazards.md R262, "ticks keep coming"): an agent that can
step eventually does. The tick agent always can; the command agent can while it is not held. -/
structure WeaklyFair (σ : Schedule) (s : State) : Prop where
  ticks : ∀ n, ∃ m ≥ n, σ m = .tick
  commands : ∀ n, (∀ m ≥ n, ∀ t, s.along σ m = .next t → t.held = false) →
    ∃ m ≥ n, σ m = .command ∨ σ m = .operation

/-- `n` successive runs of the tick handler. -/
def State.ticks (s : State) : Nat → State
  | 0 => s
  | n + 1 => (s.ticks n).tick

/-- How many of the first `n` ticks make a rising edge on `STEP[a]`. -/
def State.risingEdges (s : State) (a : AxisId) : Nat → Nat
  | 0 => 0
  | n + 1 =>
    s.risingEdges a n
      + if !((s.ticks n).axis a).step && ((s.ticks (n + 1)).axis a).step then 1 else 0

/-- How many of the first `n` ticks make a falling edge on `STEP[a]`. -/
def State.fallingEdges (s : State) (a : AxisId) : Nat → Nat
  | 0 => 0
  | n + 1 =>
    s.fallingEdges a n
      + if ((s.ticks n).axis a).step && !((s.ticks (n + 1)).axis a).step then 1 else 0

/-- The relay does not stop axis `a` (R112): it is not triggered, or the axis does not look at it. -/
abbrev State.relayQuiet (s : State) (a : AxisId) : Prop :=
  ((s.axis a).safeMode = false ∧ (s.axis a).seekUntilRelay = false) ∨ s.relayTriggered a = false

/-- The elements of an axis that the tick handler never writes (R110): mode flags, delay and latches. -/
abbrev Axis.sameSettings (x y : Axis) : Prop :=
  x.delayTicks = y.delayTicks ∧ x.seekUntilRelay = y.seekUntilRelay ∧ x.safeMode = y.safeMode
    ∧ x.nEN = y.nEN ∧ x.dir = y.dir ∧ x.ms = y.ms ∧ x.idac = y.idac

/-- `y` is what some number of ticks, each with its own relay sample, make of `x`, and nothing else. -/
abbrev Axis.tickedTo (x y : Axis) : Prop := ∃ samples : List Bool, y = samples.foldl Axis.tick x

/-! ### Frames on the wire -/

/-- The response frame of R82: on failure the output positions hold the poison fill (R203). -/
def responseFrame (c : Config) (opc : Byte) (ok : Bool) (outs : List Byte) : List Byte :=
  c.startToken :: opc :: (if ok then c.statusSuccess else c.statusFail)
    :: ((if ok then outs else List.replicate (c.respLen opc - 5) c.poison)
      ++ [c.end1Token, c.end2Token])

/-- The machine stands at the start of the transmission of `frame` (R202). -/
abbrev State.aboutToSend (s : State) (frame : List Byte) : Prop :=
  s.phase = .transmit ∧ s.tidx = 0 ∧ s.rlen = frame.length ∧ s.resp.toList.take s.rlen = frame

end Sys2Proof.Machine

namespace Sys2Proof

/-- A command's form on the wire under the default configuration: the opcode, the payload bytes between the
tokens, and the length of its response (30_encoding.md R86, R88). -/
abbrev Instr.onWire (i : Instr) (code : Byte) (payload : List Byte) (respLen : Nat) : Prop :=
  encode Config.default i = 0xA5 :: code :: (payload ++ [0x5A, 0xC3])
    ∧ Config.default.respLen code = respLen

end Sys2Proof
end

