-- ==== Sys2Proof/Certificates/Slice0/Obligations.lean ====
section
/-! DEFINITION. The statements for the provers, each named after what it states. A statement about `exec` is
about a whole operation, which is a run of single steps by `SingleStepsMakeUpTheCommand`. `s.turns = []`
says that no other agent takes a turn inside the command; `s.noReset` allows any schedule of ticks and host
actions without a `RESET`. -/

open Sys2Proof Sys2Proof.Machine

/-! ### Reset -/

/-- After `RESET` every register, latch and flag holds its value of 10_state.md R46 and R47 and the framer
waits for a start token with nothing received or sent (R48), under every configuration. The zeros that
those rules mark D14 are the spec's own choice. The framer's unspecified buffers are not mentioned. -/
def Obligations.ResetEstablishesTheResetValues : Prop :=
  ∀ c : Config, ∀ a : AxisId,
    let s := State.initial c
    let x := s.axis a
    (x.running = false ∧ x.remainingSteps = 0 ∧ x.pulseHigh = false ∧ x.delayTicks = c.defaultDelay
      ∧ x.delayCounter = 0 ∧ x.seekUntilRelay = false ∧ x.safeMode = true)
    ∧ (x.step = false ∧ x.nEN = true ∧ x.dir = false ∧ x.ms = 0b00 ∧ x.idac = 0)
    ∧ s.anyAxisRunning = false ∧ s.indicator = false
    ∧ s.fstate = .awaitStart ∧ s.phase = .operate ∧ s.rx = [] ∧ s.tx = []
    ∧ State.reset = State.initial Config.default

/-- The machine of a valid configuration starts in its invariant (10_state.md R50; 00_scope.md R9), and
the default configuration is valid. -/
def Obligations.ResetMeetsTheInvariant : Prop :=
  Config.default.valid = true ∧ State.reset.inv = true
    ∧ ∀ c : Config, c.valid = true → (State.initial c).inv = true

/-- A `RESET` turn, in any state, establishes the reset values again; the configuration, the contact
inputs, the transport's readiness and the rest of the schedule are the environment's (the model's choice,
log 16). The framer's buffers, which R48 leaves unspecified, are zero again by the model's choice, log 9. -/
def Obligations.ResetTurnEstablishesTheResetValues : Prop :=
  ∀ (s : State) (ts : List Turn), s.turns = .reset :: ts →
    step s = .next { State.initial s.cfg with
      contacts1 := s.contacts1, contacts2 := s.contacts2, txReady := s.txReady, turns := ts }

/-! ### Whole-machine rules over every step and every schedule -/

/-- Every step, a single access inside a command included, keeps the invariant: I-1 to I-5 of 10_state.md
R50 for both axes, the framer's bounds, the validity of the configuration, and the ownership discipline of
20_memory.md R68 for the operation in progress. Between the two flag writes of SET_STEPS I-4 waits for the
second (log 33). -/
def Obligations.StepKeepsTheInvariant : Prop :=
  ∀ s t : State, s.inv = true → step s = .next t → t.inv = true

/-- From a state in the invariant a step always answers a next state: the block has no fault state
(60_exceptions.md section 1) and no unassigned opcode reaches `Dispatch`. -/
def Obligations.StepNeverStops : Prop :=
  ∀ s : State, s.inv = true → ∃ t, step s = .next t

/-- No step changes the tokens, the opcode table or any other parameter (20_memory.md section 4). -/
def Obligations.NoStepChangesTheConfiguration : Prop :=
  ∀ s t : State, step s = .next t → t.cfg = s.cfg

/-- While an axis runs, its delay, mode flags and latches do not change (10_state.md R50 I-5): an axis
that runs before and after a step has the same settings before and after. Inside a setter that has found
its axis idle, this rests on the invariant. -/
def Obligations.RunningAxisKeepsItsSettings : Prop :=
  ∀ (s t : State) (a : AxisId), s.inv = true → step s = .next t →
    (s.axis a).running = true → (t.axis a).running = true → (s.axis a).sameSettings (t.axis a)

/-- `running[a]` is written to 1 only by a START that requests axis `a` (10_state.md R21), in a single step
of its operation or in its operation as a whole. -/
def Obligations.OnlyStartSetsRunning : Prop :=
  ∀ (s t : State) (a : AxisId), step s = .next t →
    (s.axis a).running = false → (t.axis a).running = true →
    s.fstate = .dispatch ∧ s.phase ≠ .transmit
      ∧ ∃ bf, s.fetched = some (.start bf) ∧ requests s.cfg.wire bf a = true

/-- `STEP[a]` and `pulseHigh[a]` are written by the tick handler alone (10_state.md R23, R34): with no tick
and no `RESET` scheduled, a step keeps both. -/
def Obligations.OnlyTicksMoveTheStepOutput : Prop :=
  ∀ (s t : State) (a : AxisId), Turn.tick ∉ s.turns → s.noReset → step s = .next t →
    (t.axis a).step = (s.axis a).step ∧ (t.axis a).pulseHigh = (s.axis a).pulseHigh

/-! ### Steps, turns and the framer -/

/-- What a step in `Dispatch` does with the command that stands there, by the turn it takes (20_memory.md
R62; 44_framer_dispatch.md R198). On an `operation` turn it is `exec` of the command on the rest of the
schedule: the whole operation as one step is the model's abbreviation (log 1). On a `command` turn, or with
nothing scheduled, which gives the command agent the turn (log 2), it is one single step of the command's own
operation: at first the indicator is inverted; then each step makes the access that the operation has come
to after the accesses it has `seen`, a read (s2), which changes nothing shared and whose value the rest of
the operation is given, or a write (s3) of the operation's element and value. When no access is left, the
operation's own response is assembled in the same step (log 29). A turn of the tick agent or the host is that
turn alone. -/
def Obligations.StepRunsTheFetchedCommand : Prop :=
  let stopsBefore (rest : Script) (seen : List Half) (u : State) : State :=
    match rest with
    | .respond ok outs => u.respond ok outs
    | .read _ _ => { u with phase := .access, seen := seen }
    | .write _ _ => { u with phase := .access, seen := seen }
  (∀ (s : State) (i : Instr), s.fstate = .dispatch → s.fetched = some i →
      (∀ ts, s.phase = .operate → s.turns = .operation :: ts → step s = exec i { s with turns := ts })
      ∧ ∀ ts, (s.turns = [] ∧ ts = []) ∨ s.turns = .command :: ts →
        let u := { s with turns := ts }
        (s.phase = .operate →
          step s = .next (stopsBefore (operationOf s.cfg i) [] { u with indicator := !s.indicator }))
        ∧ (s.phase = .access → step s = .next (
            match (operationOf s.cfg i).resume s.seen with
            | .read r k => stopsBefore (k (s.get r)) (s.seen ++ [s.get r]) u
            | .write w k => stopsBefore k (s.seen ++ [0]) (u.put w)
            | .respond ok outs => u.respond ok outs)))
  ∧ ∀ (s : State) (t : Turn) (ts : List Turn), s.turns = t :: ts → t ≠ .command → t ≠ .operation →
      step s = .next ({ s with turns := ts }.hostTurn t)

/-- The framer's transitions on the byte it consumes, nothing else of the state changing
(44_framer_dispatch.md section 1): `AwaitStart` (R191), `AwaitOpcode` (R192, whose empty payload going
straight to `AwaitEnd1` the spec derives), `AwaitPayload` (R193), `AwaitEnd1` (R194) and `AwaitEnd2` (R195).
That entering `Dispatch` sets the field `phase` to `operate` is the model's choice, log 29. -/
def Obligations.FramerTransitions : Prop :=
  ∀ (s : State) (b : Byte) (rest : List Byte), s.turns = [] → s.rx = b :: rest →
    (s.fstate = .awaitStart → step s = .next { s with
      rx := rest, fstate := if b = s.cfg.startToken then .awaitOpcode else .awaitStart })
    ∧ (s.fstate = .awaitOpcode → step s = .next (match s.cfg.lookup b with
        | none => { s with rx := rest, fstate := .awaitStart }
        | some e => { s with
            rx := rest, opc := b, pidx := 0,
            fstate := if e.reqLen - 4 = 0 then .awaitEnd1 else .awaitPayload }))
    ∧ (s.fstate = .awaitPayload → step s = .next { s with
      rx := rest, pay := s.pay.setIfInBounds s.pidx b, pidx := s.pidx + 1,
      fstate := if s.pidx + 1 < s.cfg.reqPayload s.opc then .awaitPayload else .awaitEnd1 })
    ∧ (s.fstate = .awaitEnd1 → step s = .next { s with
      rx := rest, fstate := if b = s.cfg.end1Token then .awaitEnd2 else .awaitStart })
    ∧ (s.fstate = .awaitEnd2 → step s = .next (if b = s.cfg.end2Token then
        { s with rx := rest, fstate := .dispatch, phase := .operate }
      else { s with rx := rest, fstate := .awaitStart }))

/-- A hold: no byte available in an `Await` state, or no acceptance in transmission, leaves the state as it
is (20_memory.md R66; 44_framer_dispatch.md R206; log 28). -/
def Obligations.HoldKeepsTheState : Prop :=
  ∀ s : State, s.turns = [] →
    (s.fstate ≠ .dispatch → s.rx = [] → step s = .next s)
    ∧ (s.fstate = .dispatch → s.phase = .transmit → s.txReady = false → step s = .next s)

/-- Assigned and unassigned opcodes of the default table (30_encoding.md sections 2 and 4; the numbers are
the spec's decision D3): in `AwaitOpcode` the bytes 0x00 and 0x13 to 0xFF abort, consumed and without a
response; 0x12 goes to `AwaitEnd1`; 0x01 to 0x11 go to `AwaitPayload`. -/
def Obligations.UnassignedOpcodesAbort : Prop :=
  ∀ (s : State) (b : Byte) (rest : List Byte), s.cfg = Config.default → s.turns = [] →
    s.fstate = .awaitOpcode → s.rx = b :: rest →
    ((b = 0x00 ∨ 0x13 ≤ b) → step s = .next { s with rx := rest, fstate := .awaitStart })
    ∧ (b ≠ 0x00 → b ≤ 0x12 → step s = .next { s with
        rx := rest, opc := b, pidx := 0
        fstate := if b = 0x12 then .awaitEnd1 else .awaitPayload })

/-- Six zero bytes bring the framer of the default configuration from any `Await` state to `AwaitStart`
without executing a command: only framer fields change (70_reset_and_hazards.md section 2). -/
def Obligations.SixZeroBytesFlushTheFramer : Prop :=
  ∀ (s : State) (rest : List Byte), s.cfg = Config.default → s.inv = true → s.turns = [] →
    s.fstate ≠ .dispatch → s.rx = List.replicate 6 0x00 ++ rest →
    ∃ t, run 6 s = .next t ∧ t.fstate = .awaitStart
      ∧ t = { s with rx := rest, fstate := t.fstate, pay := t.pay, pidx := t.pidx }

/-! ### Encoding -/

/-- Decode and encode agree: under every valid configuration the frame of a command decodes to that
command, every operand at every value, and leaves the bytes after it; and where decoding succeeds, the bytes
read are the encoding of the command. -/
def Obligations.DecodeOfEncodeIsTheCommand : Prop :=
  (∀ (c : Config) (i : Instr) (rest : List Byte), c.valid = true →
    decodeFrame c (encode c i ++ rest) = .ok (i, rest))
  ∧ ∀ (c : Config) (bs rest : List Byte) (i : Instr), c.valid = true →
    decodeFrame c bs = .ok (i, rest) → bs = encode c i ++ rest

/-- The single steps of an operation make up the command (00_scope.md R11; 20_memory.md R62, R69): under
every schedule, with any ticks, host actions and `RESET`s between its accesses, a run of single steps of the
command agent and turns of the others ends in exactly the state that `exec` answers. -/
def Obligations.SingleStepsMakeUpTheCommand : Prop :=
  ∀ (s : State) (i : Instr) (ts : List Turn), s.fstate = .dispatch → s.phase = .operate →
    s.fetched = some i → (s.turns = [] ∧ ts = []) ∨ s.turns = .command :: ts →
    ∃ n t, run n s = .next t ∧ exec i { s with turns := ts } = .next t

/-- The byte-at-a-time framer agrees with the decoder: the frame of any command, received from
`AwaitStart`, brings that command to `Dispatch`, and changes nothing but framer fields. -/
def Obligations.FramerDeliversEveryCommand : Prop :=
  ∀ (s : State) (i : Instr) (rest : List Byte), s.cfg.valid = true → s.turns = [] →
    s.fstate = .awaitStart → s.rx = encode s.cfg i ++ rest →
    ∃ t, run (encode s.cfg i).length s = .next t
      ∧ t.fstate = .dispatch ∧ t.phase = .operate ∧ t.fetched = some i
      ∧ t.opc = s.cfg.codeOf i.op ∧ t.pidx = s.cfg.reqPayload t.opc
      ∧ t = { s with
          rx := rest, fstate := t.fstate, phase := t.phase, opc := t.opc, pay := t.pay, pidx := t.pidx }

/-- Words of opcode_table.json and frames of 95_test_vectors.md decode to the commands they stand for. The
three clauses about `decodeTableWord` rest on the model's numbering of a word's bits, with the payload
filled up with zeros and the tokens supplied (log 24); its `none` for the unassigned opcode 0x13 names no
reason, while `decodeFrame` rejects the frame F4 by the name `badEnd1`. -/
def Obligations.WrittenOutWordsDecode : Prop :=
  decodeTableWord 8 0b00000100 = some (.start 0)
    ∧ decodeTableWord 24 0b00000011_00000010_00001001 = some (.setMicrosteps 2 3)
    ∧ decodeTableWord 8 0b00010011 = none
    ∧ decodeFrame Config.default [0xA5, 0x01, 0x02, 0x78, 0x56, 0x34, 0x12, 0x5A, 0xC3]
        = .ok (.setSteps 2 0x12345678, [])
    ∧ decodeFrame Config.default [0xA5, 0x0F, 0x01, 0xF4, 0x01, 0x5A, 0xC3, 0x77]
        = .ok (.setStepDelay 1 500, [0x77])
    ∧ decodeFrame Config.default [0xA5, 0x12, 0x5A, 0xC3] = .ok (.getVersion, [])
    ∧ decodeFrame Config.default [0xA5, 0x06, 0x01, 0x99, 0xC3] = .error .badEnd1

/-! ### Responses -/

/-- Response assembly (R200, R201): start token, echoed opcode, status, the outputs on success or the
poison fill on failure, and the end tokens at the end of the opcode's fixed length `M`. -/
def Obligations.ResponseAssembly : Prop :=
  ∀ (s : State) (e : OpEntry) (ok : Bool) (outs : List Byte), s.cfg.valid = true →
    s.cfg.lookup s.opc = some e → (ok = true → outs.length = e.respLen - 5) →
    (s.respond ok outs).aboutToSend (responseFrame s.cfg s.opc ok outs)
      ∧ (responseFrame s.cfg s.opc ok outs).length = e.respLen

/-- Transmission (R202): with the transport accepting, one byte a step in index order, and `AwaitStart`
after the last. -/
def Obligations.ResponseIsTransmittedInOrder : Prop :=
  ∀ (s : State) (frame : List Byte), s.turns = [] → s.fstate = .dispatch → s.txReady = true →
    s.aboutToSend frame → frame ≠ [] →
    run frame.length s = .next { s with
      tx := s.tx ++ frame, tidx := frame.length, fstate := .awaitStart, phase := .operate }

/-- One response per framed command (44_framer_dispatch.md R204): a frame received from `AwaitStart` gives
exactly one response frame of the opcode's length, with the echoed opcode, one toggle of the indicator,
and the framer back in `AwaitStart`. The operation takes at most nine single steps (20_memory.md R79). -/
def Obligations.OneResponsePerFramedCommand : Prop :=
  ∀ (s : State) (i : Instr) (rest : List Byte), s.cfg.valid = true → s.turns = [] →
    s.txReady = true → s.fstate = .awaitStart → s.rx = encode s.cfg i ++ rest →
    ∃ n t ok outs, 1 ≤ n ∧ n ≤ 9
        ∧ run ((encode s.cfg i).length + n + s.cfg.respLen (s.cfg.codeOf i.op)) s = .next t
        ∧ t.tx = s.tx ++ responseFrame s.cfg (s.cfg.codeOf i.op) ok outs
        ∧ (responseFrame s.cfg (s.cfg.codeOf i.op) ok outs).length
            = s.cfg.respLen (s.cfg.codeOf i.op)
        ∧ t.fstate = .awaitStart ∧ t.rx = rest ∧ t.indicator = !s.indicator

/-- A frame whose first end token is garbled gives no response and executes nothing, and the framer waits
for the next start token (44_framer_dispatch.md R194, R197, R204). -/
def Obligations.GarbledFrameGivesNoResponse : Prop :=
  ∀ (s : State) (i : Instr) (garbage : Byte) (rest : List Byte), s.cfg.valid = true → s.turns = [] →
    s.fstate = .awaitStart → garbage ≠ s.cfg.end1Token → s.cfg.end2Token ≠ s.cfg.startToken →
    s.rx = s.cfg.startToken :: s.cfg.codeOf i.op
      :: (encodePayload i ++ garbage :: s.cfg.end2Token :: rest) →
    ∃ t, run (encode s.cfg i).length s = .next t
      ∧ t = { s with rx := rest, opc := t.opc, pay := t.pay, pidx := t.pidx }

/-! ### The step generator -/

/-- The tick handler (R110) by its numbered steps: the fast exit (R111), the relay trip (R112), natural
completion (R113), the toggle with its count and reload, or the countdown (R115); nothing outside the
two axes changes; and the relay of a pair is triggered unless both its contacts read open (R41). -/
def Obligations.TickHandlerBySteps : Prop :=
  ∀ s : State,
    (∀ a : AxisId,
      let x := s.axis a
      s.tick.axis a =
        if s.anyAxisRunning = false then x
        else if x.running = false then x
        else if (x.safeMode = true ∨ x.seekUntilRelay = true) ∧ s.relayTriggered a = true then
          { x with running := false }
        else if x.seekUntilRelay = false ∧ x.pulseHigh = false ∧ x.remainingSteps = 0 then
          { x with running := false }
        else if x.delayCounter = 0 then
          { x with
            step := !x.step
            pulseHigh := !x.pulseHigh
            remainingSteps :=
              if x.pulseHigh = false ∧ x.seekUntilRelay = false then x.remainingSteps - 1
              else x.remainingSteps
            delayCounter := x.delayTicks }
        else { x with delayCounter := x.delayCounter - 1 })
    ∧ s.tick = { s with axis1 := s.tick.axis1, axis2 := s.tick.axis2 }
    ∧ ∀ a : AxisId,
      s.relayTriggered a = true ↔ ¬((s.contacts a).aOpen = true ∧ (s.contacts a).bOpen = true)

/-- A move ends under weak fairness (00_scope.md R12): on every weakly fair schedule a running axis outside
seek mode eventually does not run, as long as `anyAxisRunning` stays up. -/
def Obligations.CountedMovesEndUnderFairness : Prop :=
  ∀ (σ : Schedule) (s : State) (a : AxisId), s.inv = true → WeaklyFair σ s →
    (s.axis a).running = true → (s.axis a).seekUntilRelay = false →
    (∀ n t, s.along σ n = .next t → t.anyAxisRunning = true) →
    ∃ n t, s.along σ n = .next t ∧ (t.axis a).running = false

/-- No step of the handler for one axis reads the other axis or its relay pair (10_state.md R29;
40_step_generator.md R114). -/
def Obligations.TicksKeepTheAxesIndependent : Prop :=
  ∀ (s t : State) (a : AxisId) (n : Nat), s.anyAxisRunning = t.anyAxisRunning →
    s.axis a = t.axis a → s.contacts a = t.contacts a →
    (s.ticks n).axis a = (t.ticks n).axis a

/-- Half-period (40_step_generator.md section 2): after a toggle that does not end the move, `STEP[a]`
keeps its new level for `delayTicks + 1` ticks and then toggles again. -/
def Obligations.HalfPeriodIsDelayPlusOne : Prop :=
  ∀ (s : State) (a : AxisId), s.anyAxisRunning = true → (s.axis a).running = true →
    s.relayQuiet a → (s.axis a).delayCounter = 0 →
    ((s.axis a).seekUntilRelay = true
      ∨ (s.axis a).remainingSteps ≠ 0) →
    (∀ k ≤ (s.axis a).delayTicks.toNat,
      ((s.ticks (1 + k)).axis a).step = !(s.axis a).step)
    ∧ ((s.ticks (1 + ((s.axis a).delayTicks.toNat + 1))).axis a).step = (s.axis a).step

/-- Ticks to completion from `pulseHigh = 0` (40_step_generator.md section 2, rows 1 and 2): with `N` steps
left and half-period `H`, rising edge `k` falls on tick `1 + 2kH`, falling edge `k` on tick
`1 + (2k+1)H`, there are no others, and `running` becomes 0 at tick `2 + (2N-1)H`, or at tick 1 with no
edge when `N = 0`. With `N = 0` the countdown ends at the 0 it starts from, as R113 and the vector "START
after reset" of 95_test_vectors.md section 2.3 have it; R117's sentence that every row ends with
`delayCounter = D` does not hold of that row, and the statement departs from it there. -/
def Obligations.CompletionFromLow : Prop :=
  ∀ (s : State) (a : AxisId), s.anyAxisRunning = true →
    let x := s.axis a
    let N := x.remainingSteps.toNat
    let H := x.delayTicks.toNat + 1
    let T := if N = 0 then 1 else 2 + (2 * N - 1) * H
    x.running = true → x.seekUntilRelay = false → s.relayQuiet a → x.delayCounter = 0 →
    x.pulseHigh = false → x.step = false →
    (∀ n < T, ((s.ticks n).axis a).running = true)
    ∧ (s.ticks T).axis a = { x with
        running := false, remainingSteps := 0
        delayCounter := if N = 0 then 0 else x.delayTicks }
    ∧ s.risingEdges a T = N ∧ s.fallingEdges a T = N
    ∧ (∀ k < N, ((s.ticks (2 * k * H)).axis a).step = false
        ∧ ((s.ticks (1 + 2 * k * H)).axis a).step = true)
    ∧ (∀ k < N, ((s.ticks ((2 * k + 1) * H)).axis a).step = true
        ∧ ((s.ticks (1 + (2 * k + 1) * H)).axis a).step = false)

/-- Ticks to completion of a resumed move, `pulseHigh = 1` (40_step_generator.md section 2, row 3): one
uncounted falling edge first, then `N` rising edges, and `running` becomes 0 at tick `2 + 2NH`. -/
def Obligations.CompletionFromHigh : Prop :=
  ∀ (s : State) (a : AxisId), s.anyAxisRunning = true →
    let x := s.axis a
    let N := x.remainingSteps.toNat
    let H := x.delayTicks.toNat + 1
    let T := 2 + 2 * N * H
    x.running = true → x.seekUntilRelay = false → s.relayQuiet a → x.delayCounter = 0 →
    x.pulseHigh = true → x.step = true →
    (∀ n < T, ((s.ticks n).axis a).running = true)
    ∧ (s.ticks T).axis a = { x with
        running := false, remainingSteps := 0, pulseHigh := false, step := false
        delayCounter := x.delayTicks }
    ∧ s.risingEdges a T = N ∧ s.fallingEdges a T = N + 1
    ∧ (∀ k ≤ N, ((s.ticks (2 * k * H)).axis a).step = true
        ∧ ((s.ticks (1 + 2 * k * H)).axis a).step = false)
    ∧ (∀ k < N, ((s.ticks ((2 * k + 1) * H)).axis a).step = false
        ∧ ((s.ticks (1 + (2 * k + 1) * H)).axis a).step = true)

/-- Seek mode (40_step_generator.md R118): until its relay triggers a seeking axis runs through any number
of ticks and its count is not touched. -/
def Obligations.SeekRunsUntilTheRelay : Prop :=
  ∀ (s : State) (a : AxisId) (n : Nat), s.anyAxisRunning = true → (s.axis a).running = true →
    (s.axis a).seekUntilRelay = true → s.relayTriggered a = false →
    ((s.ticks n).axis a).running = true
      ∧ ((s.ticks n).axis a).remainingSteps = (s.axis a).remainingSteps

/-- No decrement is applied to a zero value (40_step_generator.md R121): a tick changes the count by
exactly one downwards or not at all, and the countdown is counted down by one, reloaded or kept. -/
def Obligations.DecrementsNeverWrap : Prop :=
  ∀ (s : State) (a : AxisId),
    let x := s.axis a
    let y := s.tick.axis a
    (y.remainingSteps = x.remainingSteps ∨ y.remainingSteps.toNat + 1 = x.remainingSteps.toNat)
    ∧ (y.delayCounter = x.delayCounter ∨ y.delayCounter = x.delayTicks
        ∨ y.delayCounter.toNat + 1 = x.delayCounter.toNat)

/-- A quiescent state is stable (70_reset_and_hazards.md R272): ticks change nothing and the command agent
holds. -/
def Obligations.QuiescentStatesAreStable : Prop :=
  ∀ s : State, s.quiescent = true →
    (∀ n, s.ticks n = s) ∧ (s.turns = [] → step s = .next s)

/-! ### The motion commands, with no turn inside them -/

/-- SET_STEPS (R131): opcode `0x01`, request 9 bytes, response 5 bytes; its effect and its failures. -/
def Obligations.SetStepsEffect : Prop :=
  ∀ (s : State) (axis : Byte) (count : Word), s.turns = [] →
    (Instr.setSteps axis count).onWire 0x01 [axis, count.extractLsb' 0 8, count.extractLsb' 8 8,
      count.extractLsb' 16 8, count.extractLsb' 24 8] 5 ∧
    (axis ≠ 1 ∧ axis ≠ 2 → exec (.setSteps axis count) s = .next (s.toggled.respond false []))
    ∧ ∀ a : AxisId, axis = a.number →
      ((s.axis a).running = true →
        exec (.setSteps axis count) s = .next (s.toggled.respond false []))
      ∧ ((s.axis a).running = false →
        exec (.setSteps axis count) s = .next ((s.toggled.updAxis a fun x =>
          { x with remainingSteps := count, safeMode := false, seekUntilRelay := false }).respond
            true []))

/-- SET_SAFE_STEPS (R132): opcode `0x02` and lengths as SET_STEPS; its effect and its failures. -/
def Obligations.SetSafeStepsEffect : Prop :=
  ∀ (s : State) (axis : Byte) (count : Word), s.turns = [] →
    (Instr.setSafeSteps axis count).onWire 0x02 [axis, count.extractLsb' 0 8, count.extractLsb' 8 8,
      count.extractLsb' 16 8, count.extractLsb' 24 8] 5 ∧
    (axis ≠ 1 ∧ axis ≠ 2 → exec (.setSafeSteps axis count) s = .next (s.toggled.respond false []))
    ∧ ∀ a : AxisId, axis = a.number →
      ((s.axis a).running = true →
        exec (.setSafeSteps axis count) s = .next (s.toggled.respond false []))
      ∧ ((s.axis a).running = false →
        exec (.setSafeSteps axis count) s = .next ((s.toggled.updAxis a fun x =>
          { x with remainingSteps := count, safeMode := true, seekUntilRelay := false }).respond
            true []))

/-- SET_SEEK (41_motion_commands.md R133); that `remainingSteps` stays is the spec's decision D18. -/
def Obligations.SetSeekEffect : Prop :=
  ∀ (s : State) (axis : Byte), s.turns = [] →
    (Instr.setSeek axis).onWire 0x03 [axis] 5 ∧
    (axis ≠ 1 ∧ axis ≠ 2 → exec (.setSeek axis) s = .next (s.toggled.respond false []))
    ∧ ∀ a : AxisId, axis = a.number →
      ((s.axis a).running = true → exec (.setSeek axis) s = .next (s.toggled.respond false []))
      ∧ ((s.axis a).running = false →
        exec (.setSeek axis) s = .next ((s.toggled.updAxis a fun x =>
          { x with safeMode := true, seekUntilRelay := true }).respond true []))

/-- START (41_motion_commands.md R134) under the default axis bits: it fails on a bit outside the valid set
or a requested axis that runs; otherwise it zeroes the countdown of each requested axis (decision D15),
sets it running, and raises `anyAxisRunning`. -/
def Obligations.StartEffect : Prop :=
  ∀ (s : State) (bf : Byte), s.turns = [] → s.cfg.wire = WireCodes.default →
    let arm : Axis → Axis := fun x => { x with delayCounter := 0, running := true }
    let rejected := bf &&& 0xFC ≠ 0 ∨ (bf.getLsbD 0 = true ∧ s.axis1.running = true)
      ∨ (bf.getLsbD 1 = true ∧ s.axis2.running = true)
    (Instr.start bf).onWire 0x04 [bf] 5 ∧
    (rejected → exec (.start bf) s = .next (s.toggled.respond false []))
    ∧ (¬rejected → exec (.start bf) s = .next ({ s.toggled with
        axis1 := if bf.getLsbD 0 then arm s.axis1 else s.axis1
        axis2 := if bf.getLsbD 1 then arm s.axis2 else s.axis2
        anyAxisRunning := true }.respond true []))

/-- STOP (41_motion_commands.md R135) under the default axis bits: it fails on a bit outside the valid set
only (decision D16), clears `anyAxisRunning` when both axes are requested, and stops each requested
axis. -/
def Obligations.StopEffect : Prop :=
  ∀ (s : State) (bf : Byte), s.turns = [] → s.cfg.wire = WireCodes.default →
    (Instr.stop bf).onWire 0x05 [bf] 5 ∧
    (bf &&& 0xFC ≠ 0 → exec (.stop bf) s = .next (s.toggled.respond false []))
    ∧ (bf &&& 0xFC = 0 → exec (.stop bf) s = .next ({ s.toggled with
        axis1 := if bf.getLsbD 0 then { s.axis1 with running := false } else s.axis1
        axis2 := if bf.getLsbD 1 then { s.axis2 with running := false } else s.axis2
        anyAxisRunning := if bf = 0x03 then false else s.anyAxisRunning }.respond true []))

/-- GET_MOVING (R136): its wire form, its one load and its failures. -/
def Obligations.GetMovingEffect : Prop :=
  ∀ (s : State) (axis : Byte), s.turns = [] →
    (Instr.getMoving axis).onWire 0x06 [axis] 6 ∧
    (axis ≠ 1 ∧ axis ≠ 2 → exec (.getMoving axis) s = .next (s.toggled.respond false []))
    ∧ ∀ a : AxisId, axis = a.number →
      exec (.getMoving axis) s = .next (s.toggled.respond true
        [if (s.axis a).running then 0x01 else 0x00])

/-! ### The configuration commands, with no turn inside them -/

/-- SET_ENABLE (42_config_commands.md R151) under the default enable codes, whose strictness is the spec's
decision D11. -/
def Obligations.SetEnableEffect : Prop :=
  ∀ (s : State) (axis en : Byte), s.turns = [] → s.cfg.wire = WireCodes.default →
    (Instr.setEnable axis en).onWire 0x07 [axis, en] 5 ∧
    (axis ≠ 1 ∧ axis ≠ 2 → exec (.setEnable axis en) s = .next (s.toggled.respond false []))
    ∧ ∀ a : AxisId, axis = a.number →
      ((s.axis a).running = true ∨ 1 < en →
        exec (.setEnable axis en) s = .next (s.toggled.respond false []))
      ∧ ((s.axis a).running = false → en ≤ 1 →
        exec (.setEnable axis en) s = .next ((s.toggled.updAxis a fun x =>
          { x with nEN := if en = 0 then true else false }).respond true []))

/-- GET_ENABLE (R152): its wire form, the logical enable, 0 after reset. -/
def Obligations.GetEnableEffect : Prop :=
  ∀ (s : State) (axis : Byte), s.turns = [] →
    (Instr.getEnable axis).onWire 0x08 [axis] 6 ∧
    (axis ≠ 1 ∧ axis ≠ 2 → exec (.getEnable axis) s = .next (s.toggled.respond false []))
    ∧ ∀ a : AxisId, axis = a.number →
      exec (.getEnable axis) s = .next (s.toggled.respond true
        [if (s.axis a).nEN = false then 0x01 else 0x00])
      ∧ exec (.getEnable axis) State.reset = .next (State.reset.toggled.respond true [0x00])

/-- SET_MICROSTEPS (R153) under the default codes: wire form, effect, failures. -/
def Obligations.SetMicrostepsEffect : Prop :=
  ∀ (s : State) (axis mode : Byte), s.turns = [] → s.cfg.wire = WireCodes.default →
    (Instr.setMicrosteps axis mode).onWire 0x09 [axis, mode] 5 ∧
    (axis ≠ 1 ∧ axis ≠ 2 → exec (.setMicrosteps axis mode) s = .next (s.toggled.respond false []))
    ∧ ∀ a : AxisId, axis = a.number →
      ((s.axis a).running = true ∨ 3 < mode →
        exec (.setMicrosteps axis mode) s = .next (s.toggled.respond false []))
      ∧ ((s.axis a).running = false → mode ≤ 3 →
        exec (.setMicrosteps axis mode) s = .next ((s.toggled.updAxis a fun x =>
          { x with ms := mode.extractLsb' 0 2 }).respond true []))

/-- GET_MICROSTEPS (R154) under the default codes: wire form, result, full after reset, and the round trip
for each of the four modes. -/
def Obligations.GetMicrostepsEffect : Prop :=
  ∀ (s : State) (axis : Byte), s.turns = [] → s.cfg.wire = WireCodes.default →
    (Instr.getMicrosteps axis).onWire 0x0A [axis] 6 ∧
    (axis ≠ 1 ∧ axis ≠ 2 → exec (.getMicrosteps axis) s = .next (s.toggled.respond false []))
    ∧ ∀ a : AxisId, axis = a.number →
      exec (.getMicrosteps axis) s = .next (s.toggled.respond true [(s.axis a).ms.setWidth 8])
      ∧ exec (.getMicrosteps axis) State.reset = .next (State.reset.toggled.respond true [0x00])
      ∧ ∀ mode ≤ 3, (s.axis a).running = false →
        ∃ t, exec (.setMicrosteps axis mode) s = .next t
          ∧ exec (.getMicrosteps axis) t = .next (t.toggled.respond true [mode])

/-- SET_DIRECTION (R155) under the default codes: wire form, effect, failures. -/
def Obligations.SetDirectionEffect : Prop :=
  ∀ (s : State) (axis dir : Byte), s.turns = [] → s.cfg.wire = WireCodes.default →
    (Instr.setDirection axis dir).onWire 0x0B [axis, dir] 5 ∧
    (axis ≠ 1 ∧ axis ≠ 2 → exec (.setDirection axis dir) s = .next (s.toggled.respond false []))
    ∧ ∀ a : AxisId, axis = a.number →
      ((s.axis a).running = true ∨ 1 < dir →
        exec (.setDirection axis dir) s = .next (s.toggled.respond false []))
      ∧ ((s.axis a).running = false → dir ≤ 1 →
        exec (.setDirection axis dir) s = .next ((s.toggled.updAxis a fun x =>
          { x with dir := dir.getLsbD 0 }).respond true []))

/-- GET_DIRECTION (R156) under the default codes: wire form, result, 0 after reset. -/
def Obligations.GetDirectionEffect : Prop :=
  ∀ (s : State) (axis : Byte), s.turns = [] → s.cfg.wire = WireCodes.default →
    (Instr.getDirection axis).onWire 0x0C [axis] 6 ∧
    (axis ≠ 1 ∧ axis ≠ 2 → exec (.getDirection axis) s = .next (s.toggled.respond false []))
    ∧ ∀ a : AxisId, axis = a.number →
      exec (.getDirection axis) s = .next (s.toggled.respond true
        [if (s.axis a).dir then 0x01 else 0x00])
      ∧ exec (.getDirection axis) State.reset = .next (State.reset.toggled.respond true [0x00])

/-- SET_CURRENT (R157), for every `CURRENT_MAX`: wire form, effect, failures, round trip. -/
def Obligations.SetCurrentEffect : Prop :=
  ∀ (s : State) (axis : Byte) (value : Half), s.turns = [] →
    (Instr.setCurrent axis value).onWire 0x0D [axis, value.extractLsb' 0 8, value.extractLsb' 8 8] 5 ∧
    (axis ≠ 1 ∧ axis ≠ 2 → exec (.setCurrent axis value) s = .next (s.toggled.respond false []))
    ∧ ∀ a : AxisId, axis = a.number →
      ((s.axis a).running = true ∨ s.cfg.currentMax < value →
        exec (.setCurrent axis value) s = .next (s.toggled.respond false []))
      ∧ ((s.axis a).running = false → value ≤ s.cfg.currentMax →
        let t := (s.toggled.updAxis a fun x => { x with idac := value }).respond true []
        exec (.setCurrent axis value) s = .next t
          ∧ exec (.getCurrent axis) t = .next (t.toggled.respond true
            [value.extractLsb' 0 8, value.extractLsb' 8 8]))

/-- GET_CURRENT (R158): one operand byte, the value least significant byte first, 0 after reset. -/
def Obligations.GetCurrentEffect : Prop :=
  ∀ (s : State) (axis : Byte), s.turns = [] →
    (Instr.getCurrent axis).onWire 0x0E [axis] 7 ∧
    (axis ≠ 1 ∧ axis ≠ 2 → exec (.getCurrent axis) s = .next (s.toggled.respond false []))
    ∧ ∀ a : AxisId, axis = a.number →
      exec (.getCurrent axis) s = .next (s.toggled.respond true
        [(s.axis a).idac.extractLsb' 0 8, (s.axis a).idac.extractLsb' 8 8])
      ∧ exec (.getCurrent axis) State.reset
        = .next (State.reset.toggled.respond true [0x00, 0x00])

/-- SET_STEP_DELAY (42_config_commands.md R159): only the sentinel is out of range; that 0 is accepted is
the spec's decision D19. -/
def Obligations.SetStepDelayEffect : Prop :=
  ∀ (s : State) (axis : Byte) (ticks : Half), s.turns = [] →
    (Instr.setStepDelay axis ticks).onWire 0x0F [axis, ticks.extractLsb' 0 8, ticks.extractLsb' 8 8] 5 ∧
    (axis ≠ 1 ∧ axis ≠ 2 → exec (.setStepDelay axis ticks) s = .next (s.toggled.respond false []))
    ∧ ∀ a : AxisId, axis = a.number →
      ((s.axis a).running = true ∨ ticks = 0xFFFF →
        exec (.setStepDelay axis ticks) s = .next (s.toggled.respond false []))
      ∧ ((s.axis a).running = false → ticks ≠ 0xFFFF →
        exec (.setStepDelay axis ticks) s = .next ((s.toggled.updAxis a fun x =>
          { x with delayTicks := ticks }).respond true []))

/-- GET_STEP_DELAY (R160): the configured delay, least significant byte first, `DEFAULT_DELAY` after
reset. -/
def Obligations.GetStepDelayEffect : Prop :=
  ∀ (s : State) (axis : Byte), s.turns = [] →
    (Instr.getStepDelay axis).onWire 0x10 [axis] 7 ∧
    (axis ≠ 1 ∧ axis ≠ 2 → exec (.getStepDelay axis) s = .next (s.toggled.respond false []))
    ∧ ∀ a : AxisId, axis = a.number →
      exec (.getStepDelay axis) s = .next (s.toggled.respond true
        [(s.axis a).delayTicks.extractLsb' 0 8, (s.axis a).delayTicks.extractLsb' 8 8])
      ∧ ∀ c : Config, exec (.getStepDelay axis) (State.initial c)
        = .next ((State.initial c).toggled.respond true
          [c.defaultDelay.extractLsb' 0 8, c.defaultDelay.extractLsb' 8 8])

/-- Round trip (42_config_commands.md section 7): each setter on an idle axis, with a value it accepts,
makes its getter on the same axis answer that value. -/
def Obligations.SetThenGetReturnsTheValue : Prop :=
  ∀ (s : State) (a : AxisId) (en mode dir : Byte) (value ticks : Half), s.turns = [] →
    s.cfg.wire = WireCodes.default → (s.axis a).running = false →
    en ≤ 1 → mode ≤ 3 → dir ≤ 1 → value ≤ s.cfg.currentMax → ticks ≠ 0xFFFF →
    let returns (set get : Instr) (outs : List Byte) : Prop :=
      ∃ t, exec set s = .next t ∧ exec get t = .next (t.toggled.respond true outs)
        ∧ ∀ b, b ≠ a → t.axis b = s.axis b
    returns (.setEnable a.number en) (.getEnable a.number) [en]
      ∧ returns (.setMicrosteps a.number mode) (.getMicrosteps a.number) [mode]
      ∧ returns (.setDirection a.number dir) (.getDirection a.number) [dir]
      ∧ returns (.setCurrent a.number value) (.getCurrent a.number) (bytes16 value)
      ∧ returns (.setStepDelay a.number ticks) (.getStepDelay a.number) (bytes16 ticks)

/-! ### The system commands, with no turn inside them -/

/-- GET_RELAY_STATUS (43_system_commands.md R181); operand and result are the spec's decision D20. -/
def Obligations.GetRelayStatusEffect : Prop :=
  ∀ (s : State) (pair : Byte), s.turns = [] →
    (Instr.getRelayStatus pair).onWire 0x11 [pair] 6 ∧
    (pair ≠ 1 ∧ pair ≠ 2 → exec (.getRelayStatus pair) s = .next (s.toggled.respond false []))
    ∧ ∀ p : AxisId, pair = p.number →
      exec (.getRelayStatus pair) s = .next (s.toggled.respond true
        [if (s.contacts p).aOpen && (s.contacts p).bOpen then 0x00 else 0x01])

/-- GET_VERSION (43_system_commands.md R182): it reads no state, takes no turn and cannot fail, under any
schedule; its result is the spec's decision D21. -/
def Obligations.GetVersionEffect : Prop :=
  Instr.getVersion.onWire 0x12 [] 7 ∧
  ∀ s : State, exec .getVersion s = .next (s.toggled.respond true
    [s.cfg.versionMajor, s.cfg.versionMinor])

/-! ### Commands interleaved with ticks and host actions -/

/-- The ownership discipline (20_memory.md section 4): no tick and no host action inside a setter can
disturb it on an idle axis; it succeeds with exactly its effect on that axis, and the other axis is what
ticks alone make of it. A setter on a running axis fails and changes no register, whatever the host does
inside it, as long as no tick stops the axis meanwhile (60_exceptions.md section 1). -/
def Obligations.SettersObeyTheOwnershipDiscipline : Prop :=
  (∀ (s : State) (a : AxisId) (i : Instr) (f : Axis → Axis), s.noReset →
    (s.axis a).running = false →
    ((∃ count, i = .setSteps a.number count ∧ f = fun x =>
        { x with remainingSteps := count, safeMode := false, seekUntilRelay := false })
      ∨ (∃ count, i = .setSafeSteps a.number count ∧ f = fun x =>
        { x with remainingSteps := count, safeMode := true, seekUntilRelay := false })
      ∨ (i = .setSeek a.number ∧ f = fun x => { x with safeMode := true, seekUntilRelay := true })
      ∨ (∃ en line, i = .setEnable a.number en ∧ enableLineOf s.cfg.wire en = some line
          ∧ f = fun x => { x with nEN := line })
      ∨ (∃ mode lines, i = .setMicrosteps a.number mode ∧ microOf s.cfg.wire mode = some lines
          ∧ f = fun x => { x with ms := lines })
      ∨ (∃ dir level, i = .setDirection a.number dir ∧ dirOf s.cfg.wire dir = some level
          ∧ f = fun x => { x with dir := level })
      ∨ (∃ value, i = .setCurrent a.number value ∧ value ≤ s.cfg.currentMax
          ∧ f = fun x => { x with idac := value })
      ∨ (∃ ticks, i = .setStepDelay a.number ticks ∧ ticks ≠ 0xFFFF
          ∧ f = fun x => { x with delayTicks := ticks })) →
    ∃ t, exec i s = .next t ∧ t.axis a = f (s.axis a)
      ∧ (∀ b, b ≠ a → (s.axis b).sameSettings (t.axis b) ∧ (s.axis b).tickedTo (t.axis b)
        ∧ (Turn.tick ∉ s.turns → t.axis b = s.axis b))
      ∧ t.anyAxisRunning = s.anyAxisRunning ∧ t.indicator = !s.indicator
      ∧ t.resp = assemble s.cfg s.resp (s.cfg.respLen s.opc) s.opc true [])
  ∧ ∀ (s : State) (a : AxisId) (i : Instr), s.noReset → Turn.tick ∉ s.turns →
    (s.axis a).running = true →
    ((∃ count, i = .setSteps a.number count) ∨ (∃ count, i = .setSafeSteps a.number count)
      ∨ i = .setSeek a.number ∨ (∃ en, i = .setEnable a.number en)
      ∨ (∃ mode, i = .setMicrosteps a.number mode) ∨ (∃ dir, i = .setDirection a.number dir)
      ∨ (∃ value, i = .setCurrent a.number value)
      ∨ (∃ ticks, i = .setStepDelay a.number ticks)) →
    ∃ t, exec i s = .next t ∧ (∀ b, t.axis b = s.axis b)
      ∧ t.anyAxisRunning = s.anyAxisRunning ∧ t.indicator = !s.indicator
      ∧ t.resp = assemble s.cfg s.resp (s.cfg.respLen s.opc) s.opc false []

/-- Every command is carried out and answered under weak fairness (00_scope.md R12; 20_memory.md R79;
44_framer_dispatch.md R204): take a weakly fair schedule without a `RESET`, and a transport that accepts
throughout. A command that stands in `Dispatch` is begun after some `j` turns, in a state `v`; after `m`
steps the machine is in the state `u` that `exec` of the command answers from `v` with the turns in between
falling `inside` it; and after `n` steps the response that stands in `u`, one frame of the opcode's length
with the echoed opcode, has been sent, the indicator toggled once and the framer back in `AwaitStart`. -/
def Obligations.CommandsAreAnsweredUnderFairness : Prop :=
  ∀ (σ : Schedule) (s : State) (i : Instr), s.inv = true → WeaklyFair σ s → s.fstate = .dispatch →
    s.fetched = some i → s.phase = .operate → s.txReady = true →
    (∀ n, σ n ≠ .reset) → (∀ n, σ n ≠ .txAccept false) →
    ∃ (j m n : Nat) (v u t : State) (ok : Bool) (outs : List Byte),
      let inside := (List.range (m - (j + 1))).map fun k => σ (j + 1 + k)
      j < m ∧ m < n
      ∧ (s.along σ j = .next v ∧ v.phase = .operate ∧ v.fetched = some i ∧ v.indicator = s.indicator)
      ∧ (exec i { v with turns := inside } = .next u ∧ s.along σ m = .next u
        ∧ u.aboutToSend (responseFrame s.cfg s.opc ok outs))
      ∧ (s.along σ n = .next t ∧ t.fstate = .awaitStart
        ∧ t.tx = s.tx ++ responseFrame s.cfg s.opc ok outs ∧ t.indicator = !s.indicator)
      ∧ (responseFrame s.cfg s.opc ok outs).length = s.cfg.respLen s.opc

/-- The five getters of settings answer the value the register held when the command began, whatever ticks
and host actions fall inside (20_memory.md section 4: the tick handler does not write what they read). -/
def Obligations.GettersOfSettingsAreUndisturbed : Prop :=
  ∀ (s : State) (a : AxisId) (i : Instr) (outs : List Byte), s.noReset →
    ((i = .getEnable a.number ∧ outs = [boolByte (!(s.axis a).nEN)])
      ∨ (i = .getMicrosteps a.number ∧ outs = [microCode s.cfg.wire (s.axis a).ms])
      ∨ (i = .getDirection a.number ∧ outs = [dirCode s.cfg.wire (s.axis a).dir])
      ∨ (i = .getCurrent a.number ∧ outs = bytes16 (s.axis a).idac)
      ∨ (i = .getStepDelay a.number ∧ outs = bytes16 (s.axis a).delayTicks)) →
    ∃ t, exec i s = .next t
      ∧ t.resp = assemble s.cfg s.resp (s.cfg.respLen s.opc) s.opc true outs
      ∧ t.anyAxisRunning = s.anyAxisRunning
      ∧ ∀ b, (s.axis b).sameSettings (t.axis b)

/-- GET_MOVING against completion (95_test_vectors.md X5): under any schedule the answer is that of one
instant, the one at which the response is assembled; an axis that was idle is reported idle, and without
a tick a running axis is reported running. -/
def Obligations.GetMovingReportsOneInstant : Prop :=
  ∀ (s : State) (a : AxisId), s.noReset →
    ∃ t, exec (.getMoving a.number) s = .next t
      ∧ t.resp = assemble s.cfg s.resp (s.cfg.respLen s.opc) s.opc true
          [boolByte (t.axis a).running]
      ∧ ((s.axis a).running = false → (t.axis a).running = false)
      ∧ (Turn.tick ∉ s.turns → (t.axis a).running = (s.axis a).running)

/-- Synchronized start (40_step_generator.md section 4; default axis bits): a START of both axes, neither
running, makes no edge under any schedule; it leaves both armed with equal countdowns, and the next tick
toggles both outputs unless a relay or an empty count stops an axis. -/
def Obligations.StartOfBothAxesIsSynchronized : Prop :=
  ∀ s : State, s.noReset → s.cfg.wire = WireCodes.default →
    s.axis1.running = false → s.axis2.running = false →
    ∃ t, exec (.start 0x03) s = .next t ∧ t.anyAxisRunning = true
      ∧ (∀ a, t.axis a = { s.axis a with delayCounter := 0, running := true })
      ∧ ∀ a, t.relayQuiet a →
        ((s.axis a).seekUntilRelay = true ∨ (s.axis a).pulseHigh = true
          ∨ (s.axis a).remainingSteps ≠ 0) →
        (t.tick.axis a).step = !(s.axis a).step

/-- Synchronized stop (40_step_generator.md section 4; default axis bits): from the first write of a STOP of
both axes no tick changes either axis, whatever the schedule; a STOP of one axis lets the other evolve
exactly as the scheduled turns alone would have it. -/
def Obligations.StopIsSynchronized : Prop :=
  ∀ s : State, s.noReset → s.cfg.wire = WireCodes.default →
    (∀ ts, s.turns = .command :: ts →
      ∃ t, exec (.stop 0x03) s = .next t ∧ t.anyAxisRunning = false
        ∧ ∀ a, t.axis a = { s.axis a with running := false })
    ∧ ∀ a b : AxisId, a ≠ b →
      ∃ t, exec (.stop a.number) s = .next t
        ∧ t.axis b = ((s.runTurns s.turns).1).axis b ∧ (t.axis a).running = false
        ∧ t.anyAxisRunning = s.anyAxisRunning

/-- The frame of every command under every schedule without a `RESET`: the configuration, the opcode and
payload buffers, the framer's state and the bytes already sent are unchanged, received bytes are only
appended to, the indicator toggles once and a response stands ready. There is no memory. -/
def Obligations.CommandsKeepTheFramerAndTheStreams : Prop :=
  ∀ (i : Instr) (s t : State), s.noReset → exec i s = .next t →
    t.cfg = s.cfg ∧ t.fstate = s.fstate ∧ t.opc = s.opc ∧ t.pay = s.pay ∧ t.pidx = s.pidx
      ∧ t.tx = s.tx ∧ (∃ bs, t.rx = s.rx ++ bs) ∧ t.indicator = !s.indicator
      ∧ t.phase = .transmit ∧ t.tidx = 0 ∧ t.rlen = s.cfg.respLen s.opc ∧ t.turns <:+ s.turns

/-- The frame of the queries (GET_MOVING, the five getters, GET_RELAY_STATUS, GET_VERSION) under every
schedule without a `RESET`: they write no register; each axis is what ticks alone make of it, so an idle
axis and the settings of a running one are as before. -/
def Obligations.QueriesWriteNoRegister : Prop :=
  ∀ (i : Instr) (s t : State), s.noReset → exec i s = .next t →
    ((∃ x, i = .getMoving x) ∨ (∃ x, i = .getEnable x) ∨ (∃ x, i = .getMicrosteps x)
      ∨ (∃ x, i = .getDirection x) ∨ (∃ x, i = .getCurrent x) ∨ (∃ x, i = .getStepDelay x)
      ∨ (∃ x, i = .getRelayStatus x) ∨ i = .getVersion) →
    t.anyAxisRunning = s.anyAxisRunning
      ∧ ∀ a, (s.axis a).tickedTo (t.axis a)
        ∧ (s.axis a).sameSettings (t.axis a)
        ∧ ((s.axis a).running = false → t.axis a = s.axis a)
        ∧ (Turn.tick ∉ s.turns → t.axis a = s.axis a)

/-- A validation failure is free of side effects (R222): whatever the command, the valid configuration and
the schedule without a `RESET`, when the response carries `STATUS_FAIL` the run flag is as before, each axis
is what the ticks that fell inside make of it and nothing else, so that its settings stay, an idle axis is
unchanged and without a tick both are, and the indicator has toggled. -/
def Obligations.FailedCommandsWriteNothing : Prop :=
  ∀ (i : Instr) (s t : State), s.cfg.valid = true → s.cfg.statusSuccess ≠ s.cfg.statusFail →
    (s.cfg.lookup s.opc).isSome = true →
    s.noReset → exec i s = .next t → t.resp[2] = s.cfg.statusFail →
    t.anyAxisRunning = s.anyAxisRunning ∧ t.indicator = !s.indicator ∧ t.cfg = s.cfg
      ∧ t.fstate = s.fstate ∧ t.opc = s.opc ∧ t.pay = s.pay ∧ t.pidx = s.pidx ∧ t.tx = s.tx
      ∧ ∀ a, (s.axis a).tickedTo (t.axis a)
        ∧ (s.axis a).sameSettings (t.axis a)
        ∧ ((s.axis a).running = false → t.axis a = s.axis a)
        ∧ (Turn.tick ∉ s.turns → t.axis a = s.axis a)

/-- The frame of START and STOP under every schedule without a `RESET`: they write no setting and no count,
and an axis they do not request is what ticks alone make of it, unchanged when no tick is scheduled and
unchanged when it is idle. -/
def Obligations.StartAndStopKeepTheSettings : Prop :=
  ∀ (i : Instr) (bf : Byte) (s t : State), s.noReset → exec i s = .next t →
    (i = .start bf ∨ i = .stop bf) →
    ∀ a, (s.axis a).sameSettings (t.axis a)
      ∧ (Turn.tick ∉ s.turns →
        (t.axis a).remainingSteps = (s.axis a).remainingSteps
          ∧ (t.axis a).pulseHigh = (s.axis a).pulseHigh ∧ (t.axis a).step = (s.axis a).step)
      ∧ (requests s.cfg.wire bf a = false →
        (s.axis a).tickedTo (t.axis a)
          ∧ (Turn.tick ∉ s.turns → t.axis a = s.axis a)
          ∧ ((s.axis a).running = false → t.axis a = s.axis a))
end

