-- ==== Sys2Proof/Laws/State.lean ====
section
/-! SUPPORT. The small lemmas of the state: one per field per update, true by `rfl` or by the two cases of
an axis number. -/

namespace Sys2Proof.Machine

variable (s : State) (a b : AxisId) (f : Axis → Axis)

/-! ### `updAxis` -/

@[simp] theorem State.updAxis_cfg : (s.updAxis a f).cfg = s.cfg := rfl
@[simp] theorem State.updAxis_anyAxisRunning :
    (s.updAxis a f).anyAxisRunning = s.anyAxisRunning := rfl
@[simp] theorem State.updAxis_indicator : (s.updAxis a f).indicator = s.indicator := rfl
@[simp] theorem State.updAxis_fstate : (s.updAxis a f).fstate = s.fstate := rfl
@[simp] theorem State.updAxis_opc : (s.updAxis a f).opc = s.opc := rfl
@[simp] theorem State.updAxis_pay : (s.updAxis a f).pay = s.pay := rfl
@[simp] theorem State.updAxis_pidx : (s.updAxis a f).pidx = s.pidx := rfl
@[simp] theorem State.updAxis_phase : (s.updAxis a f).phase = s.phase := rfl
@[simp] theorem State.updAxis_seen : (s.updAxis a f).seen = s.seen := rfl
@[simp] theorem State.updAxis_resp : (s.updAxis a f).resp = s.resp := rfl
@[simp] theorem State.updAxis_rlen : (s.updAxis a f).rlen = s.rlen := rfl
@[simp] theorem State.updAxis_tidx : (s.updAxis a f).tidx = s.tidx := rfl
@[simp] theorem State.updAxis_contacts1 : (s.updAxis a f).contacts1 = s.contacts1 := rfl
@[simp] theorem State.updAxis_contacts2 : (s.updAxis a f).contacts2 = s.contacts2 := rfl
@[simp] theorem State.updAxis_rx : (s.updAxis a f).rx = s.rx := rfl
@[simp] theorem State.updAxis_tx : (s.updAxis a f).tx = s.tx := rfl
@[simp] theorem State.updAxis_txReady : (s.updAxis a f).txReady = s.txReady := rfl
@[simp] theorem State.updAxis_turns : (s.updAxis a f).turns = s.turns := rfl

@[simp] theorem State.updAxis_axis_self : (s.updAxis a f).axis a = f (s.axis a) := by
  cases a <;> rfl

theorem State.updAxis_axis : (s.updAxis a f).axis b = if b = a then f (s.axis b) else s.axis b := by
  cases a <;> cases b <;> rfl

theorem State.updAxis_axis_ne (h : b ≠ a) : (s.updAxis a f).axis b = s.axis b := by
  rw [State.updAxis_axis, if_neg h]

@[simp] theorem State.updAxis_relayTriggered :
    (s.updAxis a f).relayTriggered b = s.relayTriggered b := rfl

@[simp] theorem State.axis_one : s.axis .one = s.axis1 := rfl
@[simp] theorem State.axis_two : s.axis .two = s.axis2 := rfl

/-! ### `respond` -/

variable (ok : Bool) (outs : List Byte)

@[simp] theorem State.respond_cfg : (s.respond ok outs).cfg = s.cfg := rfl
@[simp] theorem State.respond_axis1 : (s.respond ok outs).axis1 = s.axis1 := rfl
@[simp] theorem State.respond_axis2 : (s.respond ok outs).axis2 = s.axis2 := rfl
@[simp] theorem State.respond_anyAxisRunning : (s.respond ok outs).anyAxisRunning = s.anyAxisRunning := rfl
@[simp] theorem State.respond_indicator : (s.respond ok outs).indicator = s.indicator := rfl
@[simp] theorem State.respond_fstate : (s.respond ok outs).fstate = s.fstate := rfl
@[simp] theorem State.respond_opc : (s.respond ok outs).opc = s.opc := rfl
@[simp] theorem State.respond_pay : (s.respond ok outs).pay = s.pay := rfl
@[simp] theorem State.respond_pidx : (s.respond ok outs).pidx = s.pidx := rfl
@[simp] theorem State.respond_contacts1 : (s.respond ok outs).contacts1 = s.contacts1 := rfl
@[simp] theorem State.respond_contacts2 : (s.respond ok outs).contacts2 = s.contacts2 := rfl
@[simp] theorem State.respond_rx : (s.respond ok outs).rx = s.rx := rfl
@[simp] theorem State.respond_tx : (s.respond ok outs).tx = s.tx := rfl
@[simp] theorem State.respond_txReady : (s.respond ok outs).txReady = s.txReady := rfl
@[simp] theorem State.respond_turns : (s.respond ok outs).turns = s.turns := rfl
@[simp] theorem State.respond_phase : (s.respond ok outs).phase = .transmit := rfl
@[simp] theorem State.respond_seen : (s.respond ok outs).seen = [] := rfl
@[simp] theorem State.respond_rlen : (s.respond ok outs).rlen = s.cfg.respLen s.opc := rfl
@[simp] theorem State.respond_tidx : (s.respond ok outs).tidx = 0 := rfl
@[simp] theorem State.respond_resp : (s.respond ok outs).resp =
    assemble s.cfg s.resp (s.cfg.respLen s.opc) s.opc ok outs := rfl
@[simp] theorem State.respond_axis : (s.respond ok outs).axis a = s.axis a := rfl

/-! ### `setContacts`, the named register writes and `powerUp` -/

variable (c : Contacts) (p : Bool) (w : Word) (h : Half) (m : BitVec 2)

@[simp] theorem State.setContacts_axis : (s.setContacts b c).axis a = s.axis a := rfl

theorem State.setContacts_contacts :
    (s.setContacts b c).contacts a = if a = b then c else s.contacts a := by
  cases a <;> cases b <;> rfl

@[simp] theorem State.setRunning_eq :
    s.setRunning a p = s.updAxis a fun x => { x with running := p } := rfl
@[simp] theorem State.setSafeMode_eq :
    s.setSafeMode a p = s.updAxis a fun x => { x with safeMode := p } := rfl
@[simp] theorem State.setSeekUntilRelay_eq :
    s.setSeekUntilRelay a p = s.updAxis a fun x => { x with seekUntilRelay := p } := rfl
@[simp] theorem State.setAnyAxisRunning_eq :
    s.setAnyAxisRunning p = { s with anyAxisRunning := p } := rfl
@[simp] theorem State.setRemainingSteps_eq :
    s.setRemainingSteps a w = s.updAxis a fun x => { x with remainingSteps := w } := rfl
@[simp] theorem State.setDelayTicks_eq :
    s.setDelayTicks a h = s.updAxis a fun x => { x with delayTicks := h } := rfl
@[simp] theorem State.setDelayCounter_eq :
    s.setDelayCounter a h = s.updAxis a fun x => { x with delayCounter := h } := rfl
@[simp] theorem State.setNEN_eq : s.setNEN a p = s.updAxis a fun x => { x with nEN := p } := rfl
@[simp] theorem State.setDir_eq : s.setDir a p = s.updAxis a fun x => { x with dir := p } := rfl
@[simp] theorem State.setMs_eq : s.setMs a m = s.updAxis a fun x => { x with ms := m } := rfl
@[simp] theorem State.setIdac_eq : s.setIdac a h = s.updAxis a fun x => { x with idac := h } := rfl

/-! ### Single accesses -/

@[simp] theorem bitValue_ne_zero : (bitValue p != 0) = p := by cases p <;> rfl
@[simp] theorem bitValue_eq_zero : bitValue p = 0#16 ↔ p = false := by cases p <;> decide
@[simp] theorem State.get_running : s.get (.running a) = bitValue (s.axis a).running := rfl
@[simp] theorem State.get_nEN : s.get (.nEN a) = bitValue (s.axis a).nEN := rfl
@[simp] theorem State.get_dir : s.get (.dir a) = bitValue (s.axis a).dir := rfl
@[simp] theorem State.get_ms : s.get (.ms a) = (s.axis a).ms.setWidth 16 := rfl
@[simp] theorem State.get_idac : s.get (.idac a) = (s.axis a).idac := rfl
@[simp] theorem State.get_delayTicks : s.get (.delayTicks a) = (s.axis a).delayTicks := rfl
@[simp] theorem State.get_relay : s.get (.relay a) = bitValue (s.relayTriggered a) := rfl

@[simp] theorem State.put_running :
    s.put (.running a p) = s.updAxis a fun x => { x with running := p } := rfl
@[simp] theorem State.put_remainingSteps :
    s.put (.remainingSteps a w) = s.updAxis a fun x => { x with remainingSteps := w } := rfl
@[simp] theorem State.put_delayTicks :
    s.put (.delayTicks a h) = s.updAxis a fun x => { x with delayTicks := h } := rfl
@[simp] theorem State.put_delayCounter :
    s.put (.delayCounter a h) = s.updAxis a fun x => { x with delayCounter := h } := rfl
@[simp] theorem State.put_seekUntilRelay :
    s.put (.seekUntilRelay a p) = s.updAxis a fun x => { x with seekUntilRelay := p } := rfl
@[simp] theorem State.put_safeMode :
    s.put (.safeMode a p) = s.updAxis a fun x => { x with safeMode := p } := rfl
@[simp] theorem State.put_nEN : s.put (.nEN a p) = s.updAxis a fun x => { x with nEN := p } := rfl
@[simp] theorem State.put_dir : s.put (.dir a p) = s.updAxis a fun x => { x with dir := p } := rfl
@[simp] theorem State.put_ms : s.put (.ms a m) = s.updAxis a fun x => { x with ms := m } := rfl
@[simp] theorem State.put_idac : s.put (.idac a h) = s.updAxis a fun x => { x with idac := h } := rfl
@[simp] theorem State.put_anyAxisRunning :
    s.put (.anyAxisRunning p) = { s with anyAxisRunning := p } := rfl

/-- A write changes an axis or the run flag and nothing else. -/
theorem State.put_cases (u : Write) :
    (∃ a f, s.put u = s.updAxis a f) ∨ ∃ v, s.put u = { s with anyAxisRunning := v } := by
  cases u <;> simp only [State.put_running, State.put_remainingSteps, State.put_delayTicks,
    State.put_delayCounter, State.put_seekUntilRelay, State.put_safeMode, State.put_nEN, State.put_dir,
    State.put_ms, State.put_idac, State.put_anyAxisRunning]
  case anyAxisRunning v => exact .inr ⟨v, rfl⟩
  all_goals exact .inl ⟨_, _, rfl⟩

@[simp] theorem State.powerUp_cfg : s.powerUp.cfg = s.cfg := rfl
@[simp] theorem State.powerUp_axis : s.powerUp.axis a = Axis.initial s.cfg := by cases a <;> rfl

end Sys2Proof.Machine
end

