-- ==== Sys2Proof/Laws/Tick.lean ====
section
/-! SUPPORT. What one run of the tick handler can do: to one axis, case by case, and to the machine. -/

namespace Sys2Proof.Machine

/-! ### One axis -/

variable (x : Axis) (t : Bool)

/-- An axis that is not running is skipped (R114). -/
@[simp] theorem Axis.tick_idle (h : x.running = false) : x.tick t = x := by
  simp [Axis.tick, Axis.relayTrip, Axis.complete, Axis.pulse, h]

/-- R112: a triggered relay stops an axis in safe or seek mode and nothing else happens to it. -/
theorem Axis.tick_trip (hr : x.running = true) (hm : (x.safeMode || x.seekUntilRelay) = true) :
    x.tick true = { x with running := false } := by
  simp [Axis.tick, Axis.relayTrip, Axis.complete, Axis.pulse, hr, hm]

/-- The relay does not stop the axis in this tick. -/
abbrev Axis.untripped (x : Axis) (t : Bool) : Prop :=
  ((x.safeMode || x.seekUntilRelay) && t) = false

theorem Axis.tick_untripped (h : x.untripped t) : x.tick t = x.complete.pulse := by
  have : (x.running && (x.safeMode || x.seekUntilRelay) && t) = false := by
    rw [Bool.and_assoc, h, Bool.and_false]
  simp [Axis.tick, Axis.relayTrip, this]

/-- R113: natural completion. -/
theorem Axis.tick_complete (h : x.untripped t) (hr : x.running = true)
    (hs : x.seekUntilRelay = false) (hp : x.pulseHigh = false) (h0 : x.remainingSteps = 0) :
    x.tick t = { x with running := false } := by
  rw [Axis.tick_untripped x t h]
  simp [Axis.complete, Axis.pulse, hr, hs, hp, h0]

/-- The axis goes on after step 3 (R113). -/
abbrev Axis.unfinished (x : Axis) : Prop :=
  x.seekUntilRelay = true ∨ x.pulseHigh = true ∨ x.remainingSteps ≠ 0

theorem Axis.complete_unfinished (h : x.unfinished) : x.complete = x := by
  unfold Axis.complete
  rcases h with h | h | h <;> simp_all

/-- R115: a toggle when the countdown is 0. -/
theorem Axis.tick_toggle (h : x.untripped t) (hr : x.running = true) (hu : x.unfinished)
    (h0 : x.delayCounter = 0) : x.tick t = x.toggle := by
  rw [Axis.tick_untripped x t h, Axis.complete_unfinished x hu]
  simp [Axis.pulse, hr, h0]

/-- R115: otherwise the countdown. -/
theorem Axis.tick_countdown (h : x.untripped t) (hr : x.running = true) (hu : x.unfinished)
    (h0 : x.delayCounter ≠ 0) :
    x.tick t = { x with delayCounter := x.delayCounter - 1 } := by
  rw [Axis.tick_untripped x t h, Axis.complete_unfinished x hu, Axis.pulse, if_pos hr, if_neg]
  simpa using h0

/-- Everything a tick can do to an axis: nothing, stop it, toggle it, or count down. -/
theorem Axis.tick_cases :
    (x.running = false ∧ x.tick t = x)
    ∨ (x.running = true ∧ x.tick t = { x with running := false })
    ∨ (x.running = true ∧ x.unfinished ∧ x.delayCounter = 0 ∧ x.tick t = x.toggle)
    ∨ (x.running = true ∧ x.unfinished ∧ x.delayCounter ≠ 0
        ∧ x.tick t = { x with delayCounter := x.delayCounter - 1 }) := by
  by_cases hr : x.running = true
  case neg => exact .inl ⟨by simpa using hr, Axis.tick_idle x t (by simpa using hr)⟩
  case pos =>
    right
    cases hu : ((x.safeMode || x.seekUntilRelay) && t) with
    | true =>
      rw [Bool.and_eq_true] at hu
      obtain ⟨hm, rfl⟩ := hu
      exact .inl ⟨hr, Axis.tick_trip x hr hm⟩
    | false =>
      by_cases hf : x.unfinished
      · right
        by_cases h0 : x.delayCounter = 0
        · exact .inl ⟨hr, hf, h0, Axis.tick_toggle x t hu hr hf h0⟩
        · exact .inr ⟨hr, hf, h0, Axis.tick_countdown x t hu hr hf h0⟩
      · simp only [Axis.unfinished, not_or, Bool.not_eq_true, ne_eq, not_not] at hf
        exact .inl ⟨hr, Axis.tick_complete x t hu hr hf.1 hf.2.1 hf.2.2⟩

/-- The tick handler never writes an axis's settings (R110). -/
theorem Axis.tick_sameSettings : x.sameSettings (x.tick t) := by
  rcases Axis.tick_cases x t with ⟨_, h⟩ | ⟨_, h⟩ | ⟨_, _, _, h⟩ | ⟨_, _, _, h⟩ <;>
    rw [h] <;> simp [Axis.sameSettings, Axis.toggle]

/-- The tick handler only ever clears `running` (R110). -/
theorem Axis.tick_running (h : (x.tick t).running = true) : x.running = true := by
  by_contra hr
  rw [Bool.not_eq_true] at hr
  rw [Axis.tick_idle x t hr, hr] at h
  cases h

/-- A tick keeps the ranges of R50. -/
theorem Axis.tick_inRange (c : Config) (h : x.inRange c = true) : (x.tick t).inRange c = true := by
  simp only [Axis.inRange, Bool.and_eq_true, Bool.or_eq_true, Bool.not_eq_true', bne_iff_ne, ne_eq,
    decide_eq_true_eq, beq_iff_eq] at h ⊢
  obtain ⟨⟨⟨h1, h2⟩, h3⟩, h5⟩ := h
  rcases Axis.tick_cases x t with ⟨_, e⟩ | ⟨_, e⟩ | ⟨_, _, _, e⟩ | ⟨hr, _, h0, e⟩ <;> rw [e]
  · exact ⟨⟨⟨h1, h2⟩, h3⟩, h5⟩
  · exact ⟨⟨⟨h1, h2⟩, h3⟩, .inl rfl⟩
  · exact ⟨⟨⟨h1, h2⟩, by simp [Axis.toggle, h3]⟩, .inr (by simp [Axis.toggle])⟩
  · refine ⟨⟨⟨h1, h2⟩, h3⟩, .inr ?_⟩
    have h5 := h5.resolve_left (by simp [hr])
    change x.delayCounter - 1 ≤ x.delayTicks
    bv_omega

/-- A tick keeps seek mode safe. -/
@[simp] theorem Axis.tick_seekIsSafe : (x.tick t).seekIsSafe = x.seekIsSafe := by
  obtain ⟨-, h1, h2, -⟩ := Axis.tick_sameSettings x t
  rw [Axis.seekIsSafe, Axis.seekIsSafe, ← h1, ← h2]

/-- A tick keeps the invariants of R50. -/
theorem Axis.tick_ok (c : Config) (h : x.ok c = true) : (x.tick t).ok c = true := by
  rw [Axis.ok, Bool.and_eq_true] at h ⊢
  exact ⟨Axis.tick_inRange x t c h.1, by rw [Axis.tick_seekIsSafe]; exact h.2⟩

/-! ### Several ticks of one axis -/

/-- `y` is what some ticks make of `x`; under `n` ("no tick is scheduled") there are none. -/
def Axis.Ticked (n : Prop) (x y : Axis) : Prop := ∃ l : List Bool, (n → l = []) ∧ y = l.foldl Axis.tick x

namespace Axis.Ticked

variable {n m : Prop} {x y z : Axis}

theorem refl (n : Prop) (x : Axis) : Axis.Ticked n x x := ⟨[], fun _ => rfl, rfl⟩

theorem trans (h : Axis.Ticked n x y) (k : Axis.Ticked n y z) : Axis.Ticked n x z := by
  obtain ⟨l, hl, rfl⟩ := h
  obtain ⟨l', hl', rfl⟩ := k
  exact ⟨l ++ l', fun hn => by rw [hl hn, hl' hn]; rfl, by rw [List.foldl_append]⟩

theorem mono (h : Axis.Ticked n x y) (hm : m → n) : Axis.Ticked m x y := by
  obtain ⟨l, hl, e⟩ := h
  exact ⟨l, fun k => hl (hm k), e⟩

theorem still (h : Axis.Ticked n x y) (hn : n) : y = x := by
  obtain ⟨l, hl, rfl⟩ := h
  rw [hl hn]
  rfl

/-- A property that a tick keeps. -/
theorem induct {P : Axis → Prop} (hP : ∀ x t, P x → P (x.tick t)) (h : Axis.Ticked n x y) (hx : P x) :
    P y := by
  obtain ⟨l, -, rfl⟩ := h
  induction l generalizing x with
  | nil => exact hx
  | cons t l ih => exact ih (hP x t hx)

theorem idle (h : Axis.Ticked n x y) (hx : x.running = false) : y = x :=
  h.induct (P := fun y => y = x) (by rintro _ t rfl; exact Axis.tick_idle _ t hx) rfl

theorem sameSettings (h : Axis.Ticked n x y) : x.sameSettings y :=
  h.induct (P := fun y => x.sameSettings y)
    (fun y t ⟨h1, h2, h3, h4, h5, h6, h7⟩ => by
      obtain ⟨k1, k2, k3, k4, k5, k6, k7⟩ := Axis.tick_sameSettings y t
      exact ⟨h1.trans k1, h2.trans k2, h3.trans k3, h4.trans k4, h5.trans k5, h6.trans k6,
        h7.trans k7⟩)
    ⟨rfl, rfl, rfl, rfl, rfl, rfl, rfl⟩

theorem running (h : Axis.Ticked n x y) (hy : y.running = true) : x.running = true := by
  by_contra hx
  rw [h.idle (by simpa using hx)] at hy
  exact hx hy

theorem ok {c : Config} (h : Axis.Ticked n x y) (hx : x.ok c = true) : y.ok c = true :=
  h.induct (P := fun y => y.ok c = true) (fun y t => Axis.tick_ok y t c) hx

end Axis.Ticked

/-! ### The machine -/

variable (s : State) (a b : AxisId)

@[simp] theorem State.tick_cfg : s.tick.cfg = s.cfg := by unfold State.tick; split <;> rfl
@[simp] theorem State.tick_anyAxisRunning : s.tick.anyAxisRunning = s.anyAxisRunning := by
  unfold State.tick; split <;> rfl
@[simp] theorem State.tick_indicator : s.tick.indicator = s.indicator := by
  unfold State.tick; split <;> rfl
@[simp] theorem State.tick_fstate : s.tick.fstate = s.fstate := by unfold State.tick; split <;> rfl
@[simp] theorem State.tick_opc : s.tick.opc = s.opc := by unfold State.tick; split <;> rfl
@[simp] theorem State.tick_pay : s.tick.pay = s.pay := by unfold State.tick; split <;> rfl
@[simp] theorem State.tick_pidx : s.tick.pidx = s.pidx := by unfold State.tick; split <;> rfl
@[simp] theorem State.tick_phase : s.tick.phase = s.phase := by unfold State.tick; split <;> rfl
@[simp] theorem State.tick_seen : s.tick.seen = s.seen := by unfold State.tick; split <;> rfl
@[simp] theorem State.tick_resp : s.tick.resp = s.resp := by unfold State.tick; split <;> rfl
@[simp] theorem State.tick_rlen : s.tick.rlen = s.rlen := by unfold State.tick; split <;> rfl
@[simp] theorem State.tick_tidx : s.tick.tidx = s.tidx := by unfold State.tick; split <;> rfl
@[simp] theorem State.tick_contacts1 : s.tick.contacts1 = s.contacts1 := by
  unfold State.tick; split <;> rfl
@[simp] theorem State.tick_contacts2 : s.tick.contacts2 = s.contacts2 := by
  unfold State.tick; split <;> rfl
@[simp] theorem State.tick_rx : s.tick.rx = s.rx := by unfold State.tick; split <;> rfl
@[simp] theorem State.tick_tx : s.tick.tx = s.tx := by unfold State.tick; split <;> rfl
@[simp] theorem State.tick_txReady : s.tick.txReady = s.txReady := by
  unfold State.tick; split <;> rfl
@[simp] theorem State.tick_turns : s.tick.turns = s.turns := by unfold State.tick; split <;> rfl

@[simp] theorem State.tick_relayTriggered : s.tick.relayTriggered a = s.relayTriggered a := by
  simp [State.relayTriggered, State.contacts]

/-- R111, R114: each axis takes its own tick when the flag is up, and nothing happens when it is down. -/
theorem State.tick_axis : s.tick.axis a =
    if s.anyAxisRunning then (s.axis a).tick (s.relayTriggered a) else s.axis a := by
  unfold State.tick
  split
  · cases a <;> simp [State.tickAxis, State.updAxis, State.axis, AxisId.pick, State.relayTriggered,
      State.contacts]
  · rfl

/-- An idle axis is not touched by a tick. -/
theorem State.tick_axis_idle (h : (s.axis a).running = false) : s.tick.axis a = s.axis a := by
  rw [State.tick_axis]
  split
  · exact Axis.tick_idle _ _ h
  · rfl

/-- Two states with the same axes and other fields are the same state. -/
theorem State.ext_axis {s t : State} (ha : ∀ a, s.axis a = t.axis a)
    (h : { s with axis1 := t.axis1, axis2 := t.axis2 } = t) : s = t := by
  have h1 : s.axis1 = t.axis1 := ha .one
  have h2 : s.axis2 = t.axis2 := ha .two
  rw [← h, ← h1, ← h2]

end Sys2Proof.Machine
end

