-- ==== Sys2Proof/Laws/Turns.lean ====
section
/-! SUPPORT. What can happen between two steps of the command agent, said once: the relation
`State.Resumed` for the turns of a gap, the cases of a gap, and an induction principle for every schedule. -/

namespace Sys2Proof.Machine

/-- Nothing of the command agent's own differs: configuration, framer, buffers, indicator and `TX`; bytes
only arrive on `RX`, turns only leave the schedule. -/
structure State.Framed (s t : State) : Prop where
  cfg : t.cfg = s.cfg
  indicator : t.indicator = s.indicator
  fstate : t.fstate = s.fstate
  opc : t.opc = s.opc
  pay : t.pay = s.pay
  pidx : t.pidx = s.pidx
  phase : t.phase = s.phase
  seen : t.seen = s.seen
  resp : t.resp = s.resp
  rlen : t.rlen = s.rlen
  tidx : t.tidx = s.tidx
  tx : t.tx = s.tx
  rx : ∃ bs, t.rx = s.rx ++ bs
  turns : t.turns <:+ s.turns

/-- How `t` may differ from `s` when only ticks and host actions other than `RESET` lie between: each axis
is what ticks make of it (R68, R110); under `n` there is no tick. -/
structure State.Interleaved (n : Prop) (s t : State) : Prop extends s.Framed t where
  flag : t.anyAxisRunning = s.anyAxisRunning
  axes : ∀ a, (s.axis a).Ticked n (t.axis a)
  exit : s.anyAxisRunning = false → ∀ a, t.axis a = s.axis a

/-- What the turns of a gap make of a state. -/
abbrev State.Resumed (s t : State) : Prop := s.Interleaved (Turn.tick ∉ s.turns) t

theorem State.Framed.refl (s : State) : s.Framed s where
  cfg := rfl
  indicator := rfl
  fstate := rfl
  opc := rfl
  pay := rfl
  pidx := rfl
  phase := rfl
  seen := rfl
  resp := rfl
  rlen := rfl
  tidx := rfl
  tx := rfl
  rx := ⟨[], by simp⟩
  turns := List.suffix_rfl

theorem State.Framed.trans {s t u : State} (h : s.Framed t) (k : t.Framed u) : s.Framed u where
  cfg := k.cfg.trans h.cfg
  indicator := k.indicator.trans h.indicator
  fstate := k.fstate.trans h.fstate
  opc := k.opc.trans h.opc
  pay := k.pay.trans h.pay
  pidx := k.pidx.trans h.pidx
  phase := k.phase.trans h.phase
  seen := k.seen.trans h.seen
  resp := k.resp.trans h.resp
  rlen := k.rlen.trans h.rlen
  tidx := k.tidx.trans h.tidx
  tx := k.tx.trans h.tx
  rx := by
    obtain ⟨b, hb⟩ := h.rx
    obtain ⟨b', hb'⟩ := k.rx
    exact ⟨b ++ b', by rw [hb', hb, List.append_assoc]⟩
  turns := k.turns.trans h.turns

theorem State.Framed.updAxis {s t : State} (h : s.Framed t) (a : AxisId) (f : Axis → Axis) :
    s.Framed (t.updAxis a f) := { h with }

theorem State.Framed.setAnyAxisRunning {s t : State} (h : s.Framed t) (v : Bool) :
    s.Framed { t with anyAxisRunning := v } := { h with }

/-- The schedule stays without a `RESET`. -/
theorem State.Framed.noReset {s t : State} (h : s.Framed t) (hs : s.noReset) : t.noReset :=
  fun hr => hs (h.turns.subset hr)

/-- The schedule stays without a tick. -/
theorem State.Framed.noTick {s t : State} (h : s.Framed t) (hs : Turn.tick ∉ s.turns) :
    Turn.tick ∉ t.turns := fun hr => hs (h.turns.subset hr)

theorem State.Interleaved.refl (n : Prop) (s : State) : s.Interleaved n s :=
  { State.Framed.refl s with
    flag := rfl
    axes := fun a => Axis.Ticked.refl n (s.axis a)
    exit := fun _ _ => rfl }

theorem State.Interleaved.trans {n : Prop} {s t u : State} (h : s.Interleaved n t)
    (k : t.Interleaved n u) : s.Interleaved n u :=
  { h.toFramed.trans k.toFramed with
    flag := k.flag.trans h.flag
    axes := fun a => (h.axes a).trans (k.axes a)
    exit := fun hf a => by rw [k.exit (by rw [h.flag, hf]) a, h.exit hf a] }

theorem State.Interleaved.mono {n m : Prop} {s t : State} (h : s.Interleaved n t) (hm : m → n) :
    s.Interleaved m t := { h with axes := fun a => (h.axes a).mono hm }

theorem State.Resumed.trans {s t u : State} (h : s.Resumed t) (k : t.Resumed u) : s.Resumed u :=
  State.Interleaved.trans h (State.Interleaved.mono k h.toFramed.noTick)

/-- One turn of the tick agent or the host, `RESET` apart. -/
theorem State.hostTurn_interleaved (s : State) {t : Turn} (h : t ≠ .reset) :
    s.Interleaved (t ≠ .tick) (s.hostTurn t) := by
  have refl := State.Interleaved.refl (t ≠ .tick) s
  cases t with
  | tick =>
    exact { refl with
      cfg := by simp [State.hostTurn]
      flag := by simp [State.hostTurn]
      indicator := by simp [State.hostTurn]
      fstate := by simp [State.hostTurn]
      opc := by simp [State.hostTurn]
      pay := by simp [State.hostTurn]
      pidx := by simp [State.hostTurn]
      phase := by simp [State.hostTurn]
      seen := by simp [State.hostTurn]
      resp := by simp [State.hostTurn]
      rlen := by simp [State.hostTurn]
      tidx := by simp [State.hostTurn]
      tx := by simp [State.hostTurn]
      rx := ⟨[], by simp [State.hostTurn]⟩
      turns := by simp [State.hostTurn]
      axes := fun a => by
        rw [State.hostTurn, State.tick_axis]
        split
        · exact ⟨[s.relayTriggered a], fun h => absurd rfl h, rfl⟩
        · exact refl.axes a
      exit := fun hf a => by rw [State.hostTurn, State.tick_axis, hf]; simp }
  | command => exact refl
  | operation => exact refl
  | rxByte b => exact { refl with rx := ⟨[b], rfl⟩ }
  | contacts p x y => exact { refl with }
  | txAccept r => exact { refl with }
  | reset => exact absurd rfl h

/-- Whatever holds of a state, is kept by every turn and by taking turns off the schedule, holds after a
gap's turns. -/
theorem State.runTurns_induct {P : State → Prop} (hturn : ∀ s t, P s → P (s.hostTurn t))
    (htake : ∀ s ts, P s → P { s with turns := ts }) (ts : List Turn) (s : State) (h : P s) :
    P (s.runTurns ts).1 := by
  induction ts generalizing s with
  | nil => exact htake _ _ h
  | cons t ts ih =>
    cases t with
    | command => exact htake _ _ h
    | operation => exact htake _ _ h
    | reset => exact htake _ _ (hturn s .reset h)
    | tick => exact ih _ (hturn s .tick h)
    | rxByte b => exact ih _ (hturn s (.rxByte b) h)
    | contacts p x y => exact ih _ (hturn s (.contacts p x y) h)
    | txAccept r => exact ih _ (hturn s (.txAccept r) h)

/-- The same through a gap: the property also has to survive what the command agent does next. -/
theorem gap_induct {P Q : State → Prop} (hturn : ∀ s t, P s → P (s.hostTurn t))
    (htake : ∀ s ts, P s → P { s with turns := ts }) (k : State → State) (s : State) (h : P s)
    (hk : ∀ t, P t → Q (k t)) (hreset : ∀ t, P t → Q t) : Q (gap k s) := by
  have := State.runTurns_induct hturn htake s.turns s h
  unfold gap
  split <;> rename_i e <;> rw [e] at this
  · exact hreset _ this
  · exact hk _ this

/-- The turns of a gap: a `RESET` among them restarts the machine and ends the command; otherwise the
command agent goes on. -/
theorem State.runTurns_cases (ts : List Turn) (s : State) (hts : ts <:+ s.turns) :
    (Turn.reset ∈ ts ∧ ∃ u : State, u.cfg = s.cfg ∧ s.runTurns ts = (u.powerUp, true))
    ∨ ((s.runTurns ts).2 = false ∧ s.Interleaved (Turn.tick ∉ ts) (s.runTurns ts).1) := by
  induction ts generalizing s with
  | nil => exact .inr ⟨rfl, { State.Interleaved.refl _ s with turns := List.nil_suffix }⟩
  | cons t ts ih =>
    have hts' : ts <:+ s.turns := (List.suffix_cons t ts).trans hts
    have go (hr : t ≠ .reset) (e : s.runTurns (t :: ts) = (s.hostTurn t).runTurns ts)
        (et : (s.hostTurn t).turns = s.turns) :
        (Turn.reset ∈ t :: ts ∧ ∃ u : State, u.cfg = s.cfg ∧ s.runTurns (t :: ts) = (u.powerUp, true))
        ∨ ((s.runTurns (t :: ts)).2 = false
          ∧ s.Interleaved (Turn.tick ∉ t :: ts) (s.runTurns (t :: ts)).1) := by
      have one := State.hostTurn_interleaved s hr
      rw [e]
      rcases ih (s.hostTurn t) (by rw [et]; exact hts') with ⟨h1, u, h2, h3⟩ | ⟨h1, h2⟩
      · exact .inl ⟨List.mem_cons_of_mem _ h1, u, h2.trans one.cfg, h3⟩
      · refine .inr ⟨h1, (one.mono fun hn e => ?_).trans (h2.mono fun hn e => ?_)⟩
        · exact hn (by rw [e]; exact List.mem_cons_self)
        · exact hn (List.mem_cons_of_mem _ e)
    cases t with
    | command => exact .inr ⟨rfl, { State.Interleaved.refl _ s with turns := hts' }⟩
    | operation => exact .inr ⟨rfl, { State.Interleaved.refl _ s with turns := hts' }⟩
    | reset => exact .inl ⟨List.mem_cons_self, { s with turns := ts }, rfl, rfl⟩
    | tick => exact go (by simp) rfl (by simp [State.hostTurn])
    | rxByte b => exact go (by simp) rfl rfl
    | contacts p x y => exact go (by simp) rfl rfl
    | txAccept r => exact go (by simp) rfl rfl

/-- A `RESET` on the schedule of `s` has restarted the machine, and ended what the command agent did. -/
def State.Restarted (s t : State) : Prop :=
  Turn.reset ∈ s.turns ∧ ∃ u : State, u.cfg = s.cfg ∧ t = u.powerUp

/-- Everything a gap can do. -/
theorem gap_cases (k : State → State) (s : State) :
    s.Restarted (gap k s) ∨ (s.Resumed (s.runTurns s.turns).1 ∧ gap k s = k (s.runTurns s.turns).1) := by
  unfold gap
  rcases State.runTurns_cases s.turns s List.suffix_rfl with ⟨h1, u, h2, h3⟩ | ⟨h1, h2⟩
  · exact .inl ⟨h1, u, h2, by rw [h3]⟩
  · refine .inr ⟨h2, ?_⟩
    split <;> rename_i e <;> rw [e] at h1
    · cases h1
    · rw [e]

/-- `t` is the end of what the command agent does from `s`: restarted, or as `Q` says. -/
def State.Ends (s : State) (Q : State → Prop) (t : State) : Prop := s.Restarted t ∨ Q t

/-- To reason through a gap, reason from every state its turns can make. -/
theorem gap_ends {Q : State → Prop} (k : State → State) (s : State)
    (h : ∀ t, s.Resumed t → t.Ends Q (k t)) : s.Ends Q (gap k s) := by
  rcases gap_cases k s with hr | ⟨h1, h2⟩
  · exact .inl hr
  · rw [h2]
    rcases h _ h1 with ⟨r1, u, r2, r3⟩ | hq
    · exact .inl ⟨h1.turns.subset r1, u, r2.trans h1.cfg, r3⟩
    · exact .inr hq

/-- Without a `RESET` on the schedule the command runs to its end. -/
theorem State.Ends.runs {Q : State → Prop} {s t : State} (h : s.Ends Q t) (hs : s.noReset) : Q t :=
  h.resolve_left fun hr => hs hr.1

/-- A gap without a `RESET`: the command agent goes on. -/
theorem gap_interleaved (k : State → State) (s : State) (h : s.noReset) :
    ∃ t, s.Resumed t ∧ gap k s = k t :=
  ⟨_, (gap_cases k s).resolve_left fun hr => h hr.1⟩

/-- With nothing scheduled a gap is empty. -/
@[simp] theorem gap_empty (k : State → State) (s : State) (h : s.turns = []) : gap k s = k s := by
  unfold gap
  rw [h]
  change k { s with turns := [] } = k s
  rw [← h]

/-! ### Writes to an idle axis pass through a gap -/

theorem State.hostTurn_updAxis (s : State) (a : AxisId) (f : Axis → Axis) {t : Turn}
    (ht : t ≠ .reset) (hs : (s.axis a).running = false) (hf : (f (s.axis a)).running = false) :
    (s.updAxis a f).hostTurn t = (s.hostTurn t).updAxis a fun _ => f (s.axis a) := by
  cases t with
  | tick =>
    simp only [State.hostTurn]
    apply State.ext_axis
    · intro b
      rw [State.tick_axis, State.updAxis_axis, State.updAxis_axis]
      by_cases hb : b = a
      · subst hb
        simp [Axis.tick_idle _ _ hf]
      · simp [hb, State.tick_axis]
    · unfold State.tick
      rw [State.updAxis_anyAxisRunning]
      split <;> rfl
  | reset => exact absurd rfl ht
  | command => cases a <;> rfl
  | operation => cases a <;> rfl
  | rxByte b => cases a <;> rfl
  | contacts p x y => cases a <;> rfl
  | txAccept r => cases a <;> rfl

/-- A gap after a write to an idle axis does the same as the gap before it: ticks skip the axis (R68). -/
theorem gap_updAxis (k : State → State) (s : State) (a : AxisId) (f : Axis → Axis)
    (hs : (s.axis a).running = false) (hf : ∀ x : Axis, x.running = false → (f x).running = false) :
    gap k (s.updAxis a f) = gap (fun t => k (t.updAxis a f)) s := by
  have key : ∀ (ts : List Turn) (s : State), (s.axis a).running = false →
      (s.updAxis a f).runTurns ts =
        if (s.runTurns ts).2 then s.runTurns ts else ((s.runTurns ts).1.updAxis a f, false) := by
    intro ts
    induction ts with
    | nil => intro s _; cases a <;> rfl
    | cons t ts ih =>
      intro s hs
      have go (ht : t ≠ .reset) (e : ∀ s : State, s.runTurns (t :: ts) = (s.hostTurn t).runTurns ts) :
          (s.updAxis a f).runTurns (t :: ts) = if (s.runTurns (t :: ts)).2 then s.runTurns (t :: ts)
            else ((s.runTurns (t :: ts)).1.updAxis a f, false) := by
        have hi := ((State.hostTurn_interleaved s ht).axes a).idle hs
        rw [e, e, State.hostTurn_updAxis s a f ht hs (hf _ hs), ← ih _ (by rw [hi, hs]), ← hi]
        congr 1
        cases a <;> rfl
      cases t with
      | command => cases a <;> rfl
      | operation => cases a <;> rfl
      | reset => cases a <;> rfl
      | tick => exact go (by simp) fun _ => rfl
      | rxByte b => exact go (by simp) fun _ => rfl
      | contacts p x y => exact go (by simp) fun _ => rfl
      | txAccept r => exact go (by simp) fun _ => rfl
  unfold gap
  rw [State.updAxis_turns, key _ _ hs]
  rcases s.runTurns s.turns with ⟨u, _ | _⟩ <;> rfl

end Sys2Proof.Machine
end

