-- ==== Sys2Proof/Laws/Commands.lean ====
section
/-! SUPPORT. What the parts of an operation do: with nothing scheduled, under a schedule without a `RESET`,
and for an invariant under any schedule. -/

namespace Sys2Proof.Machine

variable {α : Type}

/-! ### Operands -/

@[simp] theorem axisOf_number (a : AxisId) : axisOf a.number = some a := by cases a <;> rfl

theorem axisOf_none {b : Byte} (h1 : b ≠ 1) (h2 : b ≠ 2) : axisOf b = none := by
  rw [axisOf, if_neg h1, if_neg h2]

theorem axisOf_some {b : Byte} {a : AxisId} (h : axisOf b = some a) : b = a.number := by
  unfold axisOf at h
  split at h
  · cases h; assumption
  · split at h
    · cases h; assumption
    · cases h

@[simp] theorem decoded_some (v : α) (k : α → Script) : decoded (some v) k = k v := rfl
@[simp] theorem decoded_none (k : α → Script) : decoded none k = fails := rfl
@[simp] theorem checkAxis_number (a : AxisId) (k : AxisId → Script) : checkAxis a.number k = k a := by
  rw [checkAxis, axisOf_number]; rfl
theorem checkAxis_bad {b : Byte} (h1 : b ≠ 1) (h2 : b ≠ 2) (k : AxisId → Script) :
    checkAxis b k = fails := by rw [checkAxis, axisOf_none h1 h2]; rfl
@[simp] theorem requires_true (k : Script) : requires true k = k := rfl
@[simp] theorem requires_false (k : Script) : requires false k = fails := rfl
@[simp] theorem writesIf_true (w : Write) (k : Script) : writesIf true w k = writes w k := rfl
@[simp] theorem writesIf_false (w : Write) (k : Script) : writesIf false w k = k := rfl
@[simp] theorem fails_run (s : State) : fails.run s = s.respond false [] := rfl
@[simp] theorem succeeds_run (outs : List Byte) (s : State) :
    (succeeds outs).run s = s.respond true outs := rfl
theorem dispatch_eq (k : Script) (s : State) : dispatch k s = k.run s.toggled := rfl

/-- Every arm of `exec` is the whole operation of its command. -/
theorem exec_eq (i : Instr) (s : State) : exec i s = .next (dispatch (operationOf s.cfg i) s) := by
  cases i <;> rfl

@[simp] theorem State.toggled_turns (s : State) : s.toggled.turns = s.turns := rfl
@[simp] theorem State.toggled_cfg (s : State) : s.toggled.cfg = s.cfg := rfl
@[simp] theorem State.toggled_axis (s : State) (a : AxisId) : s.toggled.axis a = s.axis a := rfl
@[simp] theorem State.toggled_opc (s : State) : s.toggled.opc = s.opc := rfl
@[simp] theorem State.toggled_resp (s : State) : s.toggled.resp = s.resp := rfl
@[simp] theorem State.toggled_anyAxisRunning (s : State) :
    s.toggled.anyAxisRunning = s.anyAxisRunning := rfl
@[simp] theorem State.toggled_indicator (s : State) : s.toggled.indicator = !s.indicator := rfl

/-! ### The place inside an operation -/

@[simp] theorem Script.resume_nil (k : Script) : k.resume [] = k := rfl

theorem Script.resume_append (k : Script) (seen : List Half) (v : Half) :
    k.resume (seen ++ [v]) = (k.resume seen).next v := by
  rw [Script.resume, Script.resume, List.foldl_append]
  rfl

/-- An access is its effect on the machine, and then the rest. -/
theorem Script.access_read (r : Read) (k : Half → Script) (s : State) :
    (Script.read r k).access s = (k (s.get r)).pause (s.seen ++ [s.get r]) s := rfl

theorem Script.access_write (w : Write) (k : Script) (s : State) :
    (Script.write w k).access s = k.pause (s.seen ++ [0]) (s.put w) := rfl

/-- The command agent stops before the next access, or with the response assembled. -/
theorem Script.pause_cases (k : Script) (seen : List Half) (s : State) :
    (∃ ok outs, k = .respond ok outs ∧ k.pause seen s = s.respond ok outs)
    ∨ ((∀ ok outs, k ≠ .respond ok outs) ∧ k.pause seen s = { s with phase := .access, seen := seen }) := by
  cases k with
  | respond ok outs => exact .inl ⟨ok, outs, rfl, rfl⟩
  | read r k => exact .inr ⟨nofun, rfl⟩
  | write w k => exact .inr ⟨nofun, rfl⟩

/-! ### With nothing scheduled -/

section
variable (s : State) (h : s.turns = [])
include h

@[simp] theorem readsBit_empty (r : Read) (k : Bool → Script) :
    (readsBit r k).run s = (k (s.get r != 0)).run s := gap_empty _ s h

@[simp] theorem readsLines_empty (r : Read) (k : BitVec 2 → Script) :
    (readsLines r k).run s = (k ((s.get r).setWidth 2)).run s := gap_empty _ s h

@[simp] theorem readsHalf_empty (r : Read) (k : Half → Script) :
    (readsHalf r k).run s = (k (s.get r)).run s := gap_empty _ s h

@[simp] theorem writes_empty (w : Write) (k : Script) : (writes w k).run s = k.run (s.put w) :=
  gap_empty _ s h

@[simp] theorem checkIdle_empty (a : AxisId) (k : Script) :
    (checkIdle a k).run s = if (s.axis a).running then fails.run s else k.run s := by
  rw [checkIdle, readsBit_empty s h, State.get_running, bitValue_ne_zero]
  cases (s.axis a).running <;> rfl

end

/-! ### Under a schedule without a `RESET` -/

theorem read_interleaved (r : Read) (k : Half → Script) (s : State) (h : s.noReset) :
    ∃ t, s.Resumed t ∧ (Script.read r k).run s = (k (t.get r)).run t := gap_interleaved _ s h

theorem readsBit_interleaved (r : Read) (k : Bool → Script) (s : State) (h : s.noReset) :
    ∃ t, s.Resumed t ∧ (readsBit r k).run s = (k (t.get r != 0)).run t := gap_interleaved _ s h

theorem readsLines_interleaved (r : Read) (k : BitVec 2 → Script) (s : State) (h : s.noReset) :
    ∃ t, s.Resumed t ∧ (readsLines r k).run s = (k ((t.get r).setWidth 2)).run t :=
  gap_interleaved _ s h

theorem writes_interleaved (w : Write) (k : Script) (s : State) (h : s.noReset) :
    ∃ t, s.Resumed t ∧ (writes w k).run s = k.run (t.put w) := gap_interleaved _ s h

/-- `CheckIdle` reads `running` once and goes on or fails accordingly. -/
theorem checkIdle_interleaved (a : AxisId) (k : Script) (s : State) (h : s.noReset) :
    ∃ t, s.Resumed t ∧
      (checkIdle a k).run s = if (t.axis a).running then fails.run t else k.run t := by
  obtain ⟨t, ht, e⟩ := readsBit_interleaved (.running a) (fun r => requires (!r) k) s h
  refine ⟨t, ht, ?_⟩
  rw [checkIdle, e, State.get_running, bitValue_ne_zero]
  cases (t.axis a).running <;> rfl

/-- `CheckIdle` on an idle axis passes, whatever falls into its gap (R68). -/
theorem checkIdle_idle (a : AxisId) (k : Script) (s : State) (h : s.noReset)
    (hr : (s.axis a).running = false) :
    ∃ t, s.Resumed t ∧ (checkIdle a k).run s = k.run t := by
  obtain ⟨t, ht, e⟩ := checkIdle_interleaved a k s h
  exact ⟨t, ht, by rw [e, (ht.axes a).idle hr, hr]; rfl⟩

/-! ### Under any schedule, a `RESET` included -/

variable {Q : State → Prop}

theorem readsBit_ends (r : Read) (k : Bool → Script) (s : State)
    (h : ∀ t, s.Resumed t → t.Ends Q ((k (t.get r != 0)).run t)) : s.Ends Q ((readsBit r k).run s) :=
  gap_ends _ s h

theorem readsLines_ends (r : Read) (k : BitVec 2 → Script) (s : State)
    (h : ∀ t, s.Resumed t → t.Ends Q ((k ((t.get r).setWidth 2)).run t)) :
    s.Ends Q ((readsLines r k).run s) := gap_ends _ s h

theorem readsHalf_ends (r : Read) (k : Half → Script) (s : State)
    (h : ∀ t, s.Resumed t → t.Ends Q ((k (t.get r)).run t)) : s.Ends Q ((readsHalf r k).run s) :=
  gap_ends _ s h

/-- A write changes neither the schedule nor the configuration. -/
theorem State.put_turns_cfg (s : State) (w : Write) :
    (s.put w).turns = s.turns ∧ (s.put w).cfg = s.cfg := by
  rcases s.put_cases w with ⟨a, f, e⟩ | ⟨v, e⟩ <;> rw [e] <;> exact ⟨rfl, rfl⟩

theorem writes_ends (w : Write) (k : Script) (s : State)
    (h : ∀ t, s.Resumed t → (t.put w).Ends Q (k.run (t.put w))) : s.Ends Q ((writes w k).run s) :=
  gap_ends _ s fun t ht => (h t ht).imp
    (fun ⟨h1, u, h2, h3⟩ =>
      ⟨(t.put_turns_cfg w).1 ▸ h1, u, h2.trans (t.put_turns_cfg w).2, h3⟩) id

theorem requires_ends (c : Bool) (k : Script) (s : State) (hf : c = false → Q (s.respond false []))
    (h : c = true → s.Ends Q (k.run s)) : s.Ends Q ((requires c k).run s) := by
  cases c with
  | false => exact .inr (hf rfl)
  | true => exact h rfl

theorem decoded_ends (v : Option α) (k : α → Script) (s : State)
    (hf : v = none → Q (s.respond false [])) (h : ∀ x, v = some x → s.Ends Q ((k x).run s)) :
    s.Ends Q ((decoded v k).run s) := by
  cases v with
  | none => exact .inr (hf rfl)
  | some x => exact h x rfl

theorem checkAxis_ends (b : Byte) (k : AxisId → Script) (s : State) (hf : Q (s.respond false []))
    (h : ∀ a : AxisId, b = a.number → s.Ends Q ((k a).run s)) : s.Ends Q ((checkAxis b k).run s) :=
  decoded_ends _ _ s (fun _ => hf) fun a ha => h a (axisOf_some ha)

theorem checkIdle_ends (a : AxisId) (k : Script) (s : State)
    (hf : ∀ t, s.Resumed t → Q (t.respond false []))
    (h : ∀ t, s.Resumed t → (t.axis a).running = false → t.Ends Q (k.run t)) :
    s.Ends Q ((checkIdle a k).run s) :=
  readsBit_ends _ _ s fun t ht =>
    requires_ends _ _ t (fun _ => hf t ht) fun hr => h t ht (by simpa using hr)

/-- A write to an idle axis, and a second write right after it: on an idle axis the writes of a setter
collapse into one rewrite (R68). -/
theorem writesAxis_ends (w : Write) (a : AxisId) (g : Axis → Axis) (k : Script) (s : State)
    (hw : ∀ t : State, t.put w = t.updAxis a g) (hs : (s.axis a).running = false)
    (h : ∀ t, s.Resumed t → (t.axis a).running = false → t.Ends Q (k.run (t.updAxis a g))) :
    s.Ends Q ((writes w k).run s) :=
  gap_ends _ s fun t ht => by
    rw [hw]
    exact h t ht (by rw [(ht.axes a).idle hs, hs])

theorem writesAgain_ends (w : Write) (a : AxisId) (f g : Axis → Axis) (k : Script) (s : State)
    (hw : ∀ t : State, t.put w = t.updAxis a g) (hs : (s.axis a).running = false)
    (hf : ∀ x : Axis, x.running = false → (f x).running = false)
    (h : ∀ t, s.Resumed t → (t.axis a).running = false →
      t.Ends Q (k.run (t.updAxis a fun x => g (f x)))) :
    s.Ends Q ((writes w k).run (s.updAxis a f)) := by
  rw [writes, Script.run, gap_updAxis _ s a f hs hf]
  refine gap_ends _ s fun t ht => ?_
  have := h t ht (by rw [(ht.axes a).idle hs, hs])
  rw [hw]
  cases a <;> exact this

end Sys2Proof.Machine
end

