-- ==== Sys2Proof/Laws/Decode.lean ====
section
/-! SUPPORT. What a valid configuration's opcode table answers, and what the bytes of a payload stand for
(30_encoding.md R86 to R89). -/

namespace Sys2Proof

/-! ### The opcode table -/

variable {c : Config} {e : OpEntry} {op : Op} {b : Byte}

/-- In a list without repeated keys a search by key finds any of its elements. -/
theorem find?_key {α β : Type} [DecidableEq β] (f : α → β) (p : α → Bool) (l : List α)
    (h : (l.map f).Nodup) (x : α) (hx : x ∈ l) (hp : p x = true) :
    l.find? (fun y => f y == f x && p y) = some x := by
  induction l with
  | nil => cases hx
  | cons y l ih =>
    rw [List.map_cons, List.nodup_cons] at h
    by_cases hy : f y = f x
    · have : y = x := by
        rcases List.mem_cons.1 hx with e | hx
        · exact e.symm
        · exact absurd (hy ▸ List.mem_map_of_mem hx) h.1
      subst this
      simp [hp]
    · have hx' : x ∈ l := (List.mem_cons.1 hx).resolve_left fun e => hy (by rw [e])
      rw [List.find?_cons_of_neg (by simp [hy])]
      exact ih h.2 hx'

/-- R87: the lengths of a row of a valid table. -/
theorem Config.lengths (hv : c.valid = true) (he : e ∈ c.table) :
    e.reqLen = 4 + e.op.reqFields.sum ∧ e.respLen = 5 + e.op.respFields.sum := by
  simp only [Config.valid, Bool.and_eq_true, List.all_eq_true] at hv
  have := hv.1.1.1.1.1.2 e he
  simp only [OpEntry.lengthsOk, Bool.and_eq_true, beq_iff_eq] at this
  exact ⟨this.1.2, this.2⟩

theorem Config.lookup_mem (h : c.lookup b = some e) : e ∈ c.table ∧ e.code = b := by
  have h1 := List.mem_of_find?_eq_some h
  have h2 := List.find?_some h
  simp only [Bool.and_eq_true, beq_iff_eq] at h2
  exact ⟨h1, h2.1⟩

/-- A row is found by its opcode. -/
theorem Config.lookup_code (hv : c.valid = true) (he : e ∈ c.table) : c.lookup e.code = some e := by
  have h0 := (Config.lengths hv he).1
  simp only [Config.valid, Bool.and_eq_true] at hv
  have hd := hv.1.1.1.2
  simp only [Config.codesDistinct, decide_eq_true_eq] at hd
  exact find?_key OpEntry.code (fun e => e.reqLen != 0) c.table hd e he (by simp; omega)

/-- Every operation has a row, and its opcode finds it. -/
theorem Config.lookup_codeOf (hv : c.valid = true) (op : Op) :
    ∃ e, e ∈ c.table ∧ e.op = op ∧ e.code = c.codeOf op ∧ c.lookup (c.codeOf op) = some e := by
  have h1 : c.table.countP (fun e => e.op == op) = 1 := by
    have hv' := hv
    simp only [Config.valid, Bool.and_eq_true] at hv'
    have := hv'.1.1.1.1.2
    simp only [Config.everyOpOnce, List.all_eq_true, beq_iff_eq] at this
    exact this op (by cases op <;> decide)
  have h2 : 0 < c.table.countP (fun e => e.op == op) := by omega
  obtain ⟨e', he', ho'⟩ := List.countP_pos_iff.1 h2
  obtain ⟨e, he⟩ : ∃ e, c.table.find? (fun e => e.op == op) = some e :=
    Option.isSome_iff_exists.1 (List.find?_isSome.2 ⟨e', he', ho'⟩)
  have hm := List.mem_of_find?_eq_some he
  have ho := List.find?_some he
  have hc : c.codeOf op = e.code := by rw [Config.codeOf, he]
  exact ⟨e, hm, by simpa using ho, hc.symm, by rw [hc]; exact Config.lookup_code hv hm⟩

/-- In a list where `p` counts one element, a search for `p` finds it. -/
theorem find?_once {α : Type} (p : α → Bool) (l : List α) (h : l.countP p = 1) (x : α) (hx : x ∈ l)
    (hp : p x = true) : l.find? p = some x := by
  induction l with
  | nil => cases hx
  | cons y l ih =>
    by_cases hy : p y = true
    · rw [List.countP_cons_of_pos hy] at h
      have h0 : l.countP p = 0 := by omega
      rcases List.mem_cons.1 hx with e | hx
      · subst e
        rw [List.find?_cons_of_pos hp]
      · exact absurd hp (List.countP_eq_zero.1 h0 x hx)
    · rw [List.countP_cons_of_neg hy] at h
      have hx' : x ∈ l := (List.mem_cons.1 hx).resolve_left fun e => hy (e ▸ hp)
      rw [List.find?_cons_of_neg hy]
      exact ih h hx'

/-- The opcode that finds a row is its operation's opcode. -/
theorem Config.codeOf_lookup (hv : c.valid = true) (h : c.lookup b = some e) : c.codeOf e.op = b := by
  obtain ⟨hm, hc⟩ := Config.lookup_mem h
  have h1 : c.table.countP (fun x => x.op == e.op) = 1 := by
    simp only [Config.valid, Bool.and_eq_true] at hv
    have := hv.1.1.1.1.2
    simp only [Config.everyOpOnce, List.all_eq_true, beq_iff_eq] at this
    exact this e.op (by cases e.op <;> decide)
  rw [Config.codeOf, find?_once _ _ h1 e hm (by simp)]
  exact hc

/-! ### Payloads -/

/-- R88: a payload is as long as its operation's fields. -/
@[simp] theorem encodePayload_length (i : Instr) :
    (encodePayload i).length = i.op.reqFields.sum := by cases i <;> rfl

/-- R60: a field's bytes put together again. -/
theorem le16_bytes (v : Half) : le16 (v.extractLsb' 0 8) (v.extractLsb' 8 8) = v := by
  unfold le16
  ext i hi
  simp only [BitVec.getElem_append, BitVec.getElem_extractLsb', Nat.zero_add]
  split
  · exact (BitVec.getLsbD_eq_getElem hi)
  · rw [show 8 + (i - 8) = i by omega]; exact (BitVec.getLsbD_eq_getElem hi)

theorem le32_bytes (v : Word) : le32 (v.extractLsb' 0 8) (v.extractLsb' 8 8) (v.extractLsb' 16 8)
    (v.extractLsb' 24 8) = v := by
  unfold le32
  ext i hi
  simp only [BitVec.getElem_append, BitVec.getElem_extractLsb', Nat.zero_add]
  split
  · exact (BitVec.getLsbD_eq_getElem hi)
  · split
    · rw [show 8 + (i - 8) = i by omega]; exact (BitVec.getLsbD_eq_getElem hi)
    · split
      · rw [show 16 + (i - 8 - 8) = i by omega]; exact (BitVec.getLsbD_eq_getElem hi)
      · rw [show 24 + (i - 8 - 8 - 8) = i by omega]; exact (BitVec.getLsbD_eq_getElem hi)

theorem bytes16_le (b0 b1 : Byte) : bytes16 (le16 b0 b1) = [b0, b1] := by
  have h0 : (le16 b0 b1).extractLsb' 0 8 = b0 := by
    unfold le16; ext i hi
    simp only [BitVec.getElem_extractLsb', BitVec.getLsbD_append]
    simp [show i < 8 from hi]
  have h1 : (le16 b0 b1).extractLsb' 8 8 = b1 := by
    unfold le16; ext i hi
    simp only [BitVec.getElem_extractLsb', BitVec.getLsbD_append]
    simp [show i < 8 from hi]
  rw [bytes16, h0, h1]

theorem bytes32_le (b0 b1 b2 b3 : Byte) : bytes32 (le32 b0 b1 b2 b3) = [b0, b1, b2, b3] := by
  have h0 : (le32 b0 b1 b2 b3).extractLsb' 0 8 = b0 := by
    unfold le32; ext i hi
    simp only [BitVec.getElem_extractLsb', BitVec.getLsbD_append]
    simp [show i < 8 from hi]
  have h1 : (le32 b0 b1 b2 b3).extractLsb' 8 8 = b1 := by
    unfold le32; ext i hi
    simp only [BitVec.getElem_extractLsb', BitVec.getLsbD_append]
    simp [show i < 8 from hi]
  have h2 : (le32 b0 b1 b2 b3).extractLsb' 16 8 = b2 := by
    unfold le32; ext i hi
    simp only [BitVec.getElem_extractLsb', BitVec.getLsbD_append]
    rw [if_neg (by omega), if_neg (by omega), if_pos (by omega)]
    rw [show 16 + i - 8 - 8 = i by omega]; exact (BitVec.getLsbD_eq_getElem hi)
  have h3 : (le32 b0 b1 b2 b3).extractLsb' 24 8 = b3 := by
    unfold le32; ext i hi
    simp only [BitVec.getElem_extractLsb', BitVec.getLsbD_append]
    rw [if_neg (by omega), if_neg (by omega), if_neg (by omega)]
    rw [show 24 + i - 8 - 8 - 8 = i by omega]; exact (BitVec.getLsbD_eq_getElem hi)
  rw [bytes32, h0, h1, h2, h3]

/-- The decoder reads back what the encoder wrote into the payload (R89). -/
theorem decodeOp_encodePayload (i : Instr) : decodeOp i.op (payloadOfList (encodePayload i)) = i := by
  cases i with
  | setSteps axis count => exact congrArg (Instr.setSteps axis) (le32_bytes count)
  | setSafeSteps axis count => exact congrArg (Instr.setSafeSteps axis) (le32_bytes count)
  | setCurrent axis value => exact congrArg (Instr.setCurrent axis) (le16_bytes value)
  | setStepDelay axis ticks => exact congrArg (Instr.setStepDelay axis) (le16_bytes ticks)
  | _ => rfl

@[simp] theorem decodeOp_op (op : Op) (pay : Payload) : (decodeOp op pay).op = op := by
  cases op <;> rfl

/-- The encoder writes back the payload that the decoder read. -/
theorem encodePayload_decodeOp (op : Op) (bs : List Byte) (h : bs.length = op.reqFields.sum) :
    encodePayload (decodeOp op (payloadOfList bs)) = bs := by
  cases op <;> simp only [Op.reqFields, List.sum_cons, List.sum_nil, Nat.reduceAdd] at h
  case setSteps | setSafeSteps =>
    match bs, h with
    | [b0, b1, b2, b3, b4], _ => exact congrArg (b0 :: ·) (bytes32_le b1 b2 b3 b4)
  case setCurrent | setStepDelay =>
    match bs, h with
    | [b0, b1, b2], _ => exact congrArg (b0 :: ·) (bytes16_le b1 b2)
  case getVersion =>
    match bs, h with
    | [], _ => rfl
  case setEnable | setMicrosteps | setDirection =>
    match bs, h with
    | [b0, b1], _ => rfl
  all_goals
    match bs, h with
    | [b0], _ => rfl

end Sys2Proof
end

