-- ==== Sys2Proof/Laws/Exec.lean ====
section
/-! SUPPORT. Everything a command can do under any schedule, said once: `exec_ends`. -/

namespace Sys2Proof.Machine

/-- The eight setters, the axis each addresses and what it makes of that axis (R131 to R133, R151 to
R159), for the operands it accepts. -/
inductive Setter (c : Config) (a : AxisId) : Instr → (Axis → Axis) → Prop where
  | setSteps (count : Word) : Setter c a (.setSteps a.number count) fun x =>
      { x with remainingSteps := count, safeMode := false, seekUntilRelay := false }
  | setSafeSteps (count : Word) : Setter c a (.setSafeSteps a.number count) fun x =>
      { x with remainingSteps := count, safeMode := true, seekUntilRelay := false }
  | setSeek : Setter c a (.setSeek a.number) fun x => { x with safeMode := true, seekUntilRelay := true }
  | setEnable (en : Byte) (v : Bool) (h : enableLineOf c.wire en = some v) :
      Setter c a (.setEnable a.number en) fun x => { x with nEN := v }
  | setMicrosteps (mode : Byte) (v : BitVec 2) (h : microOf c.wire mode = some v) :
      Setter c a (.setMicrosteps a.number mode) fun x => { x with ms := v }
  | setDirection (dir : Byte) (v : Bool) (h : dirOf c.wire dir = some v) :
      Setter c a (.setDirection a.number dir) fun x => { x with dir := v }
  | setCurrent (value : Half) (h : value ≤ c.currentMax) :
      Setter c a (.setCurrent a.number value) fun x => { x with idac := value }
  | setStepDelay (ticks : Half) (h : ticks < delaySentinel) :
      Setter c a (.setStepDelay a.number ticks) fun x => { x with delayTicks := ticks }

/-- A setter writes neither `running`, nor the step output, nor the countdown. -/
theorem Setter.keeps {c : Config} {a : AxisId} {i : Instr} {f : Axis → Axis} (h : Setter c a i f)
    (x : Axis) : (f x).running = x.running ∧ (f x).step = x.step ∧ (f x).pulseHigh = x.pulseHigh
      ∧ (f x).delayCounter = x.delayCounter := by
  cases h <;> exact ⟨rfl, rfl, rfl, rfl⟩

/-- START's effect on a requested axis (R134). -/
def Axis.arm (x : Axis) : Axis := { x with delayCounter := 0, running := true }

/-- STOP's effect on a requested axis (R135). -/
def Axis.halt (x : Axis) : Axis := { x with running := false }

/-- What a command `i` and the turns inside it make of axis `a`; under `n` no turn is a tick. -/
inductive AxisEffect (n : Prop) (c : Config) (i : Instr) (a : AxisId) (x z : Axis) : Prop where
  | ticks (h : x.Ticked n z)
  | setter (f : Axis → Axis) (hi : Setter c a i f) (y : Axis) (h : x.Ticked n y)
      (hr : y.running = false) (hz : z = f y)
  | start (bf : Byte) (hi : i = .start bf) (hb : requests c.wire bf a = true) (y : Axis)
      (h : x.Ticked n y) (hr : y.running = false) (hz : y.arm.Ticked n z)
  | stop (bf : Byte) (hi : i = .stop bf) (hb : requests c.wire bf a = true) (y : Axis)
      (h : x.Ticked n y) (hz : z = y.halt)

/-- What a command leaves behind: a response to be sent, the indicator toggled once, nothing of the framer
changed, and on each axis the effect above; a command that fails has written nothing. -/
def Executed (i : Instr) (s t : State) : Prop :=
  ∃ (u : State) (ok : Bool) (outs : List Byte),
    t = u.respond ok outs ∧ (ok = true → outs.length = i.op.respFields.sum) ∧ s.toggled.Framed u
    ∧ (u.anyAxisRunning = s.anyAxisRunning ∨ (∃ bf, i = .start bf) ∨ ∃ bf, i = .stop bf)
    ∧ (∀ a, AxisEffect (Turn.tick ∉ s.turns) s.cfg i a (s.axis a) (u.axis a))
    ∧ (ok = false → u.anyAxisRunning = s.anyAxisRunning
      ∧ ∀ a, (s.axis a).Ticked (Turn.tick ∉ s.turns) (u.axis a))

/-- A command that writes nothing. -/
theorem Executed.quiet {i : Instr} {s u : State} (h : s.toggled.Resumed u) (ok : Bool)
    (outs : List Byte) (ho : ok = true → outs.length = i.op.respFields.sum) :
    Executed i s (u.respond ok outs) :=
  ⟨u, ok, outs, rfl, ho, h.toFramed, .inl h.flag, fun a => .ticks (h.axes a), fun _ => ⟨h.flag, h.axes⟩⟩

/-- A setter that succeeds. -/
theorem Executed.ofSetter {i : Instr} {s u : State} {a : AxisId} {f : Axis → Axis}
    (hi : Setter s.cfg a i f) (h : s.toggled.Resumed u) (hr : (u.axis a).running = false)
    (ho : i.op.respFields.sum = 0) : Executed i s ((u.updAxis a f).respond true []) := by
  refine ⟨_, true, [], rfl, fun _ => ho.symm, h.toFramed.updAxis a f, .inl h.flag, fun b => ?_,
    fun h => by cases h⟩
  rw [State.updAxis_axis]
  split
  · rename_i e
    subst e
    exact .setter f hi _ (h.axes b) hr rfl
  · exact .ticks (h.axes b)

/-! ### The setters -/

section
variable (s : State)

theorem execSetSteps_ends (axis : Byte) (count : Word) :
    ∃ t, execSetSteps axis count s = .next t ∧ s.toggled.Ends (Executed (.setSteps axis count) s) t := by
  refine ⟨_, rfl, checkAxis_ends _ _ _ (.quiet (.refl _ _) _ _ (by simp)) ?_⟩
  rintro a rfl
  refine checkIdle_ends _ _ _ (fun t ht => .quiet ht _ _ (by simp)) fun t ht hr => ?_
  refine writesAxis_ends _ a _ _ t (State.put_remainingSteps · _ _) hr fun u hu hr => ?_
  refine writesAgain_ends _ a _ _ _ u (State.put_safeMode · _ _) hr (fun _ h => h) fun v hv hr => ?_
  refine writesAgain_ends _ a _ _ _ v (State.put_seekUntilRelay · _ _) hr (fun _ h => h) fun w hw hr => .inr ?_
  exact .ofSetter (.setSteps count) (((State.Resumed.trans ht hu).trans hv).trans hw) hr rfl

theorem execSetSafeSteps_ends (axis : Byte) (count : Word) :
    ∃ t, execSetSafeSteps axis count s = .next t
      ∧ s.toggled.Ends (Executed (.setSafeSteps axis count) s) t := by
  refine ⟨_, rfl, checkAxis_ends _ _ _ (.quiet (.refl _ _) _ _ (by simp)) ?_⟩
  rintro a rfl
  refine checkIdle_ends _ _ _ (fun t ht => .quiet ht _ _ (by simp)) fun t ht hr => ?_
  refine writesAxis_ends _ a _ _ t (State.put_remainingSteps · _ _) hr fun u hu hr => ?_
  refine writesAgain_ends _ a _ _ _ u (State.put_safeMode · _ _) hr (fun _ h => h) fun v hv hr => ?_
  refine writesAgain_ends _ a _ _ _ v (State.put_seekUntilRelay · _ _) hr (fun _ h => h) fun w hw hr => .inr ?_
  exact .ofSetter (.setSafeSteps count) (((State.Resumed.trans ht hu).trans hv).trans hw) hr rfl

theorem execSetSeek_ends (axis : Byte) :
    ∃ t, execSetSeek axis s = .next t ∧ s.toggled.Ends (Executed (.setSeek axis) s) t := by
  refine ⟨_, rfl, checkAxis_ends _ _ _ (.quiet (.refl _ _) _ _ (by simp)) ?_⟩
  rintro a rfl
  refine checkIdle_ends _ _ _ (fun t ht => .quiet ht _ _ (by simp)) fun t ht hr => ?_
  refine writesAxis_ends _ a _ _ t (State.put_safeMode · _ _) hr fun u hu hr => ?_
  refine writesAgain_ends _ a _ _ _ u (State.put_seekUntilRelay · _ _) hr (fun _ h => h) fun v hv hr => .inr ?_
  exact .ofSetter .setSeek ((State.Resumed.trans ht hu).trans hv) hr rfl

theorem execSetEnable_ends (axis en : Byte) :
    ∃ t, execSetEnable axis en s = .next t ∧ s.toggled.Ends (Executed (.setEnable axis en) s) t := by
  refine ⟨_, rfl, checkAxis_ends _ _ _ (.quiet (.refl _ _) _ _ (by simp)) ?_⟩
  rintro a rfl
  refine checkIdle_ends _ _ _ (fun t ht => .quiet ht _ _ (by simp)) fun t ht hr => ?_
  refine decoded_ends _ _ t (fun _ => .quiet ht _ _ (by simp)) fun v hv => ?_
  exact writesAxis_ends _ a _ _ t (State.put_nEN · _ _) hr fun u hu hr =>
    .inr (.ofSetter (.setEnable en v hv) (State.Resumed.trans ht hu) hr rfl)

theorem execSetMicrosteps_ends (axis mode : Byte) :
    ∃ t, execSetMicrosteps axis mode s = .next t
      ∧ s.toggled.Ends (Executed (.setMicrosteps axis mode) s) t := by
  refine ⟨_, rfl, checkAxis_ends _ _ _ (.quiet (.refl _ _) _ _ (by simp)) ?_⟩
  rintro a rfl
  refine checkIdle_ends _ _ _ (fun t ht => .quiet ht _ _ (by simp)) fun t ht hr => ?_
  refine decoded_ends _ _ t (fun _ => .quiet ht _ _ (by simp)) fun v hv => ?_
  exact writesAxis_ends _ a _ _ t (State.put_ms · _ _) hr fun u hu hr =>
    .inr (.ofSetter (.setMicrosteps mode v hv) (State.Resumed.trans ht hu) hr rfl)

theorem execSetDirection_ends (axis dir : Byte) :
    ∃ t, execSetDirection axis dir s = .next t
      ∧ s.toggled.Ends (Executed (.setDirection axis dir) s) t := by
  refine ⟨_, rfl, checkAxis_ends _ _ _ (.quiet (.refl _ _) _ _ (by simp)) ?_⟩
  rintro a rfl
  refine checkIdle_ends _ _ _ (fun t ht => .quiet ht _ _ (by simp)) fun t ht hr => ?_
  refine decoded_ends _ _ t (fun _ => .quiet ht _ _ (by simp)) fun v hv => ?_
  exact writesAxis_ends _ a _ _ t (State.put_dir · _ _) hr fun u hu hr =>
    .inr (.ofSetter (.setDirection dir v hv) (State.Resumed.trans ht hu) hr rfl)

theorem execSetCurrent_ends (axis : Byte) (value : Half) :
    ∃ t, execSetCurrent axis value s = .next t
      ∧ s.toggled.Ends (Executed (.setCurrent axis value) s) t := by
  refine ⟨_, rfl, checkAxis_ends _ _ _ (.quiet (.refl _ _) _ _ (by simp)) ?_⟩
  rintro a rfl
  refine checkIdle_ends _ _ _ (fun t ht => .quiet ht _ _ (by simp)) fun t ht hr => ?_
  refine requires_ends _ _ t (fun _ => .quiet ht _ _ (by simp)) fun hv => ?_
  exact writesAxis_ends _ a _ _ t (State.put_idac · _ _) hr fun u hu hr =>
    .inr (.ofSetter (.setCurrent value (of_decide_eq_true hv)) (State.Resumed.trans ht hu) hr rfl)

theorem execSetStepDelay_ends (axis : Byte) (ticks : Half) :
    ∃ t, execSetStepDelay axis ticks s = .next t
      ∧ s.toggled.Ends (Executed (.setStepDelay axis ticks) s) t := by
  refine ⟨_, rfl, checkAxis_ends _ _ _ (.quiet (.refl _ _) _ _ (by simp)) ?_⟩
  rintro a rfl
  refine checkIdle_ends _ _ _ (fun t ht => .quiet ht _ _ (by simp)) fun t ht hr => ?_
  refine requires_ends _ _ t (fun _ => .quiet ht _ _ (by simp)) fun hv => ?_
  exact writesAxis_ends _ a _ _ t (State.put_delayTicks · _ _) hr fun u hu hr =>
    .inr (.ofSetter (.setStepDelay ticks (of_decide_eq_true hv)) (State.Resumed.trans ht hu) hr rfl)

end

/-! ### The queries -/

/-- A query of an axis: one read, no write. -/
theorem query_ends (i : Instr) (b : Byte) (r : AxisId → Read) (g : Half → List Byte) (s : State)
    (hg : ∀ v, (g v).length = i.op.respFields.sum) :
    s.toggled.Ends (Executed i s)
      (dispatch (checkAxis b fun a => .read (r a) fun v => succeeds (g v)) s) :=
  checkAxis_ends _ _ _ (.quiet (.refl _ _) _ _ (by simp)) fun _ _ =>
    gap_ends _ _ fun _ ht => .inr (.quiet ht _ _ fun _ => hg _)

/-! ### START and STOP -/

/-- Arming one axis of a START. -/
theorem arm_ends {Q : State → Prop} (r : Bool) (a : AxisId) (k : Script) (s : State)
    (hs : r = true → (s.axis a).running = false)
    (h1 : r = false → s.Ends Q (k.run s))
    (h2 : r = true → ∀ t, s.Resumed t → (t.axis a).running = false →
      t.Ends Q (k.run (t.updAxis a Axis.arm))) :
    s.Ends Q ((writesIf r (.delayCounter a 0) (writesIf r (.running a true) k)).run s) := by
  cases r with
  | false => exact h1 rfl
  | true =>
    refine writesAxis_ends _ a _ _ s (State.put_delayCounter · _ _) (hs rfl) fun t ht hr => ?_
    refine writesAgain_ends _ a _ _ _ t (State.put_running · _ _) hr (fun _ h => h) fun u hu hr => ?_
    exact h2 rfl u (State.Resumed.trans ht hu) hr

/-- Ticks after a command's effect are part of that effect. -/
theorem AxisEffect.ticked {n : Prop} {c : Config} {i : Instr} {a : AxisId} {x z z' : Axis}
    (h : AxisEffect n c i a x z) (hz : z.Ticked n z') : AxisEffect n c i a x z' := by
  cases h with
  | ticks h => exact .ticks (h.trans hz)
  | setter f hi y h hr e =>
    exact .setter f hi y h hr (by rw [hz.idle (by rw [e, (hi.keeps y).1, hr]), e])
  | start bf hi hb y h hr e => exact .start bf hi hb y h hr (e.trans hz)
  | stop bf hi hb y h e => exact .stop bf hi hb y h (by rw [hz.idle (by rw [e]; rfl), e])

/-- How far a START or a STOP has come: `effects` for each axis, and the frame. -/
structure Underway (i : Instr) (s u : State) (done1 done2 : Prop) : Prop where
  frame : s.toggled.Framed u
  one : ¬done1 → s.axis1.Ticked (Turn.tick ∉ s.turns) u.axis1
  two : ¬done2 → s.axis2.Ticked (Turn.tick ∉ s.turns) u.axis2
  effect1 : AxisEffect (Turn.tick ∉ s.turns) s.cfg i .one s.axis1 u.axis1
  effect2 : AxisEffect (Turn.tick ∉ s.turns) s.cfg i .two s.axis2 u.axis2

theorem Underway.resume {i : Instr} {s u v : State} {p q : Prop} (h : Underway i s u p q)
    (k : u.Resumed v) : Underway i s v p q :=
  have k' := State.Interleaved.mono k h.frame.noTick
  { frame := h.frame.trans k.toFramed
    one := fun hp => (h.one hp).trans (k'.axes .one)
    two := fun hp => (h.two hp).trans (k'.axes .two)
    effect1 := h.effect1.ticked (k'.axes .one)
    effect2 := h.effect2.ticked (k'.axes .two) }

theorem Underway.flag {i : Instr} {s u : State} {p q : Prop} (h : Underway i s u p q) (v : Bool) :
    Underway i s { u with anyAxisRunning := v } p q := { h with frame := h.frame.setAnyAxisRunning v }

theorem Underway.ofResumed {i : Instr} {s u : State} (h : s.toggled.Resumed u) :
    Underway i s u False False where
  frame := h.toFramed
  one := fun _ => h.axes .one
  two := fun _ => h.axes .two
  effect1 := .ticks (h.axes .one)
  effect2 := .ticks (h.axes .two)

theorem Underway.executed {i : Instr} {s u : State} {p q : Prop} (h : Underway i s u p q)
    (hi : (∃ bf, i = .start bf) ∨ ∃ bf, i = .stop bf) : Executed i s (u.respond true []) := by
  refine ⟨u, true, [], rfl, fun _ => ?_, h.frame, .inr hi, ?_, fun h => by cases h⟩
  · rcases hi with ⟨bf, rfl⟩ | ⟨bf, rfl⟩ <;> rfl
  · rintro (_ | _)
    · exact h.effect1
    · exact h.effect2

theorem Underway.arm {s u : State} {bf : Byte} {p q : Prop} (h : Underway (.start bf) s u p q)
    (a : AxisId) (hn : a.pick (¬p) (¬q)) (hb : requests s.cfg.wire bf a = true)
    (hr : (u.axis a).running = false) :
    Underway (.start bf) s (u.updAxis a Axis.arm) (a.pick True p) (a.pick q True) := by
  cases a
  · exact { h with
      frame := h.frame.updAxis _ _
      one := fun hp => absurd trivial hp
      effect1 := .start bf rfl hb _ (h.one hn) hr (.refl _ _) }
  · exact { h with
      frame := h.frame.updAxis _ _
      two := fun hp => absurd trivial hp
      effect2 := .start bf rfl hb _ (h.two hn) hr (.refl _ _) }

theorem Underway.halt {s u : State} {bf : Byte} {p q : Prop} (h : Underway (.stop bf) s u p q)
    (a : AxisId) (hn : a.pick (¬p) (¬q)) (hb : requests s.cfg.wire bf a = true) :
    Underway (.stop bf) s (u.updAxis a Axis.halt) (a.pick True p) (a.pick q True) := by
  cases a
  · exact { h with
      frame := h.frame.updAxis _ _
      one := fun hp => absurd trivial hp
      effect1 := .stop bf rfl hb _ (h.one hn) rfl }
  · exact { h with
      frame := h.frame.updAxis _ _
      two := fun hp => absurd trivial hp
      effect2 := .stop bf rfl hb _ (h.two hn) rfl }

theorem execStop_ends (bf : Byte) (s : State) :
    ∃ t, execStop bf s = .next t ∧ s.toggled.Ends (Executed (.stop bf) s) t := by
  refine ⟨_, rfl, ?_⟩
  refine requires_ends _ _ _ (fun _ => .quiet (.refl _ _) _ _ (by simp)) fun _ => ?_
  have fin : ∀ (u : State) (p q : Prop), Underway (.stop bf) s u p q →
      u.Ends (Executed (.stop bf) s) ((succeeds []).run u) :=
    fun u p q h => .inr (h.executed (.inr ⟨bf, rfl⟩))
  have two : ∀ (u : State) (p : Prop), Underway (.stop bf) s u p False →
      u.Ends (Executed (.stop bf) s) ((writesIf (requests s.cfg.wire bf .two)
        (.running .two false) (succeeds [])).run u) := by
    intro u p h
    cases hb : requests s.cfg.wire bf .two with
    | false => exact fin u _ _ h
    | true =>
      refine writes_ends _ _ u fun v hv => ?_
      exact fin _ _ _ ((h.resume hv).halt .two id hb)
  have one : ∀ u : State, Underway (.stop bf) s u False False →
      u.Ends (Executed (.stop bf) s) ((writesIf (requests s.cfg.wire bf .one)
        (.running .one false) (writesIf (requests s.cfg.wire bf .two)
        (.running .two false) (succeeds []))).run u) := by
    intro u h
    cases hb : requests s.cfg.wire bf .one with
    | false => exact two u _ h
    | true =>
      refine writes_ends _ _ u fun v hv => ?_
      exact two _ _ ((h.resume hv).halt .one id hb)
  cases requests s.cfg.wire bf .one && requests s.cfg.wire bf .two with
  | false => exact one _ (.ofResumed (.refl _ _))
  | true =>
    refine writes_ends _ _ s.toggled fun v hv => ?_
    exact one _ ((Underway.ofResumed hv).flag false)

theorem execStart_ends (bf : Byte) (s : State) :
    ∃ t, execStart bf s = .next t ∧ s.toggled.Ends (Executed (.start bf) s) t := by
  refine ⟨_, rfl, ?_⟩
  refine requires_ends _ _ _ (fun _ => .quiet (.refl _ _) _ _ (by simp)) fun _ => ?_
  refine readsBit_ends _ _ _ fun t1 h1 => readsBit_ends _ _ _ fun t2 h2 => ?_
  have h12 := State.Resumed.trans h1 h2
  refine requires_ends _ _ _ (fun _ => .quiet h12 _ _ (by simp)) fun hreq => ?_
  -- a requested axis was idle when it was read, and so it is now
  have idle1 : requests s.cfg.wire bf .one = true → (t2.axis .one).running = false := by
    intro hb
    have : (t1.axis .one).running = false := by
      cases hr : (t1.axis .one).running <;> simp_all
    rw [(h2.axes .one).idle this, this]
  have idle2 : requests s.cfg.wire bf .two = true → (t2.axis .two).running = false := by
    intro hb
    cases hr : (t2.axis .two).running <;> simp_all
  have fin : ∀ (u : State) (p q : Prop), Underway (.start bf) s u p q →
      u.Ends (Executed (.start bf) s) ((writes (.anyAxisRunning true) (succeeds [])).run u) := by
    intro u p q h
    refine writes_ends _ _ u fun v hv => .inr ?_
    exact ((h.resume hv).flag true).executed (.inl ⟨bf, rfl⟩)
  have two : ∀ (u : State) (p : Prop), Underway (.start bf) s u p False →
      (requests s.cfg.wire bf .two = true → (u.axis .two).running = false) →
      u.Ends (Executed (.start bf) s) ((writesIf (requests s.cfg.wire bf .two)
        (.delayCounter .two 0) (writesIf (requests s.cfg.wire bf .two)
        (.running .two true) (writes (.anyAxisRunning true) (succeeds [])))).run u) := by
    intro u p h hi
    refine arm_ends _ .two _ u hi (fun _ => fin u _ _ h) fun hb v hv hr => ?_
    exact fin _ _ _ ((h.resume hv).arm .two id hb hr)
  have one : ∀ u : State, Underway (.start bf) s u False False →
      (requests s.cfg.wire bf .one = true → (u.axis .one).running = false) →
      (requests s.cfg.wire bf .two = true → (u.axis .two).running = false) →
      u.Ends (Executed (.start bf) s) ((writesIf (requests s.cfg.wire bf .one)
        (.delayCounter .one 0) (writesIf (requests s.cfg.wire bf .one)
        (.running .one true) (writesIf (requests s.cfg.wire bf .two)
        (.delayCounter .two 0) (writesIf (requests s.cfg.wire bf .two)
        (.running .two true) (writes (.anyAxisRunning true) (succeeds [])))))).run u) := by
    intro u h hi1 hi2
    refine arm_ends _ .one _ u hi1 (fun _ => two u _ h hi2) fun hb v hv hr => ?_
    refine two _ _ ((h.resume hv).arm .one id hb hr) fun hb2 => ?_
    change (v.axis .two).running = false
    rw [(hv.axes .two).idle (hi2 hb2), hi2 hb2]
  have hu : Underway (.start bf) s t2 False False := .ofResumed h12
  generalize (!(t1.get (.running .one) != 0) && !(t2.get (.running .two) != 0)) = c
  cases c with
  | false => exact one _ hu idle1 idle2
  | true =>
    refine writes_ends _ _ t2 fun v hv => ?_
    refine one _ ((hu.resume hv).flag false) (fun hb => ?_) (fun hb => ?_)
    · change (v.axis .one).running = false
      rw [(hv.axes .one).idle (idle1 hb), idle1 hb]
    · change (v.axis .two).running = false
      rw [(hv.axes .two).idle (idle2 hb), idle2 hb]

/-- Everything a command can do: it answers a next state, in which a `RESET` has restarted the machine or
which is as `Executed` says. -/
theorem exec_ends (i : Instr) (s : State) :
    ∃ t, exec i s = .next t ∧ s.toggled.Ends (Executed i s) t := by
  cases i with
  | setSteps axis count => exact execSetSteps_ends s axis count
  | setSafeSteps axis count => exact execSetSafeSteps_ends s axis count
  | setSeek axis => exact execSetSeek_ends s axis
  | start bf => exact execStart_ends bf s
  | stop bf => exact execStop_ends bf s
  | getMoving axis => exact ⟨_, rfl, query_ends (.getMoving axis) axis _ _ s fun _ => rfl⟩
  | setEnable axis en => exact execSetEnable_ends s axis en
  | getEnable axis => exact ⟨_, rfl, query_ends (.getEnable axis) axis _ _ s fun _ => rfl⟩
  | setMicrosteps axis mode => exact execSetMicrosteps_ends s axis mode
  | getMicrosteps axis => exact ⟨_, rfl, query_ends (.getMicrosteps axis) axis _ _ s fun _ => rfl⟩
  | setDirection axis dir => exact execSetDirection_ends s axis dir
  | getDirection axis => exact ⟨_, rfl, query_ends (.getDirection axis) axis _ _ s fun _ => rfl⟩
  | setCurrent axis value => exact execSetCurrent_ends s axis value
  | getCurrent axis => exact ⟨_, rfl, query_ends (.getCurrent axis) axis _ _ s fun _ => rfl⟩
  | setStepDelay axis ticks => exact execSetStepDelay_ends s axis ticks
  | getStepDelay axis => exact ⟨_, rfl, query_ends (.getStepDelay axis) axis _ _ s fun _ => rfl⟩
  | getRelayStatus pair => exact ⟨_, rfl, query_ends (.getRelayStatus pair) pair _ _ s fun _ => rfl⟩
  | getVersion => exact ⟨_, rfl, .inr (.quiet (.refl _ _) _ _ fun _ => rfl)⟩

/-! ### With nothing scheduled -/

/-- With nothing scheduled a command leaves the inputs and the received bytes alone. -/
theorem exec_quietly (i : Instr) {s t : State} (hs : s.turns = []) (h : exec i s = .next t) :
    t.rx = s.rx ∧ t.txReady = s.txReady ∧ t.contacts1 = s.contacts1 ∧ t.contacts2 = s.contacts2
      ∧ t.turns = [] := by
  have go (k : Script) : ∀ s : State, s.turns = [] →
      (k.run s).rx = s.rx ∧ (k.run s).txReady = s.txReady ∧ (k.run s).contacts1 = s.contacts1
        ∧ (k.run s).contacts2 = s.contacts2 ∧ (k.run s).turns = [] := by
    induction k with
    | respond ok outs => exact fun s h => ⟨rfl, rfl, rfl, rfl, h⟩
    | read r k ih =>
      intro s h
      rw [Script.run, gap_empty _ s h]
      exact ih _ s h
    | write w k ih =>
      intro s h
      rw [Script.run, gap_empty _ s h]
      rcases s.put_cases w with ⟨a, f, e⟩ | ⟨v, e⟩ <;> rw [e] <;> exact ih _ h
  rw [exec_eq] at h
  cases h
  exact go _ s.toggled hs

end Sys2Proof.Machine
end

