-- ==== Sys2Proof/Laws/Framer.lean ====
section
/-! SUPPORT. What the framer and the transmission can change (44_framer_dispatch.md R190 to R202). -/

namespace Sys2Proof.Machine

variable (s : State) (b : Byte) (a : AxisId)

/-- One byte changes framer fields only. -/
theorem State.takeByte_frame : s.takeByte b = { s with
    fstate := (s.takeByte b).fstate, phase := (s.takeByte b).phase, opc := (s.takeByte b).opc
    pay := (s.takeByte b).pay, pidx := (s.takeByte b).pidx } := by
  simp only [State.takeByte, State.takeOpcode, State.takePayload]
  split
  · split <;> rfl
  · split <;> rfl
  · split <;> rfl
  · split <;> rfl
  · split <;> rfl
  · rfl

/-- A step in an `Await` state changes framer fields and takes a byte from `RX`. -/
theorem State.receive_frame : s.receive = { s with
    rx := s.rx.tail, fstate := s.receive.fstate, phase := s.receive.phase, opc := s.receive.opc
    pay := s.receive.pay, pidx := s.receive.pidx } := by
  unfold State.receive
  split
  · rename_i h
    rw [h, List.tail_nil, ← h]
  · rename_i b rest h
    rw [h, List.tail_cons]
    exact State.takeByte_frame _ b

/-- Transmission changes `TX`, the index, and after the last byte the framer's state. -/
theorem State.transmit_eq : s.transmit = { s with
    tx := if s.txReady then s.tx ++ [s.resp[s.tidx]?.getD s.cfg.poison] else s.tx
    tidx := if s.txReady then s.tidx + 1 else s.tidx
    fstate := if s.txReady && !decide (s.tidx + 1 < s.rlen) then .awaitStart else s.fstate
    phase := if s.txReady && !decide (s.tidx + 1 < s.rlen) then .operate else s.phase } := by
  obtain ⟨_, _, _, _, _, _, _, _, _, _, _, _, rlen, tidx, _, _, _, _, ready, _⟩ := s
  cases ready
  · rfl
  · by_cases h : tidx + 1 < rlen <;> simp [State.transmit, h]

@[simp] theorem State.receive_cfg : s.receive.cfg = s.cfg := by rw [State.receive_frame]
@[simp] theorem State.receive_axis : s.receive.axis a = s.axis a := by
  rw [State.receive_frame]; rfl
@[simp] theorem State.receive_turns : s.receive.turns = s.turns := by rw [State.receive_frame]
@[simp] theorem State.transmit_cfg : s.transmit.cfg = s.cfg := by rw [State.transmit_eq]
@[simp] theorem State.transmit_axis : s.transmit.axis a = s.axis a := by
  rw [State.transmit_eq]; rfl
@[simp] theorem State.transmit_turns : s.transmit.turns = s.turns := by rw [State.transmit_eq]

end Sys2Proof.Machine
end

