-- ==== Sys2Proof/Laws/PerInstr.lean ====
section
/-! SUPPORT. The statement made of every command as a piece of wire data: its payload has the length of its
operation's fields (30_encoding.md R88), its frame the request length of the default table (R86), and
the decoder reads the payload back (R89). -/

namespace Sys2Proof.Laws.WireLayout

def Statement (i : Instr) : Prop :=
  (encodePayload i).length = i.op.reqFields.sum
    ∧ (encode Config.default i).length = Config.default.reqPayload (Config.default.codeOf i.op) + 4
    ∧ i.wellFormed Config.default = true
    ∧ decodeOp i.op (payloadOfList (encodePayload i)) = i

theorem setSteps (axis : Byte) (count : Word) : Statement (.setSteps axis count) :=
  ⟨rfl, rfl, rfl, decodeOp_encodePayload _⟩

theorem setSafeSteps (axis : Byte) (count : Word) : Statement (.setSafeSteps axis count) :=
  ⟨rfl, rfl, rfl, decodeOp_encodePayload _⟩

theorem setSeek (axis : Byte) : Statement (.setSeek axis) := ⟨rfl, rfl, rfl, rfl⟩

theorem start (bf : Byte) : Statement (.start bf) := ⟨rfl, rfl, rfl, rfl⟩

theorem stop (bf : Byte) : Statement (.stop bf) := ⟨rfl, rfl, rfl, rfl⟩

theorem getMoving (axis : Byte) : Statement (.getMoving axis) := ⟨rfl, rfl, rfl, rfl⟩

theorem setEnable (axis en : Byte) : Statement (.setEnable axis en) := ⟨rfl, rfl, rfl, rfl⟩

theorem getEnable (axis : Byte) : Statement (.getEnable axis) := ⟨rfl, rfl, rfl, rfl⟩

theorem setMicrosteps (axis mode : Byte) : Statement (.setMicrosteps axis mode) := ⟨rfl, rfl, rfl, rfl⟩

theorem getMicrosteps (axis : Byte) : Statement (.getMicrosteps axis) := ⟨rfl, rfl, rfl, rfl⟩

theorem setDirection (axis dir : Byte) : Statement (.setDirection axis dir) := ⟨rfl, rfl, rfl, rfl⟩

theorem getDirection (axis : Byte) : Statement (.getDirection axis) := ⟨rfl, rfl, rfl, rfl⟩

theorem setCurrent (axis : Byte) (value : Half) : Statement (.setCurrent axis value) :=
  ⟨rfl, rfl, rfl, decodeOp_encodePayload _⟩

theorem getCurrent (axis : Byte) : Statement (.getCurrent axis) := ⟨rfl, rfl, rfl, rfl⟩

theorem setStepDelay (axis : Byte) (ticks : Half) : Statement (.setStepDelay axis ticks) :=
  ⟨rfl, rfl, rfl, decodeOp_encodePayload _⟩

theorem getStepDelay (axis : Byte) : Statement (.getStepDelay axis) := ⟨rfl, rfl, rfl, rfl⟩

theorem getRelayStatus (pair : Byte) : Statement (.getRelayStatus pair) := ⟨rfl, rfl, rfl, rfl⟩

theorem getVersion : Statement .getVersion := ⟨rfl, rfl, rfl, rfl⟩

end Sys2Proof.Laws.WireLayout
end

