-- ==== Sys2Proof/Laws/Progress.lean ====
section
/-! SUPPORT. What an operation in progress can be about to do, and that what it still writes keeps the
ownership discipline of 20_memory.md R68 whatever the other agents do meanwhile. -/

namespace Sys2Proof.Machine

/-! ### The operation in progress -/

theorem State.inProgress_access {s : State} {i : Instr} (hd : s.fstate = .dispatch)
    (hp : s.phase = .access) (hi : s.fetched = some i) :
    s.inProgress = some ((operationOf s.cfg i).resume s.seen) := by
  rw [State.inProgress, hd, hp, hi]

/-- Outside an operation nothing is in progress. -/
theorem State.inProgress_none {s : State} (h : s.fstate = .dispatch → s.phase ≠ .access) :
    s.inProgress = none := by
  unfold State.inProgress
  split
  · exact absurd ‹_› (h ‹_›)
  · rfl

theorem State.pending_none {s : State} (h : s.inProgress = none) : s.pending = [] := by
  rw [State.pending, h]

theorem State.Framed.fetched {s t : State} (h : s.Framed t) : t.fetched = s.fetched := by
  rw [State.fetched, State.fetched, h.cfg, h.opc, h.pay]

theorem State.Framed.inProgress {s t : State} (h : s.Framed t) : t.inProgress = s.inProgress := by
  unfold State.inProgress
  rw [h.fetched, h.fstate, h.phase, h.cfg, h.seen]

theorem State.Framed.pending {s t : State} (h : s.Framed t) : t.pending = s.pending := by
  rw [State.pending, State.pending, h.inProgress]

/-! ### The reads of an operation come first -/

/-- No read is left. -/
def Script.writesOnly : Script → Prop
  | .respond _ _ => True
  | .read _ _ => False
  | .write _ k => k.writesOnly

theorem Script.writesOnly.resume {k : Script} (h : k.writesOnly) (seen : List Half) :
    (k.resume seen).writesOnly := by
  induction seen generalizing k with
  | nil => exact h
  | cons v vs ih =>
    refine ih (k := k.next v) ?_
    cases k with
    | respond ok outs => exact h
    | read r k => exact h.elim
    | write w k => exact h

theorem Script.writesOnly.not_read {k : Script} (h : k.writesOnly) {seen : List Half} {r : Read}
    {k' : Half → Script} : k.resume seen ≠ .read r k' := fun e => by
  have := h.resume seen
  rw [e] at this
  exact this

/-- An operation of one read is before it or reads no more. -/
theorem Script.read_once {r r' : Read} {k k' : Half → Script} (h : ∀ v, (k v).writesOnly)
    {seen : List Half} (e : (Script.read r k).resume seen = .read r' k') :
    seen = [] ∧ r' = r ∧ k' = k := by
  cases seen with
  | nil => cases e; exact ⟨rfl, rfl, rfl⟩
  | cons v vs => exact absurd e (h v).not_read

theorem succeeds_writesOnly {outs : List Byte} : (succeeds outs).writesOnly := trivial

theorem writes_writesOnly {w : Write} {k : Script} (h : k.writesOnly) : (writes w k).writesOnly := h

theorem writesIf_writesOnly {c : Bool} {w : Write} {k : Script} (h : k.writesOnly) :
    (writesIf c w k).writesOnly := by
  cases c <;> exact h

theorem requires_writesOnly {c : Bool} {k : Script} (h : k.writesOnly) : (requires c k).writesOnly := by
  cases c
  · trivial
  · exact h

theorem decoded_writesOnly {α : Type} {v : Option α} {k : α → Script} (h : ∀ x, (k x).writesOnly) :
    (decoded v k).writesOnly := by
  cases v
  · trivial
  · exact h _

/-- Reads first, then writes. -/
def Script.orderly : Script → Prop
  | .respond _ _ => True
  | .read _ k => ∀ v, (k v).orderly
  | .write _ k => k.writesOnly

theorem Script.writesOnly.orderly {k : Script} (h : k.writesOnly) : k.orderly := by
  cases k with
  | respond ok outs => trivial
  | read r k => exact h.elim
  | write w k => exact h

theorem Script.orderly.resume {k : Script} (h : k.orderly) (seen : List Half) :
    (k.resume seen).orderly := by
  induction seen generalizing k with
  | nil => exact h
  | cons v vs ih =>
    refine ih (k := k.next v) ?_
    cases k with
    | respond ok outs => exact h
    | read r k => exact h v
    | write w k => exact Script.writesOnly.orderly h

theorem startOp_writesOnly (bf : Byte) (w : WireCodes) (r1 r2 : Bool) :
    (requires (!((requests w bf .one && r1) || (requests w bf .two && r2))) <|
      writesIf (!r1 && !r2) (.anyAxisRunning false) <|
      writesIf (requests w bf .one) (.delayCounter .one 0) <|
      writesIf (requests w bf .one) (.running .one true) <|
      writesIf (requests w bf .two) (.delayCounter .two 0) <|
      writesIf (requests w bf .two) (.running .two true) <|
      writes (.anyAxisRunning true) <|
      succeeds []).writesOnly :=
  requires_writesOnly <| writesIf_writesOnly <| writesIf_writesOnly <| writesIf_writesOnly <|
    writesIf_writesOnly <| writesIf_writesOnly <| writes_writesOnly succeeds_writesOnly

theorem stopOp_writesOnly (bf : Byte) (w : WireCodes) : (stopOp w bf).writesOnly :=
  requires_writesOnly <| writesIf_writesOnly <| writesIf_writesOnly <| writesIf_writesOnly
    succeeds_writesOnly

/-- Every operation reads first and then writes. -/
theorem operation_orderly (c : Config) (i : Instr) : (operationOf c i).orderly := by
  have axis {b : Byte} {k : AxisId → Script} (h : ∀ a, (k a).orderly) : (checkAxis b k).orderly := by
    unfold checkAxis decoded
    split
    · exact h _
    · trivial
  have idle {a : AxisId} {k : Script} (h : k.writesOnly) : (checkIdle a k).orderly :=
    fun v => (requires_writesOnly h).orderly
  cases i with
  | setSteps b count | setSafeSteps b count =>
    exact axis fun a => idle (writes_writesOnly (writes_writesOnly (writes_writesOnly
      succeeds_writesOnly)))
  | setSeek b => exact axis fun a => idle (writes_writesOnly (writes_writesOnly succeeds_writesOnly))
  | setEnable b x | setMicrosteps b x | setDirection b x =>
    exact axis fun a => idle (decoded_writesOnly fun _ => writes_writesOnly succeeds_writesOnly)
  | setCurrent b x | setStepDelay b x =>
    exact axis fun a => idle (requires_writesOnly (writes_writesOnly succeeds_writesOnly))
  | start bf =>
    change (requires (bitfieldOk c.wire bf) _).orderly
    cases bitfieldOk c.wire bf with
    | false => trivial
    | true => exact fun v1 v2 => (startOp_writesOnly bf c.wire (v1 != 0) (v2 != 0)).orderly
  | stop bf => exact (stopOp_writesOnly bf c.wire).orderly
  | getVersion => trivial
  | getMoving b | getEnable b | getMicrosteps b | getDirection b | getCurrent b | getStepDelay b
  | getRelayStatus b => exact axis fun a v => trivial

/-- After a write an operation reads no more. -/
theorem operation_writes {c : Config} {i : Instr} {seen : List Half} {w : Write} {k : Script}
    (e : (operationOf c i).resume seen = .write w k) : k.writesOnly := by
  have := (operation_orderly c i).resume seen
  rw [e] at this
  exact this

/-! ### What an operation can write -/

/-- Every write of the script, on every path, satisfies `P`. -/
def Script.every (P : Write → Prop) : Script → Prop
  | .respond _ _ => True
  | .read _ k => ∀ v, (k v).every P
  | .write w k => P w ∧ k.every P

theorem Script.every.resume {P : Write → Prop} {k : Script} (h : k.every P) (seen : List Half) :
    (k.resume seen).every P := by
  induction seen generalizing k with
  | nil => exact h
  | cons v vs ih =>
    refine ih (k := k.next v) ?_
    cases k with
    | respond ok outs => exact h
    | read r k => exact h v
    | write w k => exact h.2

section
variable {P : Write → Prop} {k : Script} {c : Bool} {w : Write}

theorem writesIf_every (hw : c = true → P w) (h : k.every P) : (writesIf c w k).every P := by
  cases c
  · exact h
  · exact ⟨hw rfl, h⟩

theorem requires_every (h : c = true → k.every P) : (requires c k).every P := by
  cases c
  · trivial
  · exact h rfl

theorem decoded_every {α : Type} {v : Option α} {k : α → Script}
    (h : ∀ x, v = some x → (k x).every P) : (decoded v k).every P := by
  cases v
  · trivial
  · exact h _ rfl

end

/-- The writes each command can make (R131 to R135, R151 to R159), whatever it reads. -/
inductive Writes (c : Config) : Instr → Write → Prop where
  | stepsCount (a : AxisId) (n : Word) : Writes c (.setSteps a.number n) (.remainingSteps a n)
  | stepsSafe (a : AxisId) (n : Word) : Writes c (.setSteps a.number n) (.safeMode a false)
  | stepsSeek (a : AxisId) (n : Word) : Writes c (.setSteps a.number n) (.seekUntilRelay a false)
  | safeCount (a : AxisId) (n : Word) : Writes c (.setSafeSteps a.number n) (.remainingSteps a n)
  | safeSafe (a : AxisId) (n : Word) : Writes c (.setSafeSteps a.number n) (.safeMode a true)
  | safeSeek (a : AxisId) (n : Word) : Writes c (.setSafeSteps a.number n) (.seekUntilRelay a false)
  | seekSafe (a : AxisId) : Writes c (.setSeek a.number) (.safeMode a true)
  | seekSeek (a : AxisId) : Writes c (.setSeek a.number) (.seekUntilRelay a true)
  | startCounter (a : AxisId) (bf : Byte) (h : requests c.wire bf a = true) :
      Writes c (.start bf) (.delayCounter a 0)
  | startRunning (a : AxisId) (bf : Byte) (h : requests c.wire bf a = true) :
      Writes c (.start bf) (.running a true)
  | startFlag (bf : Byte) (v : Bool) : Writes c (.start bf) (.anyAxisRunning v)
  | stopFlag (bf : Byte) : Writes c (.stop bf) (.anyAxisRunning false)
  | stopRunning (a : AxisId) (bf : Byte) (h : requests c.wire bf a = true) :
      Writes c (.stop bf) (.running a false)
  | enable (a : AxisId) (en : Byte) (v : Bool) (h : enableLineOf c.wire en = some v) :
      Writes c (.setEnable a.number en) (.nEN a v)
  | microsteps (a : AxisId) (mode : Byte) (v : BitVec 2) (h : microOf c.wire mode = some v) :
      Writes c (.setMicrosteps a.number mode) (.ms a v)
  | direction (a : AxisId) (dir : Byte) (v : Bool) (h : dirOf c.wire dir = some v) :
      Writes c (.setDirection a.number dir) (.dir a v)
  | current (a : AxisId) (value : Half) (h : value ≤ c.currentMax) :
      Writes c (.setCurrent a.number value) (.idac a value)
  | stepDelay (a : AxisId) (ticks : Half) (h : ticks < delaySentinel) :
      Writes c (.setStepDelay a.number ticks) (.delayTicks a ticks)

theorem operation_every (c : Config) (i : Instr) : (operationOf c i).every (Writes c i) := by
  have axis {P : Write → Prop} {b : Byte} {k : AxisId → Script}
      (h : ∀ a, b = a.number → (k a).every P) : (checkAxis b k).every P :=
    decoded_every fun a ha => h a (axisOf_some ha)
  have idle {P : Write → Prop} {a : AxisId} {k : Script} (h : k.every P) : (checkIdle a k).every P :=
    fun _ => requires_every fun _ => h
  cases i with
  | setSteps b n =>
    exact axis fun a e => by subst e; exact idle ⟨.stepsCount a n, .stepsSafe a n, .stepsSeek a n, trivial⟩
  | setSafeSteps b n =>
    exact axis fun a e => by subst e; exact idle ⟨.safeCount a n, .safeSafe a n, .safeSeek a n, trivial⟩
  | setSeek b => exact axis fun a e => by subst e; exact idle ⟨.seekSafe a, .seekSeek a, trivial⟩
  | setEnable b en =>
    exact axis fun a e => by subst e; exact idle (decoded_every fun v hv => ⟨.enable a en v hv, trivial⟩)
  | setMicrosteps b mode =>
    exact axis fun a e => by
      subst e; exact idle (decoded_every fun v hv => ⟨.microsteps a mode v hv, trivial⟩)
  | setDirection b dir =>
    exact axis fun a e => by
      subst e; exact idle (decoded_every fun v hv => ⟨.direction a dir v hv, trivial⟩)
  | setCurrent b value =>
    exact axis fun a e => by
      subst e; exact idle (requires_every fun hv => ⟨.current a value (of_decide_eq_true hv), trivial⟩)
  | setStepDelay b ticks =>
    exact axis fun a e => by
      subst e; exact idle (requires_every fun hv => ⟨.stepDelay a ticks (of_decide_eq_true hv), trivial⟩)
  | start bf =>
    refine requires_every fun _ v1 v2 => requires_every fun _ => ?_
    exact writesIf_every (fun _ => .startFlag bf false) <|
      writesIf_every (.startCounter .one bf) <| writesIf_every (.startRunning .one bf) <|
      writesIf_every (.startCounter .two bf) <| writesIf_every (.startRunning .two bf)
      ⟨.startFlag bf true, trivial⟩
  | stop bf =>
    exact requires_every fun _ => writesIf_every (fun _ => .stopFlag bf) <|
      writesIf_every (.stopRunning .one bf) <| writesIf_every (.stopRunning .two bf) trivial
  | getVersion => trivial
  | getMoving b | getEnable b | getMicrosteps b | getDirection b | getCurrent b | getStepDelay b
  | getRelayStatus b => exact axis fun a _ v => trivial

/-- The access an operation is about to make, when it is a write. -/
theorem operation_write {c : Config} {i : Instr} {seen : List Half} {w : Write} {k : Script}
    (e : (operationOf c i).resume seen = .write w k) : Writes c i w := by
  have := (operation_every c i).resume seen
  rw [e] at this
  exact this.1

/-! ### The discipline outlives the turns of the other agents -/

/-- `t` is as good as `s` for the writes still to come: an idle axis is as it was, and any axis has the
settings it had. -/
def State.Yields (s t : State) : Prop :=
  t.cfg = s.cfg ∧ ∀ a, ((s.axis a).running = false → t.axis a = s.axis a)
    ∧ (s.axis a).sameSettings (t.axis a)

/-- Only the axes and the configuration matter. -/
theorem State.Yields.ofAxes {s t : State} (hc : t.cfg = s.cfg) (ha : ∀ a, t.axis a = s.axis a) :
    s.Yields t :=
  ⟨hc, fun a => ⟨fun _ => ha a, by rw [ha a]; exact ⟨rfl, rfl, rfl, rfl, rfl, rfl, rfl⟩⟩⟩

/-- Ticks and host actions yield. -/
theorem State.Interleaved.yields {n : Prop} {s t : State} (h : s.Interleaved n t) : s.Yields t :=
  ⟨h.cfg, fun a => ⟨(h.axes a).idle, (h.axes a).sameSettings⟩⟩

theorem State.Yields.updAxis {s t : State} (h : s.Yields t) (a : AxisId) (f : Axis → Axis)
    (hs : (s.axis a).running = false) : (s.updAxis a f).Yields (t.updAxis a f) := by
  refine ⟨h.1, fun b => ?_⟩
  rw [State.updAxis_axis, State.updAxis_axis]
  split
  · rename_i e
    subst e
    rw [(h.2 b).1 hs]
    exact ⟨fun _ => rfl, rfl, rfl, rfl, rfl, rfl, rfl, rfl⟩
  · exact h.2 b

/-- What STOP has left to write asks nothing of the state. -/
theorem mayFinish_stops {ws : List Write} (h : ws.all Write.stops = true) (s : State) :
    s.mayFinish ws = true := by
  induction ws generalizing s with
  | nil => rfl
  | cons w ws ih =>
    rw [List.all_cons, Bool.and_eq_true] at h
    cases w with
    | running a v =>
      cases v with
      | false => simp [State.mayFinish, State.mayWrite, h.2, ih h.2]
      | true => cases h.1
    | _ => cases h.1

theorem State.Yields.mayFinish {s t : State} (h : s.Yields t) {ws : List Write}
    (hs : s.mayFinish ws = true) : t.mayFinish ws = true := by
  induction ws generalizing s t with
  | nil => rfl
  | cons w ws ih =>
    rw [State.mayFinish, Bool.and_eq_true] at hs ⊢
    obtain ⟨hw, hs⟩ := hs
    have go (a : AxisId) (f : Axis → Axis) (e : ∀ u : State, u.put w = u.updAxis a f)
        (hr : (s.axis a).running = false) (hm : t.mayWrite ws w = s.mayWrite ws w) :
        t.mayWrite ws w = true ∧ (t.put w).mayFinish ws = true := by
      rw [e] at hs ⊢
      exact ⟨hm.trans hw, ih (h.updAxis a f hr) hs⟩
    have idle {a : AxisId} (hr : (s.axis a).running = false) : t.axis a = s.axis a := (h.2 a).1 hr
    cases w with
    | anyAxisRunning v => exact ⟨rfl, ih (s := s.put (.anyAxisRunning v)) h hs⟩
    | running a v =>
      cases v with
      | false =>
        have hw : ws.all Write.stops = true := hw
        exact ⟨hw, mayFinish_stops hw _⟩
      | true =>
        have hr : (s.axis a).running = false := by
          simp only [State.mayWrite, State.running, if_true, Bool.and_eq_true, Bool.not_eq_true'] at hw
          exact hw.1
        exact go a _ (State.put_running · _ _) hr (by simp [State.mayWrite, State.running, idle hr])
    | remainingSteps a v =>
      have hr : (s.axis a).running = false := by simpa [State.mayWrite, State.running] using hw
      exact go a _ (State.put_remainingSteps · _ _) hr (by simp [State.mayWrite, State.running, idle hr])
    | delayTicks a v =>
      have hr : (s.axis a).running = false := by
        simp only [State.mayWrite, State.running, Bool.and_eq_true, Bool.not_eq_true'] at hw
        exact hw.1
      exact go a _ (State.put_delayTicks · _ _) hr (by simp [State.mayWrite, State.running, idle hr])
    | delayCounter a v =>
      have hr : (s.axis a).running = false := by simpa [State.mayWrite, State.running] using hw
      exact go a _ (State.put_delayCounter · _ _) hr (by simp [State.mayWrite, State.running, idle hr])
    | seekUntilRelay a v =>
      have hr : (s.axis a).running = false := by
        simp only [State.mayWrite, State.running, Bool.and_eq_true, Bool.not_eq_true'] at hw
        exact hw.1
      exact go a _ (State.put_seekUntilRelay · _ _) hr (by simp [State.mayWrite, State.running, idle hr])
    | safeMode a v =>
      have hr : (s.axis a).running = false := by
        simp only [State.mayWrite, State.running, Bool.and_eq_true, Bool.not_eq_true'] at hw
        exact hw.1
      exact go a _ (State.put_safeMode · _ _) hr (by simp [State.mayWrite, State.running, idle hr])
    | nEN a v =>
      have hr : (s.axis a).running = false := by simpa [State.mayWrite, State.running] using hw
      exact go a _ (State.put_nEN · _ _) hr (by simp [State.mayWrite, State.running, idle hr])
    | dir a v =>
      have hr : (s.axis a).running = false := by simpa [State.mayWrite, State.running] using hw
      exact go a _ (State.put_dir · _ _) hr (by simp [State.mayWrite, State.running, idle hr])
    | ms a v =>
      have hr : (s.axis a).running = false := by simpa [State.mayWrite, State.running] using hw
      exact go a _ (State.put_ms · _ _) hr (by simp [State.mayWrite, State.running, idle hr])
    | idac a v =>
      have hr : (s.axis a).running = false := by
        simp only [State.mayWrite, State.running, Bool.and_eq_true, Bool.not_eq_true'] at hw
        exact hw.1
      exact go a _ (State.put_idac · _ _) hr (by simp [State.mayWrite, State.running, idle hr, h.1])

/-! ### The discipline holds once the reads are done -/

/-- The operations that begin with a write (STOP) or with none keep the discipline from anywhere. -/
theorem operation_begins (c : Config) (i : Instr) (s : State) :
    s.mayFinish (operationOf c i).pending = true := by
  have axis (b : Byte) (k : AxisId → Script) (h : ∀ a, (k a).pending = []) :
      s.mayFinish (checkAxis b k).pending = true := by
    unfold checkAxis decoded
    split
    · rw [h]; rfl
    · rfl
  cases i with
  | start bf =>
    change s.mayFinish (requires _ _).pending = true
    cases bitfieldOk c.wire bf <;> rfl
  | stop bf =>
    change s.mayFinish (requires _ _).pending = true
    cases bitfieldOk c.wire bf with
    | false => rfl
    | true =>
      cases requests c.wire bf .one <;> cases requests c.wire bf .two <;> rfl
  | getVersion => rfl
  | _ => exact axis _ _ fun _ => rfl

/-- After a read of an axis's idleness, a setter keeps the discipline. -/
theorem setter_reads {s : State} {a : AxisId} {w : Script} (hw : w.writesOnly)
    (h : (s.axis a).running = false → s.mayFinish w.pending = true) {seen : List Half} {r : Read}
    {k : Half → Script} (e : (checkIdle a w).resume seen = .read r k) :
    s.mayFinish (k (s.get r)).pending = true ∧ ∀ r' k', k (s.get r) ≠ .read r' k' := by
  obtain ⟨-, rfl, rfl⟩ := Script.read_once (fun v => requires_writesOnly hw) e
  have hn : ∀ b, (requires b w).writesOnly := fun b => requires_writesOnly hw
  refine ⟨?_, fun r' k' e => (hn _).not_read (seen := []) e⟩
  change s.mayFinish (requires (!(s.get (.running a) != 0)) w).pending = true
  rw [State.get_running, bitValue_ne_zero]
  cases hr : (s.axis a).running with
  | true => rfl
  | false => exact h hr

/-- A query reads once and writes nothing. -/
theorem query_reads {s : State} {r' : Read} {g : Half → List Byte} {seen : List Half} {r : Read}
    {k : Half → Script} (e : (Script.read r' fun v => succeeds (g v)).resume seen = .read r k) :
    s.mayFinish (k (s.get r)).pending = true ∧ ∀ r' k', k (s.get r) ≠ .read r' k' := by
  obtain ⟨-, rfl, rfl⟩ := Script.read_once (fun _ => succeeds_writesOnly) e
  exact ⟨rfl, nofun⟩

/-- START's writes keep the discipline when each requested axis was read idle. -/
theorem start_arms (s : State) (r1 : Bool) (h : r1 = false → s.axis1.running = false)
    (c q1 q2 : Bool) (h1 : (q1 && r1) = false) (h2 : (q2 && (s.axis .two).running) = false) :
    s.mayFinish (writesIf c (.anyAxisRunning false) <| writesIf q1 (.delayCounter .one 0) <|
      writesIf q1 (.running .one true) <| writesIf q2 (.delayCounter .two 0) <|
      writesIf q2 (.running .two true) <| writes (.anyAxisRunning true) <|
      succeeds []).pending = true := by
  have z : ∀ v : Half, 0 ≤ v := fun v => by bv_omega
  cases c <;> cases q1 <;> cases q2 <;>
    simp_all [writes, succeeds, Script.pending, State.mayFinish, State.mayWrite, State.running,
      State.updAxis, State.axis, AxisId.pick]

/-- An operation about to read keeps the discipline with whatever it reads, and START's first read is
followed by its second. -/
theorem operation_reads {i : Instr} {s : State} {seen : List Half} {r : Read} {k : Half → Script}
    (e : (operationOf s.cfg i).resume seen = .read r k)
    (h : ∀ v, r = .running .two → seen = [v] → v ≠ 0 ∨ s.axis1.running = false) :
    s.mayFinish (k (s.get r)).pending = true
      ∧ ∀ r' k', k (s.get r) = .read r' k' → seen = [] ∧ (s.get r ≠ 0 ∨ s.axis1.running = false) := by
  have axis (b : Byte) (op : AxisId → Script) (he : (checkAxis b op).resume seen = .read r k)
      (ho : ∀ a, (op a).resume seen = .read r k →
        s.mayFinish (k (s.get r)).pending = true ∧ ∀ r' k', k (s.get r) ≠ .read r' k') :
      s.mayFinish (k (s.get r)).pending = true
        ∧ ∀ r' k', k (s.get r) = .read r' k' → seen = [] ∧ (s.get r ≠ 0 ∨ s.axis1.running = false) := by
    cases ha : axisOf b with
    | none =>
      rw [checkAxis, ha] at he
      exact absurd he (Script.writesOnly.not_read (k := fails) trivial)
    | some a =>
      rw [checkAxis, ha] at he
      obtain ⟨h1, h2⟩ := ho a he
      exact ⟨h1, fun r' k' e => absurd e (h2 r' k')⟩
  cases i with
  | setSteps b count =>
    refine axis b _ e fun a => setter_reads (writes_writesOnly (writes_writesOnly (writes_writesOnly
      succeeds_writesOnly))) fun hr => ?_
    simp [writes, succeeds, Script.pending, State.mayFinish, State.mayWrite, State.running, hr]
  | setSafeSteps b count =>
    refine axis b _ e fun a => setter_reads (writes_writesOnly (writes_writesOnly (writes_writesOnly
      succeeds_writesOnly))) fun hr => ?_
    simp [writes, succeeds, Script.pending, State.mayFinish, State.mayWrite, State.running, hr]
  | setSeek b =>
    refine axis b _ e fun a => setter_reads (writes_writesOnly (writes_writesOnly succeeds_writesOnly))
      fun hr => ?_
    simp [writes, succeeds, Script.pending, State.mayFinish, State.mayWrite, State.running, hr]
  | setEnable b en =>
    refine axis b _ e fun a => setter_reads (decoded_writesOnly fun _ =>
      writes_writesOnly succeeds_writesOnly) fun hr => ?_
    cases enableLineOf s.cfg.wire en with
    | none => rfl
    | some v => simp [writes, succeeds, Script.pending, State.mayFinish, State.mayWrite, State.running, hr]
  | setMicrosteps b mode =>
    refine axis b _ e fun a => setter_reads (decoded_writesOnly fun _ =>
      writes_writesOnly succeeds_writesOnly) fun hr => ?_
    cases microOf s.cfg.wire mode with
    | none => rfl
    | some v => simp [writes, succeeds, Script.pending, State.mayFinish, State.mayWrite, State.running, hr]
  | setDirection b dir =>
    refine axis b _ e fun a => setter_reads (decoded_writesOnly fun _ =>
      writes_writesOnly succeeds_writesOnly) fun hr => ?_
    cases dirOf s.cfg.wire dir with
    | none => rfl
    | some v => simp [writes, succeeds, Script.pending, State.mayFinish, State.mayWrite, State.running, hr]
  | setCurrent b value =>
    refine axis b _ e fun a => setter_reads (requires_writesOnly
      (writes_writesOnly succeeds_writesOnly)) fun hr => ?_
    by_cases hv : value ≤ s.cfg.currentMax <;>
      simp [hv, writes, fails, succeeds, Script.pending, State.mayFinish, State.mayWrite, State.running, hr]
  | setStepDelay b ticks =>
    refine axis b _ e fun a => setter_reads (requires_writesOnly
      (writes_writesOnly succeeds_writesOnly)) fun hr => ?_
    by_cases hv : ticks < delaySentinel
    · have : ticks ≠ delaySentinel := fun h => by rw [h] at hv; exact absurd hv (by decide)
      simp [hv, this, writes, succeeds, Script.pending, State.mayFinish, State.mayWrite, State.running, hr]
    · simp [hv, fails, Script.pending, State.mayFinish]
  | getMoving b => exact axis b _ e fun a => query_reads
  | getEnable b => exact axis b _ e fun a => query_reads
  | getMicrosteps b => exact axis b _ e fun a => query_reads
  | getDirection b => exact axis b _ e fun a => query_reads
  | getCurrent b => exact axis b _ e fun a => query_reads
  | getStepDelay b => exact axis b _ e fun a => query_reads
  | getRelayStatus b => exact axis b _ e fun a => query_reads
  | getVersion => exact absurd e (succeeds_writesOnly.not_read)
  | stop bf => exact absurd e (stopOp_writesOnly bf s.cfg.wire).not_read
  | start bf =>
    change (requires (bitfieldOk s.cfg.wire bf) _).resume seen = _ at e
    cases hb : bitfieldOk s.cfg.wire bf with
    | false =>
      rw [hb] at e
      exact absurd e (Script.writesOnly.not_read (k := fails) trivial)
    | true =>
      rw [hb] at e
      match seen with
      | [] =>
        cases e
        refine ⟨rfl, fun r' k' _ => ⟨rfl, ?_⟩⟩
        cases hr : s.axis1.running <;> simp [hr]
      | [v] =>
        cases e
        have h := h v rfl rfl
        refine ⟨?_, fun r' k' e => ?_⟩
        · change s.mayFinish (requires (!((_ && (v != 0)) || (_ && (s.get (.running .two) != 0)))) _).pending
            = true
          rw [State.get_running, bitValue_ne_zero]
          have arms := start_arms s (v != 0) (fun hv => h.resolve_left (by simpa using hv))
          cases h1 : requests s.cfg.wire bf .one && (v != 0) with
          | true => rfl
          | false =>
            cases h2 : requests s.cfg.wire bf .two && (s.axis .two).running with
            | true => rfl
            | false => exact arms _ _ _ h1 h2
        · exact absurd e ((startOp_writesOnly bf s.cfg.wire _ _).not_read (seen := []))
      | v :: v' :: vs => exact absurd e ((startOp_writesOnly bf s.cfg.wire _ _).not_read (seen := vs))

/-! ### The invariant -/

/-- The schedule is no part of the invariant. -/
theorem State.inv_turns (s : State) (ts : List Turn) : ({ s with turns := ts } : State).inv = s.inv := by
  have m : ({ s with turns := ts } : State).mayFinish s.pending = s.mayFinish s.pending :=
    Bool.eq_iff_iff.mpr
      ⟨(State.Yields.ofAxes (s := { s with turns := ts }) (t := s) rfl fun _ => rfl).mayFinish,
        (State.Yields.ofAxes (s := s) (t := { s with turns := ts }) rfl fun _ => rfl).mayFinish⟩
  change (_ && _ && _ && _ && (({ s with turns := ts } : State).mayFinish s.pending && _)) = _
  rw [m]
  rfl

/-- Outside an operation the invariant is that of the two axes and the framer. -/
theorem State.inv_outside {s : State} (h : s.inProgress = none) :
    s.inv = (s.cfg.valid && s.axis1.ok s.cfg && s.axis2.ok s.cfg && s.framerOk) := by
  simp [State.inv, State.axisOk, State.operationOk, h, State.pending_none h, State.mayFinish, Axis.ok]

end Sys2Proof.Machine
end

