-- ==== Sys2Proof/Laws/Step.lean ====
section
/-! SUPPORT. What one step is: by whose turn it is, and for the command agent by where it stands; runs; and that
the single steps of an operation make up its meaning. -/

namespace Sys2Proof.Machine

variable (s : State)

/-- With nothing scheduled the command agent moves. -/
theorem step_empty (h : s.turns = []) : step s = agentStep s := by
  simp [step, State.nextTurn, h]

/-- The command agent's turn. -/
theorem step_command {ts : List Turn} (h : s.turns = .command :: ts) :
    step s = agentStep { s with turns := ts } := by
  simp [step, State.nextTurn, h]

/-- A whole operation's turn. -/
theorem step_operation {ts : List Turn} (h : s.turns = .operation :: ts) :
    step s = operationStep { s with turns := ts } := by
  simp [step, State.nextTurn, h]

/-- A turn of the tick agent or of the host. -/
theorem step_turn {t : Turn} {ts : List Turn} (h : s.turns = t :: ts) (ht : t ≠ .command)
    (ho : t ≠ .operation) : step s = .next ({ s with turns := ts }.hostTurn t) := by
  cases t <;> simp_all [step, State.nextTurn]

theorem agentStep_await (h : s.fstate ≠ .dispatch) : agentStep s = .next s.receive := by
  unfold agentStep; split <;> simp_all

/-- The first step of an operation. -/
theorem agentStep_operate {i : Instr} (h : s.fstate = .dispatch) (hp : s.phase = .operate)
    (hi : s.fetched = some i) : agentStep s = .next ((operationOf s.cfg i).start s) := by
  rw [agentStep, h, hp]
  simp only
  rw [hi]

/-- One access of an operation. -/
theorem agentStep_access {i : Instr} (h : s.fstate = .dispatch) (hp : s.phase = .access)
    (hi : s.fetched = some i) :
    agentStep s = .next (((operationOf s.cfg i).resume s.seen).access s) := by
  rw [agentStep, h, hp]
  simp only
  rw [hi]

theorem agentStep_transmit (h : s.fstate = .dispatch) (hp : s.phase = .transmit) :
    agentStep s = .next s.transmit := by rw [agentStep, h, hp]

/-- A whole operation. -/
theorem operationStep_operate {i : Instr} (h : s.fstate = .dispatch) (hp : s.phase = .operate)
    (hi : s.fetched = some i) : operationStep s = exec i s := by rw [operationStep, h, hp, hi]

/-- Anywhere else a whole operation's turn is a single step's. -/
theorem operationStep_cases :
    operationStep s = agentStep s
    ∨ (s.fstate = .dispatch ∧ s.phase = .operate ∧ ∃ i, s.fetched = some i ∧ operationStep s = exec i s) := by
  unfold operationStep
  split
  · rename_i h1 h2 h3
    exact .inr ⟨h1, h2, _, h3, rfl⟩
  · exact .inl rfl

/-- Everything a single step of the command agent can do that answers a next state. -/
theorem agentStep_cases {t : State} (h : agentStep s = .next t) :
    (s.fstate ≠ .dispatch ∧ t = s.receive)
    ∨ (s.fstate = .dispatch ∧ s.phase = .operate
        ∧ ∃ i, s.fetched = some i ∧ t = (operationOf s.cfg i).start s)
    ∨ (s.fstate = .dispatch ∧ s.phase = .access
        ∧ ∃ i, s.fetched = some i ∧ t = ((operationOf s.cfg i).resume s.seen).access s)
    ∨ (s.fstate = .dispatch ∧ s.phase = .transmit ∧ t = s.transmit) := by
  unfold agentStep at h
  split at h
  · rename_i hd hp
    split at h
    · cases h; exact .inr (.inl ⟨hd, hp, _, ‹_›, rfl⟩)
    · cases h
  · rename_i hd hp
    split at h
    · cases h; exact .inr (.inr (.inl ⟨hd, hp, _, ‹_›, rfl⟩))
    · cases h
  · rename_i hd hp
    cases h
    exact .inr (.inr (.inr ⟨hd, hp, rfl⟩))
  · cases h
    refine .inl ⟨fun hd => ?_, rfl⟩
    cases hp : s.phase <;> simp_all

/-- What a single step of the command agent does to an axis: nothing, or the one write that the operation in
progress has come to. -/
theorem agentStep_axis {t : State} (a : AxisId) (h : agentStep s = .next t) :
    t.axis a = s.axis a
    ∨ (s.fstate = .dispatch ∧ s.phase = .access ∧ ∃ i w k, s.fetched = some i
        ∧ (operationOf s.cfg i).resume s.seen = .write w k ∧ t.axis a = (s.put w).axis a) := by
  have pause (k : Script) (seen : List Half) (u : State) : (k.pause seen u).axis a = u.axis a := by
    cases k <;> rfl
  rcases agentStep_cases s h with ⟨_, rfl⟩ | ⟨_, _, i, _, rfl⟩ | ⟨hd, hp, i, hi, rfl⟩ | ⟨_, _, rfl⟩
  · exact .inl (by simp)
  · exact .inl (pause _ [] s.toggled)
  · generalize hk : (operationOf s.cfg i).resume s.seen = k
    cases k with
    | respond ok outs => exact .inl rfl
    | read r k => exact .inl (pause _ _ s)
    | write w k => exact .inr ⟨hd, hp, i, w, k, hi, hk, pause _ _ (s.put w)⟩
  · exact .inl (by simp)

/-- No single step of the command agent changes the configuration. -/
theorem agentStep_cfg {t : State} (h : agentStep s = .next t) : t.cfg = s.cfg := by
  have pause (k : Script) (seen : List Half) (u : State) : (k.pause seen u).cfg = u.cfg := by
    cases k <;> rfl
  rcases agentStep_cases s h with ⟨_, rfl⟩ | ⟨_, _, i, _, rfl⟩ | ⟨_, _, i, _, rfl⟩ | ⟨_, _, rfl⟩
  · simp
  · exact pause _ [] s.toggled
  · cases (operationOf s.cfg i).resume s.seen with
    | respond ok outs => rfl
    | read r k => exact pause _ _ s
    | write w k => exact (pause _ _ (s.put w)).trans (s.put_turns_cfg w).2
  · simp

/-- Everything a step can do that answers a next state: a turn of the tick agent or the host, a single step
of the command agent, or a whole operation, with the turn taken off the schedule. -/
theorem step_cases {t : State} (h : step s = .next t) :
    (∃ u ts, u ≠ .command ∧ u ≠ .operation ∧ s.turns = u :: ts ∧ t = { s with turns := ts }.hostTurn u)
    ∨ (∃ ts, ts <:+ s.turns ∧ agentStep { s with turns := ts } = .next t)
    ∨ ∃ ts i, s.turns = .operation :: ts ∧ s.fstate = .dispatch ∧ s.phase = .operate
        ∧ s.fetched = some i ∧ exec i { s with turns := ts } = .next t := by
  cases ht : s.turns with
  | nil =>
    rw [step_empty s ht] at h
    refine .inr (.inl ⟨[], List.suffix_rfl, ?_⟩)
    rwa [← ht]
  | cons u ts =>
    by_cases hu : u = .command
    · subst hu
      rw [step_command s ht] at h
      exact .inr (.inl ⟨ts, List.suffix_cons _ _, h⟩)
    by_cases ho : u = .operation
    · subst ho
      rw [step_operation s ht] at h
      rcases operationStep_cases { s with turns := ts } with e | ⟨h1, h2, i, h3, e⟩ <;> rw [e] at h
      · exact .inr (.inl ⟨ts, List.suffix_cons _ _, h⟩)
      · exact .inr (.inr ⟨ts, i, rfl, h1, h2, h3, h⟩)
    · rw [step_turn s ht hu ho] at h
      cases h
      exact .inl ⟨u, ts, hu, ho, rfl, rfl⟩

/-! ### Runs -/

/-- The host's run of this machine is `run`. -/
theorem core_run (n : Nat) (s : State) : Sys2Proof.core.run n s = run n s := by
  induction n generalizing s with
  | zero => rfl
  | succ n ih =>
    have key : ∀ o : Host.Outcome State Fault Refusal, step s = o →
        Sys2Proof.core.run (n + 1) s = run (n + 1) s := by
      intro o ho
      have hc : Sys2Proof.core.step s = o := ho
      rw [run, ho]
      refine Eq.trans (Host.Core.run.eq_2 Sys2Proof.core s n) ?_
      rw [hc]
      cases o with
      | next t => exact ih t
      | fault f => rfl
      | refused r => rfl
    exact key _ rfl

theorem run_succ (n : Nat) {t : State} (h : step s = .next t) : run (n + 1) s = run n t := by
  rw [run, h]

theorem run_add (m n : Nat) {t : State} (h : run m s = .next t) : run (m + n) s = run n t := by
  induction m generalizing s with
  | zero =>
    rw [Nat.zero_add]
    cases h
    rfl
  | succ m ih =>
    rw [Nat.add_right_comm, run]
    rw [run] at h
    split at h
    · exact ih _ h
    · cases h
    · cases h

/-- A byte received with nothing scheduled. -/
theorem step_receive {b : Byte} {rest : List Byte} (ht : s.turns = []) (hd : s.fstate ≠ .dispatch)
    (hr : s.rx = b :: rest) : step s = .next ({ s with rx := rest }.takeByte b) := by
  rw [step_empty s ht, agentStep_await s hd, State.receive, hr]

end Sys2Proof.Machine
end

