-- ==== Sys2Proof/Tests/Slice0.lean ====
section
/-! SUPPORT. Tests: the checks of WellFormed.lean on ill-formed terms, decodings of frames written out from
the encodings of opcode_table.json, single steps with the results of 95_test_vectors.md, and for each
statement with hypotheses a witness that meets them. -/

namespace Sys2Proof.Tests

open Sys2Proof.Machine

/-! ### Ill-formed configurations and commands are refused -/

theorem test_default_config_valid : Config.default.valid = true := by decide

theorem test_equal_end_tokens_refused :
    { Config.default with end2Token := 0x5A }.valid = false := by decide

theorem test_wrong_request_length_refused :
    { Config.default with table := ⟨.setSteps, 0x01, 8, 5⟩ :: defaultTable.tail }.valid = false := by
  decide

theorem test_wrong_response_length_refused :
    { Config.default with table := ⟨.setSteps, 0x01, 9, 4⟩ :: defaultTable.tail }.valid = false := by
  decide

theorem test_missing_operation_refused :
    { Config.default with table := defaultTable.tail }.valid = false := by decide

theorem test_repeated_operation_refused :
    { Config.default with table := ⟨.setSteps, 0x20, 9, 5⟩ :: defaultTable }.valid = false := by decide

theorem test_shared_opcode_refused :
    { Config.default with table := ⟨.setSteps, 0x02, 9, 5⟩ :: defaultTable.tail }.valid = false := by
  decide

theorem test_axis_bit_of_two_bits_refused :
    { Config.default with wire := { WireCodes.default with axis2Bit := 0x06 } }.valid = false := by
  decide

theorem test_axis_bit_zero_refused :
    { Config.default with wire := { WireCodes.default with axis1Bit := 0 } }.valid = false := by decide

theorem test_equal_axis_bits_refused :
    { Config.default with wire := { WireCodes.default with axis2Bit := 0x01 } }.valid = false := by
  decide

theorem test_shared_microstep_code_refused :
    { Config.default with wire := { WireCodes.default with half := 0x03 } }.valid = false := by decide

theorem test_shared_direction_code_refused :
    { Config.default with wire := { WireCodes.default with dirHigh := 0x00 } }.valid = false := by
  decide

theorem test_shared_enable_code_refused :
    { Config.default with wire := { WireCodes.default with enable := 0x00 } }.valid = false := by
  decide

theorem test_default_delay_zero_refused :
    { Config.default with defaultDelay := 0 }.valid = false := by decide

theorem test_default_delay_sentinel_refused :
    { Config.default with defaultDelay := 0xFFFF }.valid = false := by decide

theorem test_invalid_config_builds_no_machine :
    State.build { Config.default with defaultDelay := 0xFFFF } = none := by decide

theorem test_default_config_builds_the_machine : State.build Config.default = some State.reset := by
  decide

theorem test_command_without_row_not_well_formed :
    (Instr.setSteps 1 0).wellFormed { Config.default with table := defaultTable.tail } = false := by
  decide

/-! ### Frames written out from the encodings of opcode_table.json -/

theorem test_decode_setSteps : decodeFrame Config.default
    [0b10100101, 0b00000001, 0b00000010, 0b01111000, 0b01010110, 0b00110100, 0b00010010,
     0b01011010, 0b11000011] = .ok (.setSteps 2 0x12345678, []) := by rfl

theorem test_decode_setSafeSteps : decodeFrame Config.default
    [0b10100101, 0b00000010, 0b00000010, 0b11101000, 0b00000011, 0b00000000, 0b00000000,
     0b01011010, 0b11000011] = .ok (.setSafeSteps 2 1000, []) := by rfl

theorem test_decode_setSeek : decodeFrame Config.default
    [0b10100101, 0b00000011, 0b00000001, 0b01011010, 0b11000011] = .ok (.setSeek 1, []) := by rfl

theorem test_decode_start : decodeFrame Config.default
    [0b10100101, 0b00000100, 0b00000011, 0b01011010, 0b11000011] = .ok (.start 3, []) := by rfl

theorem test_decode_stop : decodeFrame Config.default
    [0b10100101, 0b00000101, 0b11111111, 0b01011010, 0b11000011] = .ok (.stop 255, []) := by rfl

theorem test_decode_getMoving : decodeFrame Config.default
    [0b10100101, 0b00000110, 0b00000001, 0b01011010, 0b11000011] = .ok (.getMoving 1, []) := by rfl

theorem test_decode_setEnable : decodeFrame Config.default
    [0b10100101, 0b00000111, 0b00000010, 0b00000001, 0b01011010, 0b11000011]
      = .ok (.setEnable 2 1, []) := by rfl

theorem test_decode_getEnable : decodeFrame Config.default
    [0b10100101, 0b00001000, 0b00000010, 0b01011010, 0b11000011] = .ok (.getEnable 2, []) := by rfl

theorem test_decode_setMicrosteps : decodeFrame Config.default
    [0b10100101, 0b00001001, 0b00000010, 0b00000011, 0b01011010, 0b11000011]
      = .ok (.setMicrosteps 2 3, []) := by rfl

theorem test_decode_getMicrosteps : decodeFrame Config.default
    [0b10100101, 0b00001010, 0b00000010, 0b01011010, 0b11000011] = .ok (.getMicrosteps 2, []) := by
  rfl

theorem test_decode_setDirection : decodeFrame Config.default
    [0b10100101, 0b00001011, 0b00000010, 0b00000001, 0b01011010, 0b11000011]
      = .ok (.setDirection 2 1, []) := by rfl

theorem test_decode_getDirection : decodeFrame Config.default
    [0b10100101, 0b00001100, 0b00000010, 0b01011010, 0b11000011] = .ok (.getDirection 2, []) := by rfl

theorem test_decode_setCurrent : decodeFrame Config.default
    [0b10100101, 0b00001101, 0b00000010, 0b11111111, 0b00001111, 0b01011010, 0b11000011]
      = .ok (.setCurrent 2 4095, []) := by rfl

theorem test_decode_getCurrent : decodeFrame Config.default
    [0b10100101, 0b00001110, 0b00000000, 0b01011010, 0b11000011] = .ok (.getCurrent 0, []) := by rfl

theorem test_decode_setStepDelay : decodeFrame Config.default
    [0b10100101, 0b00001111, 0b00000001, 0b10100101, 0b01011010, 0b01011010, 0b11000011]
      = .ok (.setStepDelay 1 0x5AA5, []) := by rfl

theorem test_decode_getStepDelay : decodeFrame Config.default
    [0b10100101, 0b00010000, 0b00001001, 0b01011010, 0b11000011] = .ok (.getStepDelay 9, []) := by rfl

theorem test_decode_getRelayStatus : decodeFrame Config.default
    [0b10100101, 0b00010001, 0b00000011, 0b01011010, 0b11000011] = .ok (.getRelayStatus 3, []) := by
  rfl

theorem test_decode_getVersion : decodeFrame Config.default
    [0b10100101, 0b00010010, 0b01011010, 0b11000011] = .ok (.getVersion, []) := by rfl

/-- E8 of 95_test_vectors.md. -/
theorem test_unassigned_opcodes_have_no_entry :
    [0x00, 0x13, 0xFF, 0xA5].map Config.default.lookup = [none, none, none, none] := by decide

/-- F5 of 95_test_vectors.md. -/
theorem test_bad_second_end_token :
    decodeFrame Config.default [0xA5, 0x06, 0x01, 0x5A, 0x99] = .error .badEnd2 := by rfl

/-- The word of an opcode-table row, placed and fetched. -/
theorem test_withFetchWord_fetches :
    (State.reset.withFetchWord 24 0x030209).fetched = decodeTableWord 24 0x030209 := by rfl

/-! ### Single commands (95_test_vectors.md sections 2.3 to 2.6) -/

/-- `s` with `i` standing in `Dispatch`. -/
def before (i : Instr) (s : State) : State :=
  (encodePayload i).foldl State.storePayload
    { s with fstate := .dispatch, opc := s.cfg.codeOf i.op, pidx := 0 }

/-- The state after one command; `s` itself if it does not answer. -/
def after (i : Instr) (s : State) : State :=
  match exec i (before i s) with
  | .next t => t
  | _ => s

/-- `s` inside the operation of `i`, its accesses so far `seen`. -/
def inside (i : Instr) (seen : List Half) (s : State) : State :=
  { before i s with phase := .access, seen := seen }

/-- The state after one step; `s` itself if it does not answer. -/
def stepped (s : State) : State :=
  match step s with
  | .next t => t
  | _ => s

/-- The response that stands in the buffer. -/
def reply (s : State) : List Byte := s.resp.toList.take s.rlen

/-- The M14 group: axis 1 runs with 10 steps, axis 2 idle. -/
def moving : State :=
  { State.reset with
    axis1 := { Axis.initial Config.default with running := true, remainingSteps := 10, safeMode := false }
    anyAxisRunning := true }

/-- M1; and by single steps (R62, R131): `safeMode` is written before `seekUntilRelay`, and the state
between the two writes is a state of the machine. -/
theorem test_setSteps :
    (let t := after (.setSteps 1 3) State.reset
     reply t = [0xA5, 0x01, 0x01, 0x5A, 0xC3] ∧ t.axis1.remainingSteps = 3
      ∧ t.axis1.safeMode = false ∧ t.axis2 = State.reset.axis2)
    ∧ (let s := inside (.setSteps 1 0) [0, 0]
        { State.reset with axis1 := { State.reset.axis1 with seekUntilRelay := true } }
       let t := stepped s
       t.axis1 = { s.axis1 with safeMode := false } ∧ t.phase = .access
        ∧ (stepped t).axis1 = { t.axis1 with seekUntilRelay := false }
        ∧ (stepped t).phase = .transmit) := by decide

/-- X6: a tick before the read of `CheckIdle` completes the axis, and the setter succeeds. -/
theorem test_setSteps_against_completion :
    let s := { moving with
      axis1 := { moving.axis1 with remainingSteps := 0, delayCounter := 2, delayTicks := 2 } }
    (after (.setSteps 1 7) { s with turns := [.tick] }).axis1.remainingSteps = 7
      ∧ (after (.setSteps 1 7) { s with turns := [.command, .tick] }).axis1 = s.axis1 := by decide

/-- M2. -/
theorem test_setSafeSteps :
    let t := after (.setSafeSteps 2 1000) State.reset
    reply t = [0xA5, 0x02, 0x01, 0x5A, 0xC3] ∧ t.axis2.remainingSteps = 1000
      ∧ t.axis2.safeMode = true := by decide

/-- B2. -/
theorem test_setSafeSteps_busy :
    reply (after (.setSafeSteps 1 5) moving) = [0xA5, 0x02, 0x00, 0x5A, 0xC3]
      ∧ (after (.setSafeSteps 1 5) moving).axis1 = moving.axis1 := by decide

/-- R62, R199: the first single step of a command toggles the indicator and reads nothing. -/
theorem test_setSeek_first_step :
    let s := before (.setSeek 1) State.reset
    stepped s = { s with indicator := true, phase := .access } := by decide

/-- M3. -/
theorem test_setSeek_keeps_the_count :
    let t := after (.setSeek 1)
      { State.reset with axis1 := { State.reset.axis1 with remainingSteps := 3, safeMode := false } }
    t.axis1.remainingSteps = 3 ∧ t.axis1.seekUntilRelay = true ∧ t.axis1.safeMode = true := by decide

/-- X1: a tick before every step of START makes no edge; the next tick makes both. By single steps (R62,
R71): between the writes of `running` of the two axes the flag is down, and a tick there makes no edge. -/
theorem test_start_of_both_is_synchronized :
    (let x := { Axis.initial Config.default with
       remainingSteps := 2, delayTicks := 0, safeMode := false }
     let s := { State.reset with
       anyAxisRunning := true, axis1 := x, axis2 := x
       turns := (List.replicate 8 [Turn.tick, .command]).flatten }
     let t := after (.start 3) s
     t.axis1.step = false ∧ t.axis2.step = false ∧ t.axis1.remainingSteps = 2
      ∧ t.tick.axis1.step = true ∧ t.tick.axis2.step = true)
    ∧ (let s := inside (.start 3) [0, 0, 0, 0]
        { State.reset with axis1 := { State.reset.axis1 with remainingSteps := 2 } }
       let t := stepped s
       t.axis1.running = true ∧ t.axis2.running = false ∧ t.anyAxisRunning = false ∧ t.phase = .access
        ∧ stepped { t with turns := [.tick] } = t) := by decide

/-- M14, M16. -/
theorem test_start_beside_a_running_axis :
    reply (after (.start 3) moving) = [0xA5, 0x04, 0x00, 0x5A, 0xC3]
      ∧ (after (.start 3) moving).axis2 = moving.axis2
      ∧ (after (.start 2) moving).axis2.running = true := by decide

/-- X3: one tick before the write. -/
theorem test_stop_after_one_tick :
    let s := { moving with
      axis1 := { moving.axis1 with remainingSteps := 5, delayTicks := 0 }, turns := [.tick] }
    (after (.stop 1) s).axis1.running = false ∧ (after (.stop 1) s).axis1.remainingSteps = 4
      ∧ (after (.stop 1) s).axis1.step = true := by decide

/-- X4: ticks after the first write of STOP BOTH are fast exits. -/
theorem test_stop_of_both_is_synchronized :
    let s := { moving with
      axis1 := { moving.axis1 with delayTicks := 0 }
      axis2 := { moving.axis1 with delayTicks := 0 }
      turns := [.command, .tick, .command, .tick, .command] }
    (after (.stop 3) s).axis1.step = false ∧ (after (.stop 3) s).axis2.step = false
      ∧ (after (.stop 3) s).anyAxisRunning = false := by decide

/-- M13. -/
theorem test_getMoving_bad_axis :
    reply (after (.getMoving 0) State.reset) = [0xA5, 0x06, 0x00, 0xFF, 0x5A, 0xC3] := by decide

/-- X5. -/
theorem test_getMoving_against_completion :
    let s := { moving with
      axis1 := { moving.axis1 with remainingSteps := 0, delayCounter := 2, delayTicks := 2 } }
    reply (after (.getMoving 1) { s with turns := [.tick] }) = [0xA5, 0x06, 0x01, 0x00, 0x5A, 0xC3]
      ∧ reply (after (.getMoving 1) { s with turns := [.command, .tick] })
        = [0xA5, 0x06, 0x01, 0x01, 0x5A, 0xC3] := by decide

/-- K1. -/
theorem test_setEnable_drives_the_line_low :
    (after (.setEnable 2 1) State.reset).axis2.nEN = false
      ∧ reply (after (.setEnable 2 1) State.reset) = [0xA5, 0x07, 0x01, 0x5A, 0xC3] := by decide

/-- K3. -/
theorem test_setEnable_code_two_fails :
    reply (after (.setEnable 2 2) State.reset) = [0xA5, 0x07, 0x00, 0x5A, 0xC3] := by decide

/-- K0, K2. -/
theorem test_getEnable :
    reply (after (.getEnable 2) State.reset) = [0xA5, 0x08, 0x01, 0x00, 0x5A, 0xC3]
      ∧ reply (after (.getEnable 2)
          { State.reset with axis2 := { State.reset.axis2 with nEN := false } })
        = [0xA5, 0x08, 0x01, 0x01, 0x5A, 0xC3] := by decide

/-- K8. -/
theorem test_setMicrosteps_sixteenth :
    (after (.setMicrosteps 2 3) State.reset).axis2.ms = 0b11 := by decide

/-- K9. -/
theorem test_setMicrosteps_code_four_fails :
    reply (after (.setMicrosteps 2 4) State.reset) = [0xA5, 0x09, 0x00, 0x5A, 0xC3] := by decide

/-- K7. -/
theorem test_getMicrosteps_quarter :
    reply (after (.getMicrosteps 2)
        { State.reset with axis2 := { State.reset.axis2 with ms := 0b10 } })
      = [0xA5, 0x0A, 0x01, 0x02, 0x5A, 0xC3] := by decide

/-- K10. -/
theorem test_setDirection_high :
    (after (.setDirection 2 1) State.reset).axis2.dir = true
      ∧ (after (.setDirection 2 1) State.reset).axis1.dir = false := by decide

/-- B6, B9. -/
theorem test_setDirection_busy_is_per_axis :
    reply (after (.setDirection 1 1) moving) = [0xA5, 0x0B, 0x00, 0x5A, 0xC3]
      ∧ reply (after (.setDirection 2 1) moving) = [0xA5, 0x0B, 0x01, 0x5A, 0xC3] := by decide

/-- K10. -/
theorem test_getDirection_high :
    reply (after (.getDirection 2)
        { State.reset with axis2 := { State.reset.axis2 with dir := true } })
      = [0xA5, 0x0C, 0x01, 0x01, 0x5A, 0xC3] := by decide

/-- K12. -/
theorem test_setCurrent_greatest :
    (after (.setCurrent 2 4095) State.reset).axis2.idac = 4095 := by decide

/-- K13. -/
theorem test_setCurrent_too_great_fails :
    reply (after (.setCurrent 2 4096) State.reset) = [0xA5, 0x0D, 0x00, 0x5A, 0xC3] := by decide

/-- K12. -/
theorem test_getCurrent_byte_order :
    reply (after (.getCurrent 2)
        { State.reset with axis2 := { State.reset.axis2 with idac := 4095 } })
      = [0xA5, 0x0E, 0x01, 0xFF, 0x0F, 0x5A, 0xC3] := by decide

/-- K16, K18. -/
theorem test_setStepDelay_limits :
    (after (.setStepDelay 2 65534) State.reset).axis2.delayTicks = 65534
      ∧ (after (.setStepDelay 2 0) State.reset).axis2.delayTicks = 0 := by decide

/-- K17. -/
theorem test_setStepDelay_sentinel_fails :
    reply (after (.setStepDelay 2 65535) State.reset) = [0xA5, 0x0F, 0x00, 0x5A, 0xC3] := by decide

/-- K0, K19. -/
theorem test_getStepDelay :
    reply (after (.getStepDelay 2) State.reset) = [0xA5, 0x10, 0x01, 0x0A, 0x00, 0x5A, 0xC3]
      ∧ reply (after (.getStepDelay 9) State.reset) = [0xA5, 0x10, 0x00, 0xFF, 0xFF, 0x5A, 0xC3] := by
  decide

/-- Y2, Y5. -/
theorem test_getRelayStatus_pairs_are_independent :
    let s := { State.reset with contacts1 := ⟨false, true⟩ }
    reply (after (.getRelayStatus 1) s) = [0xA5, 0x11, 0x01, 0x01, 0x5A, 0xC3]
      ∧ reply (after (.getRelayStatus 2) s) = [0xA5, 0x11, 0x01, 0x00, 0x5A, 0xC3] := by decide

/-- Y7. -/
theorem test_getVersion :
    reply (after .getVersion State.reset) = [0xA5, 0x12, 0x01, 0x01, 0x00, 0x5A, 0xC3] := by decide

/-! ### Single ticks (95_test_vectors.md section 2.2) -/

/-- An axis from a row's tuple. -/
def row (run : Bool) (rem : Word) (ph : Bool) (dc dt : Half) (seek safe : Bool) : Axis :=
  { Axis.initial Config.default with
    running := run, remainingSteps := rem, pulseHigh := ph, step := ph
    delayCounter := dc, delayTicks := dt, seekUntilRelay := seek, safeMode := safe }

/-- T2, T4. -/
theorem test_tick_edges :
    (row true 3 false 0 2 false false).tick false = row true 2 true 2 2 false false
      ∧ (row true 2 true 0 2 false false).tick false = row true 2 false 2 2 false false := by decide

/-- T5, T6, T7. -/
theorem test_tick_completion :
    (row true 0 false 2 2 false false).tick false = row false 0 false 2 2 false false
      ∧ (row true 0 true 0 2 false false).tick false = row true 0 false 2 2 false false
      ∧ (row true 0 true 1 2 false false).tick false = row true 0 true 0 2 false false := by decide

/-- T8, T9, T11, T17. -/
theorem test_tick_relay :
    (row true 5 false 0 1 false true).tick true = row false 5 false 0 1 false true
      ∧ (row true 5 false 0 1 false false).tick true = row true 4 true 1 1 false false
      ∧ (row true 7 true 3 4 true true).tick true = row false 7 true 3 4 true true
      ∧ (row true 5 false 0 1 true false).tick true = row false 5 false 0 1 true false := by decide

/-- T10, T14, T15, T16. -/
theorem test_tick_counts :
    (row true 0 false 0 4 true true).tick false = row true 0 true 4 4 true true
      ∧ (row true 2 false 0 0 false false).tick false = row true 1 true 0 0 false false
      ∧ (row true 4294967295 false 0 1 false false).tick false
        = row true 4294967294 true 1 1 false false
      ∧ (row true 1 true 65534 65534 false false).tick false
        = row true 1 true 65533 65534 false false := by decide

/-- T1: the fast exit. -/
theorem test_tick_fast_exit :
    let s := { State.reset with axis1 := row true 3 false 0 2 false false }
    s.tick = s := by decide

/-- F3: after a start token the framer takes `A5` as an opcode and drops it. -/
theorem test_framer_start_token_as_opcode :
    (({ State.reset with fstate := .awaitOpcode }).takeByte 0xA5).fstate = .awaitStart := by decide

/-! ### Witnesses: states and operands that meet the hypotheses of each statement

In the reset state nothing is scheduled; `moving` has axis 1 running and axis 2 idle. -/

/-- A schedule of ticks and host actions without a `RESET`. -/
def busyTurns : List Turn :=
  [.tick, .contacts .one false true, .command, .rxByte 0xA5, .tick, .command, .txAccept false]

/-- Axis 1 at the start of a move of one step with delay 1. -/
def aboutToStep : State :=
  { moving with axis1 := { moving.axis1 with remainingSteps := 1, delayTicks := 1 } }

/-- A full response frame about to be sent. -/
def sending : State := (before .getVersion State.reset).respond true [1, 0]

/-- SET_STEPS between its writes of the two mode flags, on an axis that was in seek mode. -/
def betweenFlags : State :=
  inside (.setSteps 1 0) [0, 0, 0]
    { State.reset with axis1 := { State.reset.axis1 with seekUntilRelay := true, safeMode := false } }

/-- Ticks and command-agent steps in turn, for ever. -/
def alternating : Schedule := fun n => if n % 2 = 0 then .tick else .command

theorem alternating_weaklyFair (s : State) : WeaklyFair alternating s where
  ticks n := ⟨2 * n, by omega, by simp [alternating]⟩
  commands n _ := ⟨2 * n + 1, by omega, .inl (by simp [alternating, Nat.add_mod])⟩

/-- Under it `moving` waits for a start token with the flag up. -/
theorem moving_waits (n : Nat) : ∀ t, moving.along alternating n = .next t →
    t.anyAxisRunning = true ∧ t.fstate = .awaitStart ∧ t.rx = [] := by
  induction n with
  | zero => intro t h; cases h; decide
  | succ n ih =>
    intro t h
    rw [State.along] at h
    split at h
    · rename_i u hu
      obtain ⟨h1, h2, h3⟩ := ih u hu
      by_cases hn : n % 2 = 0
      · rw [alternating, if_pos hn] at h
        cases h
        exact ⟨by simpa [State.hostTurn] using h1, by simpa [State.hostTurn] using h2,
          by simpa [State.hostTurn] using h3⟩
      · rw [alternating, if_neg hn, step_command _ rfl, agentStep_await _ (by simp [h2]), State.receive] at h
        simp only [h3] at h
        cases h
        exact ⟨h1, h2, rfl⟩
    · cases h
    · cases h

theorem witness_ResetMeetsTheInvariant :
    { Config.default with defaultDelay := 1 }.valid = true
      ∧ { Config.default with defaultDelay := 0xFFFE }.valid = true := by decide

theorem witness_ResetTurnEstablishesTheResetValues :
    { moving with turns := [Turn.reset, .tick] }.turns = .reset :: [.tick] := by decide

/-- Outside an operation, and before SET_STEPS's last write. -/
theorem witness_StepKeepsTheInvariant :
    { moving with turns := [Turn.tick] }.inv = true
      ∧ (∃ t, step { moving with turns := [.tick] } = .next t)
      ∧ betweenFlags.inv = true ∧ ∃ t, step betweenFlags = .next t :=
  ⟨by decide, ⟨_, rfl⟩, by decide, _, rfl⟩

theorem witness_StepNeverStops :
    sending.inv = true ∧ moving.inv = true ∧ betweenFlags.inv = true := by decide

theorem witness_NoStepChangesTheConfiguration : ∃ t, step sending = .next t := ⟨_, rfl⟩

theorem witness_RunningAxisKeepsItsSettings :
    { moving with turns := [Turn.tick] }.inv = true
      ∧ ∃ t, step { moving with turns := [.tick] } = .next t ∧ (moving.axis .one).running = true
        ∧ (t.axis .one).running = true := ⟨by decide, _, rfl, by decide, by decide⟩

/-- A whole START, and its single step that arms axis 2. -/
theorem witness_OnlyStartSetsRunning :
    (∃ t, step (State.reset.withFetchWord 16 0x0204) = .next t
      ∧ (State.reset.axis .two).running = false ∧ (t.axis .two).running = true)
    ∧ ∃ t, step (inside (.start 2) [0, 0, 0, 0] State.reset) = .next t
      ∧ (State.reset.axis .two).running = false ∧ (t.axis .two).running = true :=
  ⟨⟨_, rfl, by decide, by decide⟩, _, rfl, by decide, by decide⟩

theorem witness_OnlyTicksMoveTheStepOutput :
    Turn.tick ∉ [Turn.rxByte 1, .command] ∧ Turn.reset ∉ [Turn.rxByte 1, .command]
      ∧ ∃ t, step { moving with turns := [.rxByte 1, .command] } = .next t :=
  ⟨by decide, by decide, _, rfl⟩

/-- The start of an operation and a place inside one, on each kind of turn; inside, a read, a write, and no
access left. -/
theorem witness_StepRunsTheFetchedCommand :
    let s := before (.setSeek 1) State.reset
    let u := inside (.setSeek 1) [0] State.reset
    ((s.fstate = .dispatch ∧ s.phase = .operate ∧ s.fetched = some (.setSeek 1))
      ∧ (u.fstate = .dispatch ∧ u.phase = .access ∧ u.fetched = some (.setSeek 1))
      ∧ s.turns = [] ∧ u.turns = []
      ∧ { s with turns := [Turn.operation, .tick] }.turns = .operation :: [.tick]
      ∧ { u with turns := [Turn.command, .tick] }.turns = .command :: [.tick]
      ∧ { u with turns := [Turn.tick] }.turns = .tick :: [] ∧ Turn.tick ≠ .command
      ∧ Turn.tick ≠ .operation)
    ∧ (∃ k, (operationOf u.cfg (.setSeek 1)).resume [] = .read (.running .one) k)
    ∧ (∃ k, (operationOf u.cfg (.setSeek 1)).resume u.seen = .write (.safeMode .one true) k)
    ∧ (operationOf u.cfg (.setSeek 1)).resume [0, 0, 0] = .respond true [] :=
  ⟨by decide, ⟨_, rfl⟩, ⟨_, rfl⟩, rfl⟩

theorem witness_FramerTransitions :
    [FState.awaitStart, .awaitOpcode, .awaitPayload, .awaitEnd1, .awaitEnd2].all
      (fun f => decide ({ State.reset with fstate := f, rx := [0xA5] }.turns = [])
        && decide ({ State.reset with fstate := f, rx := [0xA5] }.rx = 0xA5 :: [])) = true := by decide

theorem witness_HoldKeepsTheState :
    (State.reset.turns = [] ∧ State.reset.fstate ≠ .dispatch ∧ State.reset.rx = [])
      ∧ ({ sending with txReady := false }.fstate = .dispatch
        ∧ { sending with txReady := false }.phase = .transmit ∧ sending.turns = []) := by decide

/-- The opcode bytes at which the clauses meet. -/
theorem witness_UnassignedOpcodesAbort :
    [0x00, 0x01, 0x11, 0x12, 0x13, 0xFF].all (fun b : Byte =>
      let s := { State.reset with fstate := .awaitOpcode, rx := [b] }
      decide (s.cfg = Config.default) && decide (s.turns = []) && decide (s.rx = b :: [])
        && (decide (b = 0x00 ∨ 0x13 ≤ b) != decide (b ≠ 0x00 ∧ b ≤ 0x12))) = true := by decide

/-- The most bytes missing: SET_STEPS with no payload byte yet. -/
theorem witness_SixZeroBytesFlushTheFramer :
    let s := { State.reset with
      fstate := .awaitPayload, opc := 0x01, rx := List.replicate 6 0x00 ++ [0xA5] }
    s.cfg = Config.default ∧ s.inv = true ∧ s.turns = [] ∧ s.fstate ≠ .dispatch
      ∧ s.rx = List.replicate 6 0x00 ++ [0xA5] := by decide

theorem witness_DecodeOfEncodeIsTheCommand :
    Config.default.valid = true ∧ decodeFrame Config.default [0xA5, 0x03, 0x02, 0x5A, 0xC3, 0x00]
      = .ok (.setSeek 2, [0x00]) := ⟨by decide, rfl⟩

/-- Nothing scheduled, and a schedule with a tick and a `RESET` inside the command. -/
theorem witness_SingleStepsMakeUpTheCommand :
    let s := before (.start 3) moving
    let ts := [Turn.tick, .command, .reset, .tick]
    s.fstate = .dispatch ∧ s.phase = .operate ∧ s.fetched = some (.start 3) ∧ s.turns = []
      ∧ { s with turns := .command :: ts }.fetched = some (.start 3)
      ∧ { s with turns := .command :: ts }.turns = .command :: ts := by decide

theorem witness_FramerDeliversEveryCommand :
    let s := { State.reset with rx := encode Config.default (.setCurrent 2 0xA55A) ++ [0xA5] }
    s.cfg.valid = true ∧ s.turns = [] ∧ s.fstate = .awaitStart
      ∧ s.rx = encode s.cfg (.setCurrent 2 0xA55A) ++ [0xA5] := by decide

/-- Response payloads of 0, 1 and 2 bytes, and a failure. -/
theorem witness_ResponseAssembly :
    Config.default.valid = true
      ∧ Config.default.lookup 0x01 = some ⟨.setSteps, 0x01, 9, 5⟩
      ∧ Config.default.lookup 0x06 = some ⟨.getMoving, 0x06, 5, 6⟩
      ∧ Config.default.lookup 0x12 = some ⟨.getVersion, 0x12, 4, 7⟩
      ∧ ([] : List Byte).length = 5 - 5 ∧ ([1] : List Byte).length = 6 - 5
      ∧ ([1, 0] : List Byte).length = 7 - 5 ∧ (false = true → ([] : List Byte).length = 7 - 5) := by
  decide

theorem witness_ResponseIsTransmittedInOrder :
    sending.turns = [] ∧ sending.fstate = .dispatch ∧ sending.txReady = true
      ∧ sending.aboutToSend [0xA5, 0x12, 0x01, 0x01, 0x00, 0x5A, 0xC3] := by decide

theorem witness_OneResponsePerFramedCommand :
    let s := { moving with rx := encode Config.default (.start 3) ++ [0xA5] }
    s.cfg.valid = true ∧ s.turns = [] ∧ s.txReady = true ∧ s.fstate = .awaitStart
      ∧ s.rx = encode s.cfg (.start 3) ++ [0xA5] := by decide

/-- F4. -/
theorem witness_GarbledFrameGivesNoResponse :
    let s := { State.reset with rx := [0xA5, 0x06, 0x01, 0x99, 0xC3] }
    s.cfg.valid = true ∧ s.turns = [] ∧ s.fstate = .awaitStart ∧ (0x99 : Byte) ≠ s.cfg.end1Token
      ∧ s.cfg.end2Token ≠ s.cfg.startToken
      ∧ s.rx = s.cfg.startToken :: s.cfg.codeOf (Instr.getMoving 1).op
        :: (encodePayload (.getMoving 1) ++ 0x99 :: s.cfg.end2Token :: []) := by decide

/-- Axis 1 runs outside seek mode, and nothing takes the flag down. -/
theorem witness_CountedMovesEndUnderFairness :
    moving.inv = true ∧ WeaklyFair alternating moving ∧ (moving.axis .one).running = true
      ∧ (moving.axis .one).seekUntilRelay = false
      ∧ ∀ n t, moving.along alternating n = .next t → t.anyAxisRunning = true := by
  refine ⟨by decide, alternating_weaklyFair _, by decide, by decide, fun n t h => ?_⟩
  exact (moving_waits n t h).1

/-- Two states that differ in axis 2 and its relay. -/
theorem witness_TicksKeepTheAxesIndependent :
    let t := { moving with axis2 := moving.axis1, contacts2 := ⟨false, false⟩ }
    moving.anyAxisRunning = t.anyAxisRunning ∧ moving.axis .one = t.axis .one
      ∧ moving.contacts .one = t.contacts .one ∧ moving ≠ t := by decide

theorem witness_HalfPeriodIsDelayPlusOne :
    aboutToStep.anyAxisRunning = true ∧ (aboutToStep.axis .one).running = true
      ∧ aboutToStep.relayQuiet .one ∧ (aboutToStep.axis .one).delayCounter = 0
      ∧ ((aboutToStep.axis .one).seekUntilRelay = true
        ∨ (aboutToStep.axis .one).remainingSteps ≠ 0) := by decide

/-- A move of one step, and one of none. -/
theorem witness_CompletionFromLow :
    let ok (s : State) : Prop := s.anyAxisRunning = true ∧ (s.axis .one).running = true
      ∧ (s.axis .one).seekUntilRelay = false ∧ s.relayQuiet .one ∧ (s.axis .one).delayCounter = 0
      ∧ (s.axis .one).pulseHigh = false ∧ (s.axis .one).step = false
    ok aboutToStep
      ∧ ok { aboutToStep with axis1 := { aboutToStep.axis1 with remainingSteps := 0 } } := by
  exact ⟨by decide, by decide⟩

theorem witness_CompletionFromHigh :
    let s := { aboutToStep with axis1 := { aboutToStep.axis1 with pulseHigh := true, step := true } }
    s.anyAxisRunning = true ∧ (s.axis .one).running = true
      ∧ (s.axis .one).seekUntilRelay = false ∧ s.relayQuiet .one ∧ (s.axis .one).delayCounter = 0
      ∧ (s.axis .one).pulseHigh = true ∧ (s.axis .one).step = true := by decide

theorem witness_SeekRunsUntilTheRelay :
    let s := { moving with axis1 := { moving.axis1 with seekUntilRelay := true, safeMode := true } }
    s.anyAxisRunning = true ∧ (s.axis .one).running = true ∧ (s.axis .one).seekUntilRelay = true
      ∧ s.relayTriggered .one = false := by decide

theorem witness_QuiescentStatesAreStable :
    State.reset.quiescent = true ∧ State.reset.turns = [] := by decide

/-- The axis operands of every command: 0 and 3 lie just outside, 1 and 2 are the axes; axis 1 runs, axis 2
is idle, and the operand codes are the default ones. -/
theorem witness_axis_operands :
    moving.turns = [] ∧ moving.cfg.wire = WireCodes.default
      ∧ ((0 : Byte) ≠ 1 ∧ (0 : Byte) ≠ 2) ∧ ((3 : Byte) ≠ 1 ∧ (3 : Byte) ≠ 2)
      ∧ (1 : Byte) = AxisId.number .one ∧ (2 : Byte) = AxisId.number .two
      ∧ (moving.axis .one).running = true ∧ (moving.axis .two).running = false := by decide

theorem witness_SetStepsEffect :
    moving.turns = [] ∧ (moving.axis .one).running = true ∧ (moving.axis .two).running = false := by
  decide

theorem witness_SetSafeStepsEffect :
    moving.turns = [] ∧ (moving.axis .one).running = true ∧ (moving.axis .two).running = false := by
  decide

theorem witness_SetSeekEffect :
    moving.turns = [] ∧ (moving.axis .one).running = true ∧ (moving.axis .two).running = false := by
  decide

/-- Rejected: a bit outside the set, a running axis. Accepted: no axis, the idle axis. -/
theorem witness_StartEffect :
    moving.turns = [] ∧ moving.cfg.wire = WireCodes.default ∧ (0x04 : Byte) &&& 0xFC ≠ 0
      ∧ ((0x01 : Byte).getLsbD 0 = true ∧ moving.axis1.running = true)
      ∧ (0x02 : Byte) &&& 0xFC = 0 ∧ (0x02 : Byte).getLsbD 0 = false
      ∧ moving.axis2.running = false ∧ (0x00 : Byte) &&& 0xFC = 0 := by decide

theorem witness_StopEffect :
    moving.turns = [] ∧ moving.cfg.wire = WireCodes.default ∧ (0x04 : Byte) &&& 0xFC ≠ 0
      ∧ (0x03 : Byte) &&& 0xFC = 0 ∧ (0x00 : Byte) &&& 0xFC = 0 := by decide

theorem witness_GetMovingEffect : moving.turns = [] ∧ (1 : Byte) = AxisId.number .one := by decide

theorem witness_SetEnableEffect :
    moving.turns = [] ∧ moving.cfg.wire = WireCodes.default ∧ (1 : Byte) < 2
      ∧ (moving.axis .one).running = true ∧ (moving.axis .two).running = false
      ∧ (1 : Byte) ≤ 1 ∧ (0 : Byte) ≤ 1 := by decide

theorem witness_GetEnableEffect : moving.turns = [] ∧ (2 : Byte) = AxisId.number .two := by decide

theorem witness_SetMicrostepsEffect :
    moving.turns = [] ∧ moving.cfg.wire = WireCodes.default ∧ (3 : Byte) < 4
      ∧ (moving.axis .one).running = true ∧ (moving.axis .two).running = false
      ∧ (3 : Byte) ≤ 3 ∧ (0 : Byte) ≤ 3 := by decide

theorem witness_GetMicrostepsEffect :
    moving.turns = [] ∧ moving.cfg.wire = WireCodes.default ∧ (2 : Byte) = AxisId.number .two
      ∧ (3 : Byte) ≤ 3 ∧ (moving.axis .two).running = false := by
  decide

theorem witness_SetDirectionEffect :
    moving.turns = [] ∧ moving.cfg.wire = WireCodes.default ∧ (1 : Byte) < 2
      ∧ (moving.axis .one).running = true ∧ (moving.axis .two).running = false
      ∧ (1 : Byte) ≤ 1 ∧ (0 : Byte) ≤ 1 := by decide

theorem witness_GetDirectionEffect :
    moving.turns = [] ∧ moving.cfg.wire = WireCodes.default ∧ (2 : Byte) = AxisId.number .two := by
  decide

theorem witness_SetCurrentEffect :
    moving.turns = [] ∧ moving.cfg.currentMax < 4096 ∧ (4095 : Half) ≤ moving.cfg.currentMax
      ∧ (moving.axis .one).running = true ∧ (moving.axis .two).running = false := by decide

theorem witness_GetCurrentEffect : moving.turns = [] ∧ (1 : Byte) = AxisId.number .one := by decide

theorem witness_SetStepDelayEffect :
    moving.turns = [] ∧ (0xFFFF : Half) = 0xFFFF ∧ (0xFFFE : Half) ≠ 0xFFFF ∧ (0 : Half) ≠ 0xFFFF
      ∧ (moving.axis .one).running = true ∧ (moving.axis .two).running = false := by decide

theorem witness_GetStepDelayEffect : moving.turns = [] ∧ (2 : Byte) = AxisId.number .two := by decide

theorem witness_SetThenGetReturnsTheValue :
    moving.turns = [] ∧ moving.cfg.wire = WireCodes.default ∧ (moving.axis .two).running = false
      ∧ (1 : Byte) ≤ 1 ∧ (3 : Byte) ≤ 3 ∧ (4095 : Half) ≤ moving.cfg.currentMax
      ∧ (0xFFFE : Half) ≠ 0xFFFF := by decide

theorem witness_GetRelayStatusEffect :
    moving.turns = [] ∧ ((0 : Byte) ≠ 1 ∧ (0 : Byte) ≠ 2) ∧ (2 : Byte) = AxisId.number .two := by
  decide

/-- Each setter at the last value it accepts, on the idle axis of a busy machine; a setter on the running
axis of a machine without a tick. -/
theorem witness_SettersObeyTheOwnershipDiscipline :
    (let s := { moving with turns := busyTurns }
     s.noReset ∧ (s.axis .two).running = false ∧ enableLineOf s.cfg.wire 1 = some false
      ∧ microOf s.cfg.wire 3 = some 3 ∧ dirOf s.cfg.wire 1 = some true
      ∧ (4095 : Half) ≤ s.cfg.currentMax ∧ (0xFFFE : Half) ≠ 0xFFFF)
    ∧ (let s := { moving with turns := [.rxByte 1, .command, .contacts .one false false] }
       s.noReset ∧ Turn.tick ∉ s.turns ∧ (s.axis .one).running = true) := by decide

theorem witness_CommandsAreAnsweredUnderFairness :
    let s := before (.start 3) moving
    s.inv = true ∧ WeaklyFair alternating s ∧ s.fstate = .dispatch ∧ s.fetched = some (.start 3)
      ∧ s.phase = .operate ∧ s.txReady = true ∧ (∀ n, alternating n ≠ .reset)
      ∧ ∀ n, alternating n ≠ .txAccept false :=
  ⟨by decide, alternating_weaklyFair _, rfl, by decide, rfl, rfl,
    fun n => by unfold alternating; split <;> simp, fun n => by unfold alternating; split <;> simp⟩

theorem witness_GettersOfSettingsAreUndisturbed : { moving with turns := busyTurns }.noReset := by
  decide

/-- A running axis, an idle one, and a schedule without a tick. -/
theorem witness_GetMovingReportsOneInstant :
    { moving with turns := busyTurns }.noReset ∧ (moving.axis .two).running = false
      ∧ Turn.tick ∉ moving.turns := by decide

theorem witness_StartOfBothAxesIsSynchronized :
    let s := { State.reset with
      axis1 := { State.reset.axis1 with remainingSteps := 2 }
      axis2 := { State.reset.axis2 with remainingSteps := 2 }
      anyAxisRunning := true, turns := busyTurns }
    s.noReset ∧ s.cfg.wire = WireCodes.default ∧ s.axis1.running = false ∧ s.axis2.running = false
      ∧ State.reset.relayQuiet .one ∧ State.reset.relayQuiet .two
      ∧ (s.axis .one).remainingSteps ≠ 0 ∧ (s.axis .two).remainingSteps ≠ 0 := by decide

theorem witness_StopIsSynchronized :
    let s := { moving with turns := .command :: busyTurns }
    s.noReset ∧ s.cfg.wire = WireCodes.default ∧ s.turns = .command :: busyTurns
      ∧ AxisId.one ≠ AxisId.two := by decide

theorem witness_CommandsKeepTheFramerAndTheStreams :
    { moving with turns := busyTurns }.noReset
      ∧ ∃ t, exec (.stop 1) { moving with turns := busyTurns } = .next t := ⟨by decide, _, rfl⟩

theorem witness_QueriesWriteNoRegister :
    { moving with turns := busyTurns }.noReset ∧ Turn.tick ∉ moving.turns
      ∧ (moving.axis .two).running = false
      ∧ ∃ t, exec (.getMoving 1) { moving with turns := busyTurns } = .next t :=
  ⟨by decide, by decide, by decide, _, rfl⟩

/-- A setter on the running axis of a busy machine, with a tick and without one, under another
configuration than the default. -/
theorem witness_FailedCommandsWriteNothing :
    let c := { Config.default with statusFail := 0x15 }
    let s := before (.setSeek 1) { moving with cfg := c }
    (s.cfg.valid = true ∧ s.cfg.statusSuccess ≠ s.cfg.statusFail ∧ (s.cfg.lookup s.opc).isSome = true
      ∧ (s.axis .two).running = false)
    ∧ (∃ t, exec (.setSeek 1) { s with turns := [.tick, .command] } = .next t
      ∧ Turn.reset ∉ [Turn.tick, .command] ∧ t.resp[2] = s.cfg.statusFail)
    ∧ ∃ t, exec (.setSeek 1) { s with turns := [.contacts .one false true, .command] } = .next t
      ∧ Turn.reset ∉ [Turn.contacts .one false true, .command]
      ∧ Turn.tick ∉ [Turn.contacts .one false true, .command] ∧ t.resp[2] = s.cfg.statusFail :=
  ⟨by decide, ⟨_, rfl, by decide, by decide⟩, _, rfl, by decide, by decide, by decide⟩

/-- An axis not requested, running and idle, with ticks scheduled and without. -/
theorem witness_StartAndStopKeepTheSettings :
    { moving with turns := busyTurns }.noReset ∧ Turn.tick ∉ moving.turns
      ∧ requests moving.cfg.wire 2 .one = false ∧ (moving.axis .one).running = true
      ∧ requests moving.cfg.wire 1 .two = false ∧ (moving.axis .two).running = false
      ∧ (∃ t, exec (.start 2) { moving with turns := busyTurns } = .next t)
      ∧ ∃ t, exec (.stop 1) { moving with turns := busyTurns } = .next t :=
  ⟨by decide, by decide, by decide, by decide, by decide, by decide, ⟨_, rfl⟩, _, rfl⟩

end Sys2Proof.Tests
end

namespace Sys2Proof.Machine

/-! ### The tick handler by its numbered steps (R110 to R115) -/

/-- The toggle with its guard as a proposition (R115): the low to high transition outside seek mode is
counted. -/
theorem Axis.toggle_eq (x : Axis) :
    x.toggle = { x with
      step := !x.step
      pulseHigh := !x.pulseHigh
      remainingSteps :=
        if x.pulseHigh = false ∧ x.seekUntilRelay = false then x.remainingSteps - 1
        else x.remainingSteps
      delayCounter := x.delayTicks } := by
  simp [Axis.toggle]

theorem Axis.untripped_iff (x : Axis) (t : Bool) :
    x.untripped t ↔ ¬((x.safeMode = true ∨ x.seekUntilRelay = true) ∧ t = true) := by
  rw [← Bool.or_eq_true, ← Bool.and_eq_true, Bool.not_eq_true]

theorem Axis.unfinished_iff (x : Axis) :
    x.unfinished ↔ ¬(x.seekUntilRelay = false ∧ x.pulseHigh = false ∧ x.remainingSteps = 0) := by
  simp only [Axis.unfinished, not_and_or, Bool.not_eq_false, ne_eq]

/-- Steps 2 to 4 of the handler as one function of the axis and its relay sample: the first step whose
guard holds decides (R112, R113, R115). -/
theorem Axis.tick_eq (x : Axis) (t : Bool) :
    x.tick t =
      if x.running = false then x
      else if (x.safeMode = true ∨ x.seekUntilRelay = true) ∧ t = true then
        { x with running := false }
      else if x.seekUntilRelay = false ∧ x.pulseHigh = false ∧ x.remainingSteps = 0 then
        { x with running := false }
      else if x.delayCounter = 0 then x.toggle
      else { x with delayCounter := x.delayCounter - 1 } := by
  split_ifs with hidle htrip hdone hzero
  · exact Axis.tick_idle x t hidle
  · obtain ⟨hmode, rfl⟩ := htrip
    exact Axis.tick_trip x (Bool.eq_true_of_not_eq_false hidle) ((Bool.or_eq_true ..).mpr hmode)
  all_goals
    have hrun := Bool.eq_true_of_not_eq_false hidle
    have hquiet := (Axis.untripped_iff x t).mpr htrip
  · obtain ⟨hseek, hlow, hcount⟩ := hdone
    exact Axis.tick_complete x t hquiet hrun hseek hlow hcount
  · exact Axis.tick_toggle x t hquiet hrun ((Axis.unfinished_iff x).mpr hdone) hzero
  · exact Axis.tick_countdown x t hquiet hrun ((Axis.unfinished_iff x).mpr hdone) hzero

/-- R110: nothing outside the two axes changes. -/
theorem State.tick_frame (s : State) :
    s.tick = { s with axis1 := s.tick.axis1, axis2 := s.tick.axis2 } := by
  unfold State.tick
  split <;> rfl

/-- `RelayTriggered` as a condition on the two contact inputs (R41). -/
theorem State.relayTriggered_iff (s : State) (a : AxisId) :
    s.relayTriggered a = true ↔
      ¬((s.contacts a).aOpen = true ∧ (s.contacts a).bOpen = true) := by
  rw [State.relayTriggered, Bool.not_eq_true', ← Bool.and_eq_true, Bool.not_eq_true]

/-- Settles O23: the fast exit is `State.tick_axis`, the steps of one axis are `Axis.tick_eq`. -/
theorem tickHandlerBySteps : Obligations.TickHandlerBySteps := by
  intro s
  refine ⟨fun a => ?_, s.tick_frame, s.relayTriggered_iff⟩
  rw [State.tick_axis, Axis.tick_eq, Axis.toggle_eq]
  cases s.anyAxisRunning <;> rfl

end Sys2Proof.Machine

namespace Sys2Proof.Machine

/-! ### Commands that address one axis, with no turn inside them (R130) -/

/-- Two updates of one axis are one update. -/
@[simp] theorem State.updAxis_updAxis (s : State) (a : AxisId) (f g : Axis → Axis) :
    (s.updAxis a f).updAxis a g = s.updAxis a fun x => g (f x) := by
  cases a <;> rfl

section
variable {s : State} {i : Instr} {a : AxisId} {k : AxisId → Script}

/-- `CheckAxis` (R130, R223): a command on no axis of the machine fails, under any schedule. -/
theorem exec_bad_axis {axis : Byte} (hop : operationOf s.cfg i = checkAxis axis k)
    (hbad : axis ≠ 1 ∧ axis ≠ 2) : exec i s = .next (s.toggled.respond false []) := by
  rw [exec_eq, hop, checkAxis_bad hbad.1 hbad.2, dispatch_eq, fails_run]

/-- A legal axis number selects its axis. -/
theorem exec_axis (hop : operationOf s.cfg i = checkAxis a.number k) :
    exec i s = .next ((k a).run s.toggled) := by
  rw [exec_eq, hop, checkAxis_number, dispatch_eq]

/-- `CheckIdle` (R130): a guarded command on a running axis fails. -/
theorem exec_busy (hop : operationOf s.cfg i = checkAxis a.number fun a => checkIdle a (k a))
    (hs : s.turns = []) (hrun : (s.axis a).running = true) :
    exec i s = .next (s.toggled.respond false []) := by
  rw [exec_axis hop, checkIdle_empty s.toggled hs, State.toggled_axis, hrun, if_pos rfl, fails_run]

/-- `CheckIdle` (R130): a guarded command on an idle axis goes on. -/
theorem exec_idle (hop : operationOf s.cfg i = checkAxis a.number fun a => checkIdle a (k a))
    (hs : s.turns = []) (hidle : (s.axis a).running = false) :
    exec i s = .next ((k a).run s.toggled) := by
  rw [exec_axis hop, checkIdle_empty s.toggled hs, State.toggled_axis, hidle, if_neg Bool.false_ne_true]

end

/-! ### SET_STEPS, SET_SAFE_STEPS and GET_MOVING (R131, R132, R136) -/

/-- The writes with which SET_STEPS and SET_SAFE_STEPS prepare axis `a` for a counted move. -/
def countedMove (count : Word) (safe : Bool) (a : AxisId) : Script :=
  writes (.remainingSteps a count) <|
  writes (.safeMode a safe) <|
  writes (.seekUntilRelay a false) <|
  succeeds []

theorem setStepsOp_eq (axis : Byte) (count : Word) :
    setStepsOp axis count = checkAxis axis fun a => checkIdle a (countedMove count false a) := rfl

theorem setSafeStepsOp_eq (axis : Byte) (count : Word) :
    setSafeStepsOp axis count = checkAxis axis fun a => checkIdle a (countedMove count true a) := rfl

/-- The three writes are one update of the axis. -/
theorem countedMove_run (count : Word) (safe : Bool) (a : AxisId) (s : State) (hs : s.turns = []) :
    (countedMove count safe a).run s = (s.updAxis a fun x =>
      { x with remainingSteps := count, safeMode := safe, seekUntilRelay := false }).respond true [] := by
  simp [countedMove, hs]

/-- The two failures and the effect that R131 and R132 share. -/
theorem exec_countedMove {s : State} {i : Instr} {axis : Byte} {count : Word} {safe : Bool}
    (hop : operationOf s.cfg i = checkAxis axis fun a => checkIdle a (countedMove count safe a))
    (hs : s.turns = []) :
    (axis ≠ 1 ∧ axis ≠ 2 → exec i s = .next (s.toggled.respond false []))
    ∧ ∀ a : AxisId, axis = a.number →
      ((s.axis a).running = true → exec i s = .next (s.toggled.respond false []))
      ∧ ((s.axis a).running = false → exec i s = .next ((s.toggled.updAxis a fun x =>
        { x with remainingSteps := count, safeMode := safe, seekUntilRelay := false }).respond
          true [])) := by
  refine ⟨exec_bad_axis hop, ?_⟩
  rintro a rfl
  refine ⟨exec_busy hop hs, fun hidle => ?_⟩
  rw [exec_idle hop hs hidle, countedMove_run count safe a s.toggled hs]

/-- Settles O32: SET_STEPS is a counted move outside safe mode. -/
theorem setStepsEffect : Obligations.SetStepsEffect := by
  intro s axis count hs
  exact ⟨⟨rfl, rfl⟩, exec_countedMove (setStepsOp_eq axis count) hs⟩

/-- Settles O33: SET_SAFE_STEPS is a counted move in safe mode. -/
theorem setSafeStepsEffect : Obligations.SetSafeStepsEffect := by
  intro s axis count hs
  exact ⟨⟨rfl, rfl⟩, exec_countedMove (setSafeStepsOp_eq axis count) hs⟩

/-- Settles O37: one read of `running[a]` with no busy check, answered as a byte. -/
theorem getMovingEffect : Obligations.GetMovingEffect := by
  intro s axis hs
  refine ⟨⟨rfl, rfl⟩, exec_bad_axis rfl, ?_⟩
  rintro a rfl
  rw [exec_axis rfl, readsBit_empty s.toggled hs, State.get_running, bitValue_ne_zero,
    State.toggled_axis, succeeds_run, boolByte]

end Sys2Proof.Machine

namespace Sys2Proof.Machine

/-! ### Operand codes of the configuration commands (R92, R93) -/

/-- Under any codes a microstep mode is decoded to the lines whose code it is. -/
theorem microCode_microOf {w : WireCodes} {b : Byte} {m : BitVec 2} (h : microOf w b = some m) :
    microCode w m = b := by
  unfold microOf at h
  split_ifs at h with hfull hhalf hquarter hsixteenth
  · cases h; exact hfull.symm
  · cases h; exact hhalf.symm
  · cases h; exact hquarter.symm
  · cases h; exact hsixteenth.symm

theorem microCode_default (m : BitVec 2) : microCode WireCodes.default m = m.setWidth 8 := by
  decide +revert

theorem microOf_default_of_le {b : Byte} (h : b ≤ 3) :
    microOf WireCodes.default b = some (b.extractLsb' 0 2) := by
  have hcodes : b = 0 ∨ b = 1 ∨ b = 2 ∨ b = 3 := by bv_omega
  obtain rfl | rfl | rfl | rfl := hcodes <;> rfl

theorem microOf_default_of_gt {b : Byte} (h : 3 < b) : microOf WireCodes.default b = none := by
  have h0 : b ≠ 0x00 := by bv_omega
  have h1 : b ≠ 0x01 := by bv_omega
  have h2 : b ≠ 0x02 := by bv_omega
  have h3 : b ≠ 0x03 := by bv_omega
  exact (if_neg h0).trans <| (if_neg h1).trans <| (if_neg h2).trans (if_neg h3)

theorem dirOf_default_of_le {b : Byte} (h : b ≤ 1) :
    dirOf WireCodes.default b = some (b.getLsbD 0) := by
  have hcodes : b = 0 ∨ b = 1 := by bv_omega
  obtain rfl | rfl := hcodes <;> rfl

theorem dirOf_default_of_gt {b : Byte} (h : 1 < b) : dirOf WireCodes.default b = none := by
  have h0 : b ≠ 0x00 := by bv_omega
  have h1 : b ≠ 0x01 := by bv_omega
  exact (if_neg h0).trans (if_neg h1)

theorem State.initial_axis (c : Config) (a : AxisId) :
    (State.initial c).axis a = Axis.initial c := by
  cases a <;> rfl

/-! ### A setter of one element, with no turn inside it (R68, R150) -/

section
variable {s : State} {i : Instr} {a : AxisId} {k : AxisId → Script}

/-- A guarded command fails when its axis runs or its operand is rejected. -/
theorem exec_busy_or_rejected
    (hop : operationOf s.cfg i = checkAxis a.number fun a => checkIdle a (k a)) (hs : s.turns = [])
    (hfail : (s.axis a).running = true ∨ k a = fails) :
    exec i s = .next (s.toggled.respond false []) := by
  cases hrun : (s.axis a).running with
  | true => exact exec_busy hop hs hrun
  | false =>
    have hrej : k a = fails := hfail.resolve_left (by simp [hrun])
    rw [exec_idle hop hs hrun, hrej, fails_run]

/-- A guarded command on an idle axis that accepts its operand makes its one write and succeeds. -/
theorem exec_setting {w : Write}
    (hop : operationOf s.cfg i = checkAxis a.number fun a => checkIdle a (k a)) (hs : s.turns = [])
    (hidle : (s.axis a).running = false) (hacc : k a = writes w (succeeds [])) :
    exec i s = .next ((s.toggled.put w).respond true []) := by
  rw [exec_idle hop hs hidle, hacc, writes_empty s.toggled hs, succeeds_run]

/-! ### What each getter answers (R152, R154, R156, R158, R160) -/

theorem exec_getEnable (hs : s.turns = []) :
    exec (.getEnable a.number) s
      = .next (s.toggled.respond true [boolByte !(s.axis a).nEN]) := by
  rw [exec_axis rfl, readsBit_empty s.toggled hs, State.get_nEN, bitValue_ne_zero, succeeds_run,
    State.toggled_axis]

theorem exec_getMicrosteps (hs : s.turns = []) :
    exec (.getMicrosteps a.number) s
      = .next (s.toggled.respond true [microCode s.cfg.wire (s.axis a).ms]) := by
  rw [exec_axis rfl, readsLines_empty s.toggled hs, State.get_ms,
    BitVec.setWidth_setWidth_of_le _ (by decide), BitVec.setWidth_eq, succeeds_run,
    State.toggled_axis]

theorem exec_getDirection (hs : s.turns = []) :
    exec (.getDirection a.number) s
      = .next (s.toggled.respond true [dirCode s.cfg.wire (s.axis a).dir]) := by
  rw [exec_axis rfl, readsBit_empty s.toggled hs, State.get_dir, bitValue_ne_zero, succeeds_run,
    State.toggled_axis]

theorem exec_getCurrent (hs : s.turns = []) :
    exec (.getCurrent a.number) s = .next (s.toggled.respond true (bytes16 (s.axis a).idac)) := by
  rw [exec_axis rfl, readsHalf_empty s.toggled hs, State.get_idac, succeeds_run, State.toggled_axis]

theorem exec_getStepDelay (hs : s.turns = []) :
    exec (.getStepDelay a.number) s
      = .next (s.toggled.respond true (bytes16 (s.axis a).delayTicks)) := by
  rw [exec_axis rfl, readsHalf_empty s.toggled hs, State.get_delayTicks, succeeds_run,
    State.toggled_axis]

/-! ### What each setter does (R153, R155, R157) -/

/-- R153 under any codes, for a mode that decodes to the lines `m`. -/
theorem exec_setMicrosteps {mode : Byte} {m : BitVec 2} (hs : s.turns = [])
    (hidle : (s.axis a).running = false) (hmode : microOf s.cfg.wire mode = some m) :
    exec (.setMicrosteps a.number mode) s
      = .next ((s.toggled.updAxis a fun x => { x with ms := m }).respond true []) := by
  rw [exec_setting (w := .ms a m) rfl hs hidle (by rw [hmode, decoded_some]), State.put_ms]

/-- R155 under any codes, for a code that decodes to the level `v`. -/
theorem exec_setDirection {dir : Byte} {v : Bool} (hs : s.turns = [])
    (hidle : (s.axis a).running = false) (hdir : dirOf s.cfg.wire dir = some v) :
    exec (.setDirection a.number dir) s
      = .next ((s.toggled.updAxis a fun x => { x with dir := v }).respond true []) := by
  rw [exec_setting (w := .dir a v) rfl hs hidle (by rw [hdir, decoded_some]), State.put_dir]

theorem exec_setCurrent {value : Half} (hs : s.turns = []) (hidle : (s.axis a).running = false)
    (hmax : value ≤ s.cfg.currentMax) :
    exec (.setCurrent a.number value) s
      = .next ((s.toggled.updAxis a fun x => { x with idac := value }).respond true []) := by
  rw [exec_setting (w := .idac a value) rfl hs hidle
    (by rw [decide_eq_true hmax, requires_true]), State.put_idac]

end

/-! ### The statements -/

/-- Settles O39: one read of the active-low line, inverted; it is high after reset. -/
theorem getEnableEffect : Obligations.GetEnableEffect := by
  intro s axis hs
  refine ⟨⟨rfl, rfl⟩, exec_bad_axis rfl, ?_⟩
  rintro a rfl
  refine ⟨?_, ?_⟩
  · rw [exec_getEnable hs]
    cases (s.axis a).nEN <;> rfl
  · rw [exec_getEnable rfl, State.reset, State.initial_axis]
    rfl

/-- Settles O40: the default codes accept the modes 0 to 3 and read the lines off the low bits. -/
theorem setMicrostepsEffect : Obligations.SetMicrostepsEffect := by
  intro s axis mode hs hwire
  refine ⟨⟨rfl, rfl⟩, exec_bad_axis rfl, ?_⟩
  rintro a rfl
  refine ⟨fun hfail => exec_busy_or_rejected rfl hs (hfail.imp_right fun hmode => ?_),
    fun hidle hmode => exec_setMicrosteps hs hidle ?_⟩
  · rw [hwire, microOf_default_of_gt hmode, decoded_none]
  · rw [hwire, microOf_default_of_le hmode]

/-- Settles O41: the round trip is that a mode is the code of the lines it decodes to. -/
theorem getMicrostepsEffect : Obligations.GetMicrostepsEffect := by
  intro s axis hs hwire
  refine ⟨⟨rfl, rfl⟩, exec_bad_axis rfl, ?_⟩
  rintro a rfl
  refine ⟨?_, ?_, fun mode hmode hidle => ?_⟩
  · rw [exec_getMicrosteps hs, hwire, microCode_default]
  · rw [exec_getMicrosteps rfl, State.reset, State.initial_axis]
    rfl
  · have hlines : microOf s.cfg.wire mode = some (mode.extractLsb' 0 2) := by
      rw [hwire, microOf_default_of_le hmode]
    refine ⟨_, exec_setMicrosteps hs hidle hlines, ?_⟩
    refine (exec_getMicrosteps ?_).trans ?_
    · exact hs
    · rw [State.respond_axis, State.updAxis_axis_self, State.respond_cfg, State.updAxis_cfg,
        State.toggled_cfg, microCode_microOf hlines]

/-- Settles O42: the accepted codes of the default are 0 and 1, each its own level. -/
theorem setDirectionEffect : Obligations.SetDirectionEffect := by
  intro s axis dir hs hwire
  refine ⟨⟨rfl, rfl⟩, exec_bad_axis rfl, ?_⟩
  rintro a rfl
  refine ⟨fun hfail => exec_busy_or_rejected rfl hs (hfail.imp_right fun hdir => ?_),
    fun hidle hdir => exec_setDirection hs hidle ?_⟩
  · rw [hwire, dirOf_default_of_gt hdir, decoded_none]
  · rw [hwire, dirOf_default_of_le hdir]

/-- Settles O43: one read of the direction latch, answered by its default code. -/
theorem getDirectionEffect : Obligations.GetDirectionEffect := by
  intro s axis hs hwire
  refine ⟨⟨rfl, rfl⟩, exec_bad_axis rfl, ?_⟩
  rintro a rfl
  refine ⟨?_, ?_⟩
  · rw [exec_getDirection hs, hwire]
    rfl
  · rw [exec_getDirection rfl, State.reset, State.initial_axis]
    rfl

/-- Settles O44: the bound is `CURRENT_MAX` itself, and GET_CURRENT reads the register back. -/
theorem setCurrentEffect : Obligations.SetCurrentEffect := by
  intro s axis value hs
  refine ⟨⟨rfl, rfl⟩, exec_bad_axis rfl, ?_⟩
  rintro a rfl
  refine ⟨fun hfail => exec_busy_or_rejected rfl hs (hfail.imp_right fun hmax => ?_),
    fun hidle hmax => ⟨exec_setCurrent hs hidle hmax, ?_⟩⟩
  · rw [decide_eq_false (BitVec.not_le.mpr hmax), requires_false]
  · refine (exec_getCurrent ?_).trans ?_
    · exact hs
    · rw [State.respond_axis, State.updAxis_axis_self, bytes16]

/-- Settles O45: one read of the current register, low byte first; it is 0 after reset. -/
theorem getCurrentEffect : Obligations.GetCurrentEffect := by
  intro s axis hs
  refine ⟨⟨rfl, rfl⟩, exec_bad_axis rfl, ?_⟩
  rintro a rfl
  refine ⟨exec_getCurrent hs, ?_⟩
  rw [exec_getCurrent rfl, State.reset, State.initial_axis]
  rfl

/-- Settles O47: one read of the configured delay, low byte first; under every configuration it is
`DEFAULT_DELAY` after reset. -/
theorem getStepDelayEffect : Obligations.GetStepDelayEffect := by
  intro s axis hs
  refine ⟨⟨rfl, rfl⟩, exec_bad_axis rfl, ?_⟩
  rintro a rfl
  refine ⟨exec_getStepDelay hs, fun c => ?_⟩
  rw [exec_getStepDelay rfl, State.initial_axis]
  rfl

end Sys2Proof.Machine

namespace Sys2Proof.Machine

/-! ### Response assembly (R200, R201) -/

/-- R88: no response carries more than two output bytes. -/
theorem respFields_sum_le_two (op : Op) : op.respFields.sum ≤ 2 := by
  cases op <;> decide

/-- The poison fill replaces the first `n` bytes of the buffer. -/
theorem fillPoison_toList (p : Byte) (r : Response) {n : Nat} (hn : n ≤ 7) :
    (fillPoison p r n).toList = List.replicate n p ++ r.toList.drop n := by
  induction n with
  | zero => rfl
  | succ n ih =>
    have hlt : n < r.toList.length := by simpa using hn
    rw [fillPoison, Vector.toList_setIfInBounds, ih (Nat.le_of_succ_le hn),
      List.drop_eq_getElem_cons hlt, List.set_append_right _ _ (by simp)]
    simp [List.replicate_succ']

/-- Consecutive writes replace as many bytes of the buffer as they are given. -/
theorem writeOuts_toList (bs old : List Byte) {r : Response} {before after : List Byte}
    (hr : r.toList = before ++ (old ++ after)) (hlen : old.length = bs.length) :
    (writeOuts r before.length bs).toList = before ++ (bs ++ after) := by
  induction bs generalizing r before old with
  | nil => rw [writeOuts, hr, List.length_eq_zero_iff.mp hlen]
  | cons b bs ih =>
    obtain ⟨o, old, rfl⟩ := List.exists_cons_of_length_eq_add_one hlen
    have hset : (r.setIfInBounds before.length b).toList = (before ++ [b]) ++ (old ++ after) := by
      simp [hr]
    simpa [writeOuts] using ih old hset (by simpa using hlen)

/-- The header and the end tokens of the assembly are consecutive writes like the outputs. -/
theorem assemble_eq_writeOuts (c : Config) (r : Response) (n : Nat) (opc : Byte) (ok : Bool)
    (outs : List Byte) :
    assemble c r (n + 5) opc ok outs =
      let header := writeOuts (fillPoison c.poison r (n + 5)) 0
        [c.startToken, opc, if ok then c.statusSuccess else c.statusFail]
      writeOuts (if ok then writeOuts header 3 outs else header) (n + 3)
        [c.end1Token, c.end2Token] := rfl

section
variable {c : Config} {opc : Byte} {ok : Bool} {outs : List Byte} {n : Nat}

theorem responseFrame_length (hm : c.respLen opc = n + 5) (houts : ok = true → outs.length = n) :
    (responseFrame c opc ok outs).length = n + 5 := by
  cases ok with
  | false => simp [responseFrame, hm]
  | true => simp [responseFrame, houts rfl]

/-- The assembled buffer: the response frame, then the bytes beyond the response length as they were. -/
theorem assemble_toList (r : Response) (hm : c.respLen opc = n + 5) (hcap : n + 5 ≤ 7)
    (houts : ok = true → outs.length = n) :
    (assemble c r (n + 5) opc ok outs).toList =
      responseFrame c opc ok outs ++ r.toList.drop (n + 5) := by
  have hfill : (fillPoison c.poison r (n + 5)).toList = List.replicate 3 c.poison
      ++ (List.replicate n c.poison ++ (List.replicate 2 c.poison ++ r.toList.drop (n + 5))) := by
    rw [fillPoison_toList _ _ hcap, show n + 5 = 3 + (n + 2) by omega]
    simp only [List.replicate_add, List.append_assoc]
  have hheader := writeOuts_toList
    [c.startToken, opc, if ok then c.statusSuccess else c.statusFail] (List.replicate 3 c.poison)
    (before := []) hfill rfl
  rw [List.nil_append] at hheader
  rw [assemble_eq_writeOuts]
  cases ok with
  | false =>
    have htokens := writeOuts_toList [c.end1Token, c.end2Token] (List.replicate 2 c.poison)
      (hheader.trans (List.append_assoc ..).symm) rfl
    simpa [responseFrame, hm] using htokens
  | true =>
    obtain rfl := houts rfl
    have houtputs := writeOuts_toList outs (List.replicate outs.length c.poison) hheader
      List.length_replicate
    have htokens := writeOuts_toList [c.end1Token, c.end2Token] (List.replicate 2 c.poison)
      (houtputs.trans (List.append_assoc ..).symm) rfl
    simpa [responseFrame] using htokens

end

/-- Settles O19: the buffer holds seven bytes, and no valid row answers with more. -/
theorem responseAssembly : Obligations.ResponseAssembly := by
  intro s e ok outs hvalid hrow houts
  have hlen : e.respLen = e.op.respFields.sum + 5 :=
    (Config.lengths hvalid (Config.lookup_mem hrow).1).2.trans (Nat.add_comm ..)
  have hm : s.cfg.respLen s.opc = e.op.respFields.sum + 5 := by
    rw [Config.respLen, hrow]
    exact hlen
  rw [hlen, Nat.add_sub_cancel] at houts
  have hframe := responseFrame_length hm houts
  refine ⟨⟨rfl, rfl, hm.trans hframe.symm, ?_⟩, hframe.trans hlen.symm⟩
  rw [State.respond_resp, State.respond_rlen, hm,
    assemble_toList s.resp hm (Nat.add_le_add_right (respFields_sum_le_two e.op) 5) houts]
  exact List.take_left' hframe

end Sys2Proof.Machine

namespace Sys2Proof.Machine

/-! ### The status byte of a response (R200, R201, R222) -/

/-- The consecutive writes begin at `i`: a byte before it stays. -/
theorem writeOuts_getElem_lt (bs : List Byte) (r : Response) {i j : Nat} (hj : j < 7) (hlt : j < i) :
    (writeOuts r i bs)[j] = r[j] := by
  induction bs generalizing r i with
  | nil => rfl
  | cons b bs ih =>
    rw [writeOuts, ih _ (Nat.lt_succ_of_lt hlt), Vector.getElem_setIfInBounds_ne hj hlt.ne']

/-- The outputs and the end tokens of a frame of at least 5 bytes leave its status byte alone. -/
theorem assemble_status (c : Config) (r : Response) (n : Nat) (opc : Byte) (ok : Bool)
    (outs : List Byte) :
    (assemble c r (n + 5) opc ok outs)[2] = if ok then c.statusSuccess else c.statusFail := by
  have hheader : (writeOuts (fillPoison c.poison r (n + 5)) 0
      [c.startToken, opc, if ok then c.statusSuccess else c.statusFail])[2]
        = if ok then c.statusSuccess else c.statusFail :=
    Vector.getElem_setIfInBounds_self (by decide)
  rw [assemble_eq_writeOuts, writeOuts_getElem_lt _ _ _ (by omega)]
  cases ok with
  | false => exact hheader
  | true => exact (writeOuts_getElem_lt outs _ _ (by decide)).trans hheader

/-- R87: a response to an assigned opcode has at least 5 bytes. -/
theorem Config.exists_respLen_eq {c : Config} {b : Byte} (hvalid : c.valid = true)
    (hrow : (c.lookup b).isSome = true) : ∃ n, c.respLen b = n + 5 := by
  obtain ⟨e, he⟩ := Option.isSome_iff_exists.mp hrow
  refine ⟨e.op.respFields.sum, ?_⟩
  rw [Config.respLen, he, Nat.add_comm]
  exact (Config.lengths hvalid (Config.lookup_mem he).1).2

/-- With an assigned opcode in `Dispatch` the third byte of a response is its status. -/
theorem State.respond_status (u : State) (ok : Bool) (outs : List Byte) (hvalid : u.cfg.valid = true)
    (hrow : (u.cfg.lookup u.opc).isSome = true) :
    (u.respond ok outs).resp[2] = if ok then u.cfg.statusSuccess else u.cfg.statusFail := by
  obtain ⟨n, hn⟩ := Config.exists_respLen_eq hvalid hrow
  simp only [State.respond_resp, hn, assemble_status]

/-- Where the two status bytes differ, a response that carries `STATUS_FAIL` is no success. -/
theorem State.respond_failed {u : State} {ok : Bool} {outs : List Byte} (hvalid : u.cfg.valid = true)
    (hdiffer : u.cfg.statusSuccess ≠ u.cfg.statusFail) (hrow : (u.cfg.lookup u.opc).isSome = true)
    (hstatus : (u.respond ok outs).resp[2] = u.cfg.statusFail) : ok = false := by
  rw [State.respond_status u ok outs hvalid hrow] at hstatus
  cases ok with
  | false => rfl
  | true => exact absurd hstatus hdiffer

/-- What ticks alone make of an axis, in the terms of the statements: the settings stay, and the axis is
unchanged when it is idle or no tick is scheduled. -/
theorem Axis.Ticked.kept {n : Prop} {x y : Axis} (h : Axis.Ticked n x y) :
    x.tickedTo y ∧ x.sameSettings y ∧ (x.running = false → y = x) ∧ (n → y = x) := by
  have hticked : x.tickedTo y := by
    obtain ⟨samples, -, hy⟩ := h
    exact ⟨samples, hy⟩
  exact ⟨hticked, h.sameSettings, h.idle, h.still⟩

/-- Without a `RESET` on its schedule a command runs to its end. -/
theorem exec_executed {i : Instr} {s t : State} (hs : s.noReset) (h : exec i s = .next t) :
    Executed i s t := by
  obtain ⟨t', hexec, hends⟩ := exec_ends i s
  obtain rfl : t' = t := Host.Outcome.next.inj (hexec.symm.trans h)
  exact hends.runs hs

/-- Settles O59: only a failure carries `STATUS_FAIL`, and by `Executed` a command that fails has written
nothing. -/
theorem failedCommandsWriteNothing : Obligations.FailedCommandsWriteNothing := by
  intro i s t hvalid hdiffer hrow hreset hexec hstatus
  obtain ⟨u, ok, outs, rfl, -, hframe, -, -, hfailed⟩ := exec_executed hreset hexec
  have hcfg : u.cfg = s.cfg := hframe.cfg
  have hopc : u.opc = s.opc := hframe.opc
  rw [← hcfg] at hvalid hdiffer hrow hstatus
  rw [← hopc] at hrow
  obtain ⟨hflag, haxes⟩ := hfailed (State.respond_failed hvalid hdiffer hrow hstatus)
  exact ⟨hflag, hframe.indicator, hcfg, hframe.fstate, hopc, hframe.pay, hframe.pidx, hframe.tx,
    fun a => (haxes a).kept⟩

end Sys2Proof.Machine

namespace Sys2Proof

/-! ### The decoder and the encoder (R81, R88, R89, R198) -/

variable {c : Config} {i j : Instr} {bs rest : List Byte}

/-- The ends of a frame are accepted exactly when they are the two end tokens. -/
theorem decodeEnds_eq_ok_iff :
    decodeEnds c i bs = .ok (j, rest) ↔ j = i ∧ bs = c.end1Token :: c.end2Token :: rest := by
  match bs with
  | [] => simp [decodeEnds]
  | [b] => simp [decodeEnds]
  | b1 :: b2 :: rest' =>
    rw [decodeEnds]
    by_cases h1 : b1 = c.end1Token
    · by_cases h2 : b2 = c.end2Token
      · simp [h1, h2, eq_comm]
      · simp [h1, h2]
    · simp [h1]

/-- The frames the decoder accepts: start token, an assigned opcode, as many payload bytes as its row
says, the two end tokens. -/
theorem decodeFrame_eq_ok_iff :
    decodeFrame c bs = .ok (i, rest) ↔
      ∃ opc e pay, c.lookup opc = some e ∧ pay.length = e.reqLen - 4
        ∧ i = decodeOp e.op (payloadOfList pay)
        ∧ bs = c.startToken :: opc :: (pay ++ c.end1Token :: c.end2Token :: rest) := by
  match bs with
  | [] => simp [decodeFrame]
  | [b] => simp [decodeFrame]
  | b :: opc :: tail =>
    rw [decodeFrame]
    constructor
    · intro h
      split_ifs at h with hstart
      split at h
      · cases h
      · rename_i e hrow
        split_ifs at h with hlen
        obtain ⟨hi, hends⟩ := decodeEnds_eq_ok_iff.mp h
        refine ⟨opc, e, tail.take (e.reqLen - 4), hrow, ?_, hi, ?_⟩
        · exact List.length_take_of_le (Nat.le_of_not_lt hlen)
        · rw [← hends, List.take_append_drop, not_not.mp hstart]
    · rintro ⟨opc', e, pay, hrow, hlen, hi, hbs⟩
      obtain ⟨rfl, rfl, rfl⟩ : b = c.startToken ∧ opc = opc'
          ∧ tail = pay ++ c.end1Token :: c.end2Token :: rest := by simpa using hbs
      have htake := List.take_left' (l₂ := c.end1Token :: c.end2Token :: rest) hlen
      have hdrop := List.drop_left' (l₂ := c.end1Token :: c.end2Token :: rest) hlen
      have hlong : ¬(pay ++ c.end1Token :: c.end2Token :: rest).length < e.reqLen - 4 := by
        rw [List.length_append]
        omega
      simp only [hrow]
      rw [if_neg (not_not.mpr rfl), if_neg hlong, htake, hdrop]
      exact decodeEnds_eq_ok_iff.mpr ⟨hi, rfl⟩

/-- R86, R88: the row that a command's opcode finds under a valid configuration. -/
theorem Config.lookup_codeOf_op (hvalid : c.valid = true) (i : Instr) :
    ∃ e, c.lookup (c.codeOf i.op) = some e ∧ e.op = i.op
      ∧ e.reqLen - 4 = (encodePayload i).length := by
  obtain ⟨e, hmem, hop, -, hrow⟩ := Config.lookup_codeOf hvalid i.op
  refine ⟨e, hrow, hop, ?_⟩
  rw [(Config.lengths hvalid hmem).1, hop, encodePayload_length, Nat.add_sub_cancel_left]

/-- Settles O15: an accepted frame is one whose payload the encoder writes. -/
theorem decodeOfEncodeIsTheCommand : Obligations.DecodeOfEncodeIsTheCommand := by
  refine ⟨fun c i rest hvalid => ?_, fun c bs rest i hvalid h => ?_⟩
  · obtain ⟨e, hrow, hop, hlen⟩ := Config.lookup_codeOf_op hvalid i
    refine decodeFrame_eq_ok_iff.mpr ⟨_, e, encodePayload i, hrow, hlen.symm, ?_, ?_⟩
    · rw [hop, decodeOp_encodePayload]
    · simp [encode]
  · obtain ⟨opc, e, pay, hrow, hlen, rfl, rfl⟩ := decodeFrame_eq_ok_iff.mp h
    have hfields : pay.length = e.op.reqFields.sum := by
      rw [hlen, (Config.lengths hvalid (Config.lookup_mem hrow).1).1, Nat.add_sub_cancel_left]
    simp [encode, encodePayload_decodeOp e.op pay hfields, Config.codeOf_lookup hvalid hrow]

/-- Settles O18: the decoder evaluated on the written-out words and frames. -/
theorem writtenOutWordsDecode : Obligations.WrittenOutWordsDecode :=
  ⟨rfl, rfl, rfl, rfl, rfl, rfl, rfl⟩

end Sys2Proof

namespace Sys2Proof.Machine

/-! ### One byte in each `Await` state (R191 to R195) -/

section
variable {s : State} (b : Byte)

theorem State.takeByte_awaitStart (h : s.fstate = .awaitStart) :
    s.takeByte b =
      { s with fstate := if b = s.cfg.startToken then .awaitOpcode else .awaitStart } := by
  rw [State.takeByte, h]
  dsimp only
  split
  · rfl
  · rw [← h]

theorem State.takeByte_awaitOpcode_unassigned (h : s.fstate = .awaitOpcode)
    (hrow : s.cfg.lookup b = none) : s.takeByte b = { s with fstate := .awaitStart } := by
  rw [State.takeByte, h]
  simp only [State.takeOpcode, hrow, State.abort]

theorem State.takeByte_awaitOpcode {e : OpEntry} (h : s.fstate = .awaitOpcode)
    (hrow : s.cfg.lookup b = some e) :
    s.takeByte b = { s with
      opc := b, pidx := 0, fstate := if e.reqLen - 4 = 0 then .awaitEnd1 else .awaitPayload } := by
  rw [State.takeByte, h]
  simp only [State.takeOpcode, hrow]
  split <;> simp <;> omega

theorem State.takeByte_awaitPayload (h : s.fstate = .awaitPayload) :
    s.takeByte b = { s with
      pay := s.pay.setIfInBounds s.pidx b, pidx := s.pidx + 1
      fstate := if s.pidx + 1 < s.cfg.reqPayload s.opc then .awaitPayload else .awaitEnd1 } := by
  simp only [State.takeByte, h, State.takePayload, State.storePayload]
  split
  · rfl
  · rfl

theorem State.takeByte_awaitEnd1 (h : s.fstate = .awaitEnd1) :
    s.takeByte b =
      { s with fstate := if b = s.cfg.end1Token then .awaitEnd2 else .awaitStart } := by
  rw [State.takeByte, h]
  dsimp only
  split <;> rfl

theorem State.takeByte_awaitEnd2 (h : s.fstate = .awaitEnd2) :
    s.takeByte b =
      if b = s.cfg.end2Token then { s with fstate := .dispatch, phase := .operate }
      else { s with fstate := .awaitStart } := by
  rw [State.takeByte, h]
  rfl

end

/-- Settles O11: a step takes the byte, and each `Await` state has its equation. -/
theorem framerTransitions : Obligations.FramerTransitions := by
  intro s b rest hturns hrx
  have hstep (hd : s.fstate ≠ .dispatch) := step_receive s hturns hd hrx
  refine ⟨fun h => (hstep (by simp [h])).trans ?_, fun h => (hstep (by simp [h])).trans ?_,
    fun h => (hstep (by simp [h])).trans ?_, fun h => (hstep (by simp [h])).trans ?_,
    fun h => (hstep (by simp [h])).trans ?_⟩ <;> refine congrArg Host.Outcome.next ?_
  · exact State.takeByte_awaitStart b h
  · split
    · rename_i hrow
      exact State.takeByte_awaitOpcode_unassigned b h hrow
    · rename_i e hrow
      exact State.takeByte_awaitOpcode b h hrow
  · exact State.takeByte_awaitPayload b h
  · exact State.takeByte_awaitEnd1 b h
  · exact State.takeByte_awaitEnd2 b h

/-- Settles O12: no byte to take, and no byte that is accepted. -/
theorem holdKeepsTheState : Obligations.HoldKeepsTheState := by
  intro s hturns
  refine ⟨fun hd hrx => ?_, fun hd hp hready => ?_⟩
  · rw [step_empty s hturns, agentStep_await s hd, State.receive, hrx]
  · rw [step_empty s hturns, agentStep_transmit s hd hp, State.transmit, hready]
    rfl

/-- The rows of the default table: the opcodes 0x01 to 0x12, of which the last alone has no payload. -/
theorem lookup_default_none {b : Byte} (h : b = 0x00 ∨ 0x13 ≤ b) :
    Config.default.lookup b = none := by
  revert b
  decide

theorem lookup_default_some {b : Byte} (h0 : b ≠ 0x00) (h : b ≤ 0x12) :
    ∃ e, Config.default.lookup b = some e ∧ (e.reqLen - 4 = 0 ↔ b = 0x12) := by
  revert b
  decide

/-- Settles O13: the transition of `AwaitOpcode` on the rows of the default table. -/
theorem unassignedOpcodesAbort : Obligations.UnassignedOpcodesAbort := by
  intro s b rest hcfg hturns hstate hrx
  have hstep := step_receive s hturns (by simp [hstate]) hrx
  refine ⟨fun h => ?_, fun h0 h => ?_⟩
  · have hrow : s.cfg.lookup b = none := by rw [hcfg, lookup_default_none h]
    exact hstep.trans (congrArg _ (State.takeByte_awaitOpcode_unassigned b hstate hrow))
  · obtain ⟨e, hrow, hlen⟩ := lookup_default_some h0 h
    rw [← hcfg] at hrow
    simp only [← hlen]
    exact hstep.trans (congrArg _ (State.takeByte_awaitOpcode b hstate hrow))

end Sys2Proof.Machine

namespace Sys2Proof.Machine

/-! ### Runs of the framer (R190 to R195) -/

/-- A step that takes a byte, and then the rest of the run. -/
theorem run_receive {s u : State} {b : Byte} {rest : List Byte} (n : Nat) (hturns : s.turns = [])
    (hd : s.fstate ≠ .dispatch) (hrx : s.rx = b :: rest)
    (hbyte : { s with rx := rest }.takeByte b = u) : run (n + 1) s = run n u :=
  run_succ s n ((step_receive s hturns hd hrx).trans (congrArg _ hbyte))

/-- The payload buffer with the bytes of a payload stored in turn from index `i` (R193). -/
def storeAll (p : Payload) (i : Nat) : List Byte → Payload
  | [] => p
  | b :: bs => storeAll (p.setIfInBounds i b) (i + 1) bs

/-- R193: the payload bytes are stored in turn, and after the last `AwaitEnd1` follows. -/
theorem run_payload {s : State} {bs rest : List Byte} (hturns : s.turns = [])
    (hstate : s.fstate = .awaitPayload) (hrx : s.rx = bs ++ rest) (hne : bs ≠ [])
    (hlen : s.pidx + bs.length = s.cfg.reqPayload s.opc) :
    run bs.length s = .next { s with
      rx := rest, fstate := .awaitEnd1, pay := storeAll s.pay s.pidx bs
      pidx := s.cfg.reqPayload s.opc } := by
  induction bs generalizing s with
  | nil => exact absurd rfl hne
  | cons b bs ih =>
    have hbyte := State.takeByte_awaitPayload (s := { s with rx := bs ++ rest }) b hstate
    refine Eq.trans (run_receive bs.length hturns (by simp [hstate]) hrx hbyte) ?_
    rw [List.length_cons] at hlen
    cases bs with
    | nil =>
      have hlast : s.pidx + 1 = s.cfg.reqPayload s.opc := hlen
      simp only [hlast, Nat.lt_irrefl, if_false]
      rfl
    | cons b' bs =>
      have hmore : s.pidx + 1 < s.cfg.reqPayload s.opc := by rw [← hlen]; simp
      have hnext : (s.pidx + 1) + (b' :: bs).length = s.cfg.reqPayload s.opc := by
        rw [← hlen, List.length_cons]
        omega
      simp only [hmore, if_true]
      exact ih (s := { s with
        rx := b' :: bs ++ rest, fstate := .awaitPayload, pay := s.pay.setIfInBounds s.pidx b
        pidx := s.pidx + 1 }) hturns rfl rfl (by simp) hnext

/-- R88, R89: a stored payload decodes as its bytes do. -/
theorem decodeOp_storeAll (op : Op) (bs : List Byte) (p : Payload)
    (hlen : bs.length = op.reqFields.sum) :
    decodeOp op (storeAll p 0 bs) = decodeOp op (payloadOfList bs) := by
  cases op <;> simp only [Op.reqFields, List.sum_cons, List.sum_nil, Nat.reduceAdd] at hlen
  case setSteps | setSafeSteps =>
    match bs, hlen with
    | [b0, b1, b2, b3, b4], _ => simp [decodeOp, storeAll, payloadOfList]
  case setCurrent | setStepDelay =>
    match bs, hlen with
    | [b0, b1, b2], _ => simp [decodeOp, storeAll, payloadOfList]
  case setEnable | setMicrosteps | setDirection =>
    match bs, hlen with
    | [b0, b1], _ => simp [decodeOp, storeAll, payloadOfList]
  case getVersion => rfl
  all_goals
    match bs, hlen with
    | [b0], _ => simp [decodeOp, storeAll, payloadOfList]

/-- The state in which the framer has read the opcode and the payload of `i` and waits for the end
tokens. -/
def State.payloadRead (s : State) (i : Instr) (rest : List Byte) : State :=
  { s with
    rx := rest
    fstate := .awaitEnd1
    opc := s.cfg.codeOf i.op
    pay := storeAll s.pay 0 (encodePayload i)
    pidx := s.cfg.reqPayload (s.cfg.codeOf i.op) }

/-- The state in which the whole frame of `i` has been received: `i` stands in `Dispatch`. -/
def State.delivered (s : State) (i : Instr) (rest : List Byte) : State :=
  { s.payloadRead i rest with fstate := .dispatch, phase := .operate }

/-- R198: the command that stands in `Dispatch` is the one whose frame was received. -/
theorem State.delivered_fetched {s : State} {i : Instr} {rest : List Byte}
    (hvalid : s.cfg.valid = true) : (s.delivered i rest).fetched = some i := by
  obtain ⟨e, hrow, hop, -⟩ := Config.lookup_codeOf_op hvalid i
  change (s.cfg.lookup (s.cfg.codeOf i.op)).map
    (fun e => decodeOp e.op (storeAll s.pay 0 (encodePayload i))) = some i
  rw [hrow, Option.map_some, hop, decodeOp_storeAll _ _ _ (encodePayload_length i),
    decodeOp_encodePayload]

/-- R191 to R193: start token, opcode and payload of a command bring the framer to `AwaitEnd1`. -/
theorem run_header_payload {s : State} {i : Instr} {rest : List Byte} (hvalid : s.cfg.valid = true)
    (hturns : s.turns = []) (hstate : s.fstate = .awaitStart)
    (hrx : s.rx = s.cfg.startToken :: s.cfg.codeOf i.op :: (encodePayload i ++ rest)) :
    run ((encodePayload i).length + 2) s = .next (s.payloadRead i rest) := by
  obtain ⟨e, hrow, -, hlen⟩ := Config.lookup_codeOf_op hvalid i
  have hpayload : s.cfg.reqPayload (s.cfg.codeOf i.op) = (encodePayload i).length := by
    rw [Config.reqPayload, hrow, ← hlen]
  refine Eq.trans (run_receive _ hturns (by simp [hstate]) hrx
    (State.takeByte_awaitStart _ hstate)) ?_
  simp only [if_true]
  refine Eq.trans (run_receive _ hturns (by simp) rfl (State.takeByte_awaitOpcode _ rfl hrow)) ?_
  simp only [hlen]
  by_cases hempty : encodePayload i = []
  · simp only [State.payloadRead, hpayload, hempty]
    rfl
  · have hpos : (encodePayload i).length ≠ 0 := mt List.length_eq_zero_iff.mp hempty
    simp only [hpos, if_false]
    exact run_payload (s := { s with
      rx := encodePayload i ++ rest, opc := s.cfg.codeOf i.op, pidx := 0, fstate := .awaitPayload })
      hturns rfl rfl hempty (by rw [Nat.zero_add]; exact hpayload.symm)

/-- R194, R195: the two end tokens bring the command to `Dispatch`. -/
theorem run_endTokens {s : State} {rest : List Byte} (hturns : s.turns = [])
    (hstate : s.fstate = .awaitEnd1) (hrx : s.rx = s.cfg.end1Token :: s.cfg.end2Token :: rest) :
    run 2 s = .next { s with rx := rest, fstate := .dispatch, phase := .operate } := by
  refine Eq.trans (run_receive 1 hturns (by simp [hstate]) hrx
    (State.takeByte_awaitEnd1 _ hstate)) ?_
  rw [if_pos rfl]
  refine Eq.trans (run_receive 0 hturns (by simp) rfl (State.takeByte_awaitEnd2 _ rfl)) ?_
  rw [if_pos rfl]
  rfl

/-- R194, R197, R191: another byte than the first end token drops the frame, and a byte after it that is no
start token opens none. -/
theorem run_badEnd1 {s : State} {b b' : Byte} {rest : List Byte} (hturns : s.turns = [])
    (hstate : s.fstate = .awaitEnd1) (hrx : s.rx = b :: b' :: rest) (hb : b ≠ s.cfg.end1Token)
    (hb' : b' ≠ s.cfg.startToken) :
    run 2 s = .next { s with rx := rest, fstate := .awaitStart } := by
  refine Eq.trans (run_receive 1 hturns (by simp [hstate]) hrx
    (State.takeByte_awaitEnd1 _ hstate)) ?_
  rw [if_neg hb]
  refine Eq.trans (run_receive 0 hturns (by simp) rfl (State.takeByte_awaitStart _ rfl)) ?_
  rw [if_neg hb']
  rfl

theorem encode_append (c : Config) (i : Instr) (rest : List Byte) :
    encode c i ++ rest = c.startToken :: c.codeOf i.op
      :: (encodePayload i ++ c.end1Token :: c.end2Token :: rest) := by
  simp [encode]

theorem encode_length (c : Config) (i : Instr) :
    (encode c i).length = (encodePayload i).length + 2 + 2 := by
  simp [encode]

/-- R190 to R195: the frame of a command brings it to `Dispatch`. -/
theorem run_encode {s : State} {i : Instr} {rest : List Byte} (hvalid : s.cfg.valid = true)
    (hturns : s.turns = []) (hstate : s.fstate = .awaitStart) (hrx : s.rx = encode s.cfg i ++ rest) :
    run (encode s.cfg i).length s = .next (s.delivered i rest) := by
  rw [encode_append] at hrx
  rw [encode_length, run_add _ _ 2 (run_header_payload hvalid hturns hstate hrx)]
  exact run_endTokens hturns rfl rfl

/-- Settles O17: the run of the frame ends in `State.delivered`. -/
theorem framerDeliversEveryCommand : Obligations.FramerDeliversEveryCommand := by
  intro s i rest hvalid hturns hstate hrx
  exact ⟨_, run_encode hvalid hturns hstate hrx, rfl, rfl, State.delivered_fetched hvalid, rfl, rfl,
    rfl⟩

/-- Settles O22: the garbled token drops the frame (R194), and its last byte opens none (R191). -/
theorem garbledFrameGivesNoResponse : Obligations.GarbledFrameGivesNoResponse := by
  intro s i garbage rest hvalid hturns hstate hgarbled htoken hrx
  refine ⟨{ s.payloadRead i rest with fstate := .awaitStart }, ?_, ?_⟩
  · rw [encode_length, run_add _ _ 2 (run_header_payload hvalid hturns hstate hrx)]
    exact run_badEnd1 hturns rfl rfl hgarbled htoken
  · rw [← hstate]
    rfl

/-! ### Six zero bytes (70_reset_and_hazards.md section 2) -/

/-- An upper bound on the zero bytes after which the framer of the default configuration waits for a
start token. -/
def State.zerosLeft (s : State) : Nat :=
  match s.fstate with
  | .awaitStart => 0
  | .awaitOpcode | .awaitEnd1 | .awaitEnd2 => 1
  | .awaitPayload => s.cfg.reqPayload s.opc - (s.pidx + 1) + 2
  | .dispatch => 0

/-- Only the framer's state, its payload buffer and index, and the received bytes differ. -/
def State.FlushedTo (s : State) (rest : List Byte) (t : State) : Prop :=
  t = { s with rx := rest, fstate := t.fstate, pay := t.pay, pidx := t.pidx }

/-- A zero byte is no token and no opcode of the default configuration: it brings the framer closer to
`AwaitStart`, and executes nothing. -/
theorem State.takeByte_zero {s : State} (hcfg : s.cfg = Config.default) (hd : s.fstate ≠ .dispatch) :
    (s.takeByte 0x00).fstate ≠ .dispatch ∧ (s.takeByte 0x00).zerosLeft ≤ s.zerosLeft - 1
      ∧ s.FlushedTo s.rx (s.takeByte 0x00) := by
  have hstart : (0x00 : Byte) ≠ s.cfg.startToken := by rw [hcfg]; decide
  have hend1 : (0x00 : Byte) ≠ s.cfg.end1Token := by rw [hcfg]; decide
  have hend2 : (0x00 : Byte) ≠ s.cfg.end2Token := by rw [hcfg]; decide
  cases h : s.fstate with
  | awaitStart =>
    rw [State.takeByte_awaitStart _ h, if_neg hstart]
    exact ⟨nofun, Nat.zero_le _, rfl⟩
  | awaitOpcode =>
    have hrow : s.cfg.lookup 0x00 = none := by rw [hcfg]; rfl
    rw [State.takeByte_awaitOpcode_unassigned _ h hrow]
    exact ⟨nofun, Nat.zero_le _, rfl⟩
  | awaitPayload =>
    rw [State.takeByte_awaitPayload _ h]
    refine ⟨?_, ?_, rfl⟩
    · dsimp only
      split <;> nofun
    · by_cases hmore : s.pidx + 1 < s.cfg.reqPayload s.opc
      · simp only [State.zerosLeft, h, if_pos hmore]
        omega
      · simp only [State.zerosLeft, h, if_neg hmore]
        omega
  | awaitEnd1 =>
    rw [State.takeByte_awaitEnd1 _ h, if_neg hend1]
    exact ⟨nofun, Nat.zero_le _, rfl⟩
  | awaitEnd2 =>
    rw [State.takeByte_awaitEnd2 _ h, if_neg hend2]
    exact ⟨nofun, Nat.zero_le _, rfl⟩
  | dispatch => exact absurd h hd

/-- Enough zero bytes bring the framer to `AwaitStart`. -/
theorem run_zeros (n : Nat) {s : State} {rest : List Byte} (hcfg : s.cfg = Config.default)
    (hturns : s.turns = []) (hd : s.fstate ≠ .dispatch) (hleft : s.zerosLeft ≤ n)
    (hrx : s.rx = List.replicate n 0x00 ++ rest) :
    ∃ t, run n s = .next t ∧ t.fstate = .awaitStart ∧ s.FlushedTo rest t := by
  induction n generalizing s with
  | zero =>
    refine ⟨s, rfl, ?_, ?_⟩
    · cases h : s.fstate <;> simp_all [State.zerosLeft]
    · rw [State.FlushedTo, ← List.nil_append rest]
      exact congrArg (fun rx => { s with rx := rx }) hrx
  | succ n ih =>
    have hrx' : s.rx = 0x00 :: (List.replicate n 0x00 ++ rest) := hrx
    obtain ⟨hd', hless, hframe⟩ := State.takeByte_zero
      (s := { s with rx := List.replicate n 0x00 ++ rest }) hcfg hd
    rw [run_receive n hturns hd hrx' rfl]
    generalize { s with rx := List.replicate n 0x00 ++ rest }.takeByte 0x00 = u at hd' hless hframe ⊢
    rw [State.FlushedTo] at hframe
    have hleft' : u.zerosLeft ≤ n := hless.trans (Nat.sub_le_of_le_add hleft)
    obtain ⟨t, hrun, hstart, ht⟩ := ih (s := u) (by rw [hframe]; exact hcfg)
      (by rw [hframe]; exact hturns) hd' hleft' (by rw [hframe])
    refine ⟨t, hrun, hstart, ?_⟩
    rw [State.FlushedTo] at ht ⊢
    rw [ht, hframe]

/-- R88: no request payload is longer than five bytes. -/
theorem Config.reqPayload_le_five {c : Config} (hvalid : c.valid = true) (b : Byte) :
    c.reqPayload b ≤ 5 := by
  rw [Config.reqPayload]
  split
  · rename_i e hrow
    rw [(Config.lengths hvalid (Config.lookup_mem hrow).1).1, Nat.add_sub_cancel_left]
    cases e.op <;> decide
  · exact Nat.zero_le 5

/-- Settles O14: at most five payload bytes and an end token are missing. -/
theorem sixZeroBytesFlushTheFramer : Obligations.SixZeroBytesFlushTheFramer := by
  intro s rest hcfg _ hturns hd hrx
  refine run_zeros 6 hcfg hturns hd ?_ hrx
  have hpayload : s.cfg.reqPayload s.opc ≤ 5 :=
    Config.reqPayload_le_five (by rw [hcfg]; decide) s.opc
  cases h : s.fstate <;> simp only [State.zerosLeft, h] <;> omega

/-! ### Transmission (R202) -/

/-- One byte sent while the transport accepts: the next byte of the response, with `AwaitStart` after the
last. -/
theorem State.transmit_ready {s : State} {b : Byte} {bs : List Byte} (hready : s.txReady = true)
    (hbytes : (s.resp.toList.take s.rlen).drop s.tidx = b :: bs)
    (hlen : s.tidx + (b :: bs).length = s.rlen) :
    s.transmit = { s with
      tx := s.tx ++ [b], tidx := s.tidx + 1
      fstate := if bs = [] then .awaitStart else s.fstate
      phase := if bs = [] then .operate else s.phase } := by
  have hbyte : s.resp[s.tidx]? = some b := by
    have hpos : s.tidx < s.rlen := by simp [← hlen]
    have h : ((s.resp.toList.take s.rlen).drop s.tidx)[0]? = some b := by rw [hbytes]; rfl
    rw [List.getElem?_drop, Nat.add_zero, List.getElem?_take_of_lt hpos] at h
    simpa using h
  have hlast : (!decide (s.tidx + 1 < s.rlen)) = decide (bs = []) := by
    cases bs <;> simp [← hlen]
  rw [State.transmit_eq, hready, hbyte, hlast]
  simp

/-- The bytes of the response from the index on are sent in order. -/
theorem run_transmit {s : State} {bs : List Byte} (hturns : s.turns = [])
    (hd : s.fstate = .dispatch) (hp : s.phase = .transmit) (hready : s.txReady = true)
    (hbytes : (s.resp.toList.take s.rlen).drop s.tidx = bs) (hne : bs ≠ [])
    (hlen : s.tidx + bs.length = s.rlen) :
    run bs.length s = .next { s with
      tx := s.tx ++ bs, tidx := s.rlen, fstate := .awaitStart, phase := .operate } := by
  induction bs generalizing s with
  | nil => exact absurd rfl hne
  | cons b bs ih =>
    have hstep : step s = .next s.transmit := by
      rw [step_empty s hturns, agentStep_transmit s hd hp]
    rw [List.length_cons, run_succ s _ hstep, State.transmit_ready hready hbytes hlen]
    cases bs with
    | nil =>
      rw [← hlen]
      rfl
    | cons b' bs =>
      have hrest : (s.resp.toList.take s.rlen).drop (s.tidx + 1) = b' :: bs := by
        rw [← List.drop_drop, hbytes]
        rfl
      have hlen' : s.tidx + 1 + (b' :: bs).length = s.rlen := by
        rw [← hlen]
        simp only [List.length_cons]
        omega
      rw [if_neg (by simp), if_neg (by simp)]
      refine (ih (s := { s with tx := s.tx ++ [b], tidx := s.tidx + 1 }) hturns hd hp hready hrest
        (by simp) hlen').trans ?_
      simp

/-- Settles O20: the whole response, from index 0. -/
theorem responseIsTransmittedInOrder : Obligations.ResponseIsTransmittedInOrder := by
  intro s frame hturns hd hready ⟨hp, hidx, hrlen, hframe⟩ hne
  rw [run_transmit hturns hd hp hready (by rw [hframe, hidx]; rfl) hne
    (by rw [hidx, hrlen, Nat.zero_add]), hrlen]

end Sys2Proof.Machine

namespace Sys2Proof.Machine

/-! ### What every turn and every command keeps of the configuration -/

theorem State.hostTurn_cfg (s : State) (u : Turn) : (s.hostTurn u).cfg = s.cfg := by
  by_cases hu : u = .reset
  · rw [hu]
    rfl
  · exact (State.hostTurn_interleaved s hu).cfg

/-- What a command answers: a machine restarted by a `RESET` inside it, or its effect. -/
theorem exec_cases {i : Instr} {s t : State} (h : exec i s = .next t) :
    (∃ u : State, u.cfg = s.cfg ∧ t = u.powerUp) ∨ Executed i s t := by
  obtain ⟨t', hexec, hends⟩ := exec_ends i s
  obtain rfl : t' = t := Host.Outcome.next.inj (hexec.symm.trans h)
  exact hends.imp_left And.right

/-- Settles O6: neither a turn nor a single step nor a whole operation writes a parameter. -/
theorem noStepChangesTheConfiguration : Obligations.NoStepChangesTheConfiguration := by
  intro s t h
  obtain ⟨u, ts, -, -, -, rfl⟩ | ⟨ts, -, hagent⟩ | ⟨ts, i, -, -, -, -, hexec⟩ := step_cases s h
  · exact State.hostTurn_cfg _ u
  · exact agentStep_cfg { s with turns := ts } hagent
  · obtain ⟨u, hcfg, rfl⟩ | ⟨u, ok, outs, rfl, -, hframe, -⟩ := exec_cases hexec
    · exact hcfg
    · exact hframe.cfg

/-! ### The invariant as propositions -/

/-- I-1 to I-5 of R50 for both axes, where I-4 may wait for one of the writes `ws` (log 33). -/
def State.axesOk (s : State) (ws : List Write) : Prop :=
  ∀ a, (s.axis a).inRange s.cfg = true
    ∧ ((s.axis a).seekIsSafe = true ∨ Write.seekUntilRelay a false ∈ ws)

theorem Axis.inRange_iff (x : Axis) (c : Config) :
    x.inRange c = true ↔ x.delayTicks ≠ delaySentinel ∧ x.idac ≤ c.currentMax
      ∧ x.step = x.pulseHigh ∧ (x.running = true → x.delayCounter ≤ x.delayTicks) := by
  simp only [Axis.inRange, Bool.and_eq_true, bne_iff_ne, ne_eq, decide_eq_true_eq, beq_iff_eq,
    Bool.or_eq_true, Bool.not_eq_true', and_assoc, imp_iff_not_or, Bool.not_eq_true]

theorem Axis.seekIsSafe_iff (x : Axis) :
    x.seekIsSafe = true ↔ (x.seekUntilRelay = true → x.safeMode = true) := by
  simp only [Axis.seekIsSafe, Bool.or_eq_true, Bool.not_eq_true', imp_iff_not_or, Bool.not_eq_true]

theorem State.axisOk_iff (s : State) (a : AxisId) :
    s.axisOk a = true ↔ (s.axis a).inRange s.cfg = true
      ∧ ((s.axis a).seekIsSafe = true ∨ Write.seekUntilRelay a false ∈ s.pending) := by
  rw [State.axisOk, Bool.and_eq_true, Bool.or_eq_true, decide_eq_true_iff]

theorem State.operationOk_iff (s : State) :
    s.operationOk = true ↔ s.mayFinish s.pending = true
      ∧ ∀ k v, s.inProgress = some (.read (.running .two) k) → s.seen = [v] →
        v ≠ 0 ∨ s.axis1.running = false := by
  rw [State.operationOk, Bool.and_eq_true]
  refine and_congr_right fun _ => ?_
  split
  · rename_i k v hk hv
    simp [hk, hv]
  · rename_i hother
    exact ⟨fun _ k v hk hv => (hother k v hk hv).elim, fun _ => rfl⟩

theorem State.inv_iff (s : State) :
    s.inv = true ↔ s.cfg.valid = true ∧ s.axesOk s.pending ∧ s.framerOk = true
      ∧ s.operationOk = true := by
  simp only [State.inv, Bool.and_eq_true, State.axisOk_iff, State.axesOk]
  constructor
  · rintro ⟨⟨⟨⟨hvalid, h1⟩, h2⟩, hframer⟩, hop⟩
    refine ⟨hvalid, fun a => ?_, hframer, hop⟩
    cases a
    · exact h1
    · exact h2
  · rintro ⟨hvalid, haxes, hframer, hop⟩
    exact ⟨⟨⟨⟨hvalid, haxes .one⟩, haxes .two⟩, hframer⟩, hop⟩

theorem State.framerOk_dispatch {s : State} (hd : s.fstate = .dispatch) :
    s.framerOk = true ↔ (s.cfg.lookup s.opc).isSome = true ∧ s.pidx = s.cfg.reqPayload s.opc
      ∧ (s.phase = .transmit → s.rlen = s.cfg.respLen s.opc ∧ s.tidx < s.rlen) := by
  simp only [State.framerOk, hd, Bool.and_eq_true, beq_iff_eq, and_assoc, Bool.or_eq_true,
    bne_iff_ne, ne_eq, decide_eq_true_eq, imp_iff_not_or]

/-- Outside an operation no write is to come. -/
theorem State.inv_of_outside {s : State} (hp : s.fstate = .dispatch → s.phase ≠ .access)
    (hvalid : s.cfg.valid = true) (haxes : s.axesOk []) (hframer : s.framerOk = true) :
    s.inv = true := by
  have hnone := State.inProgress_none hp
  rw [State.inv_iff, State.pending_none hnone, State.operationOk_iff, State.pending_none hnone, hnone]
  exact ⟨hvalid, haxes, hframer, rfl, nofun⟩

/-- Where nothing is in progress the axes need no write to come. -/
theorem State.axesOk_of_outside {s : State} (h : s.inv = true)
    (hp : s.fstate = .dispatch → s.phase ≠ .access) : s.axesOk [] := by
  obtain ⟨-, haxes, -⟩ := s.inv_iff.mp h
  rwa [State.pending_none (State.inProgress_none hp)] at haxes

theorem State.axesOk.mono {s : State} {ws ws' : List Write} (h : s.axesOk ws) (hws : ws ⊆ ws') :
    s.axesOk ws' := fun a => ⟨(h a).1, (h a).2.imp_right (@hws _)⟩

/-! ### Turns of the other agents keep the invariant -/

theorem Axis.Ticked.inRange {n : Prop} {x y : Axis} {c : Config} (h : Axis.Ticked n x y)
    (hx : x.inRange c = true) : y.inRange c = true :=
  h.induct (P := fun y => y.inRange c = true) (fun y t => Axis.tick_inRange y t c) hx

theorem Axis.sameSettings.seekIsSafe {x y : Axis} (h : x.sameSettings y) :
    y.seekIsSafe = x.seekIsSafe := by
  obtain ⟨-, hseek, hsafe, -⟩ := h
  rw [Axis.seekIsSafe, Axis.seekIsSafe, hseek, hsafe]

theorem State.Framed.framerOk {s t : State} (h : s.Framed t) : t.framerOk = s.framerOk := by
  simp only [State.framerOk, h.fstate, h.phase, h.cfg, h.opc, h.pidx, h.rlen, h.tidx]

/-- Ticks and host actions other than `RESET` keep the invariant. -/
theorem State.Interleaved.inv {n : Prop} {s t : State} (h : s.Interleaved n t) (hs : s.inv = true) :
    t.inv = true := by
  obtain ⟨hvalid, haxes, hframer, hop⟩ := s.inv_iff.mp hs
  obtain ⟨hfinish, hstart⟩ := s.operationOk_iff.mp hop
  rw [State.inv_iff, State.operationOk_iff, h.pending, h.framerOk, h.inProgress, h.seen, h.cfg]
  refine ⟨hvalid, fun a => ?_, hframer, h.yields.mayFinish hfinish, fun k v hk hv => ?_⟩
  · obtain ⟨hrange, hsafe⟩ := haxes a
    rw [h.cfg, (h.axes a).sameSettings.seekIsSafe]
    exact ⟨(h.axes a).inRange hrange, hsafe⟩
  · refine (hstart k v hk hv).imp_right fun hidle => ?_
    rw [← State.axis_one, (h.axes .one).idle hidle]
    exact hidle

/-- R50, R87: the reset state of a valid configuration meets the invariant. -/
theorem State.initial_inv {c : Config} (hvalid : c.valid = true) : (State.initial c).inv = true := by
  refine State.inv_of_outside nofun hvalid (fun a => ?_) rfl
  have hdelay : c.defaultDelay ≠ delaySentinel := by
    simp only [Config.valid, Bool.and_eq_true, Config.defaultDelayOk, decide_eq_true_eq] at hvalid
    exact BitVec.ne_of_lt hvalid.2.2
  rw [State.initial_axis]
  refine ⟨?_, .inl rfl⟩
  have hcurrent : (0 : Half) ≤ c.currentMax := by bv_omega
  exact (Axis.inRange_iff _ _).mpr ⟨hdelay, hcurrent, rfl, nofun⟩

/-- A machine restarted under a valid configuration meets the invariant. -/
theorem State.powerUp_inv {s : State} (hvalid : s.cfg.valid = true) : s.powerUp.inv = true := by
  obtain ⟨-, haxes, hframer, -⟩ := (State.inv_iff _).mp (State.initial_inv hvalid)
  exact State.inv_of_outside nofun hvalid haxes hframer

theorem State.hostTurn_inv {s : State} (u : Turn) (hs : s.inv = true) : (s.hostTurn u).inv = true := by
  by_cases hu : u = .reset
  · rw [hu]
    exact State.powerUp_inv (s.inv_iff.mp hs).1
  · exact (State.hostTurn_interleaved s hu).inv hs

/-! ### The framer keeps the invariant -/

/-- R190 to R195 keep the framer's bounds, and the field `phase` outside an operation. -/
theorem State.takeByte_framerOk {s : State} (b : Byte) (hd : s.fstate ≠ .dispatch)
    (hs : s.framerOk = true) :
    (s.takeByte b).framerOk = true ∧ (s.takeByte b).phase = .operate := by
  cases h : s.fstate with
  | awaitStart =>
    simp only [State.framerOk, h, beq_iff_eq] at hs
    rw [State.takeByte_awaitStart b h]
    refine ⟨?_, hs⟩
    split <;> simp [State.framerOk, hs]
  | awaitOpcode =>
    simp only [State.framerOk, h, beq_iff_eq] at hs
    cases hrow : s.cfg.lookup b with
    | none =>
      rw [State.takeByte_awaitOpcode_unassigned b h hrow]
      exact ⟨by simp [State.framerOk, hs], hs⟩
    | some e =>
      rw [State.takeByte_awaitOpcode b h hrow]
      refine ⟨?_, hs⟩
      have hlen : s.cfg.reqPayload b = e.reqLen - 4 := by rw [Config.reqPayload, hrow]
      split
      · rename_i hempty
        simp [State.framerOk, hs, hrow, hlen, hempty]
      · rename_i hmore
        simp [State.framerOk, hs, hrow, hlen, Nat.pos_of_ne_zero hmore]
  | awaitPayload =>
    simp only [State.framerOk, h, Bool.and_eq_true, beq_iff_eq, decide_eq_true_eq] at hs
    obtain ⟨⟨hphase, hrow⟩, hidx⟩ := hs
    rw [State.takeByte_awaitPayload b h]
    refine ⟨?_, hphase⟩
    split
    · rename_i hmore
      simp [State.framerOk, hphase, hrow, hmore]
    · rename_i hlast
      simp [State.framerOk, hphase, hrow]
      omega
  | awaitEnd1 =>
    simp only [State.framerOk, h, Bool.and_eq_true, beq_iff_eq] at hs
    obtain ⟨⟨hphase, hrow⟩, hidx⟩ := hs
    rw [State.takeByte_awaitEnd1 b h]
    refine ⟨?_, hphase⟩
    split <;> simp [State.framerOk, hphase, hrow, hidx]
  | awaitEnd2 =>
    simp only [State.framerOk, h, Bool.and_eq_true, beq_iff_eq] at hs
    obtain ⟨⟨hphase, hrow⟩, hidx⟩ := hs
    rw [State.takeByte_awaitEnd2 b h]
    split <;> simp [State.framerOk, hphase, hrow, hidx]
  | dispatch => exact absurd h hd

theorem State.receive_framerOk {s : State} (hd : s.fstate ≠ .dispatch) (hs : s.framerOk = true) :
    s.receive.framerOk = true ∧ s.receive.phase = .operate := by
  unfold State.receive
  split
  · refine ⟨hs, ?_⟩
    cases h : s.fstate <;> simp_all [State.framerOk]
  · rename_i b rest _
    exact State.takeByte_framerOk (s := { s with rx := rest }) b hd hs

theorem State.receive_inv {s : State} (hd : s.fstate ≠ .dispatch) (hs : s.inv = true) :
    s.receive.inv = true := by
  obtain ⟨hvalid, -, hframer, -⟩ := s.inv_iff.mp hs
  obtain ⟨hframer', hphase⟩ := State.receive_framerOk hd hframer
  have haxes := State.axesOk_of_outside hs fun h => absurd h hd
  refine State.inv_of_outside (by simp [hphase]) (by simpa using hvalid) (fun a => ?_) hframer'
  simpa using haxes a

/-- R202: after the last byte the framer waits for a start token. -/
theorem State.transmit_inv {s : State} (hd : s.fstate = .dispatch) (hp : s.phase = .transmit)
    (hs : s.inv = true) : s.transmit.inv = true := by
  obtain ⟨hvalid, -, hframer, -⟩ := s.inv_iff.mp hs
  obtain ⟨hrow, hidx, hsend⟩ := (State.framerOk_dispatch hd).mp hframer
  have haxes := State.axesOk_of_outside hs fun _ => by simp [hp]
  have haxes' : s.transmit.axesOk [] := fun a => by simpa using haxes a
  refine State.inv_of_outside ?_ (by simpa using hvalid) haxes' ?_
  · rw [State.transmit_eq]
    split <;> simp [hp]
  · by_cases hmore : s.tidx + 1 < s.rlen
    · rw [State.transmit_eq, State.framerOk_dispatch (by simpa [hmore] using hd)]
      refine ⟨hrow, hidx, fun _ => ⟨(hsend hp).1, ?_⟩⟩
      dsimp only
      split
      · exact hmore
      · exact (hsend hp).2
    · cases hready : s.txReady with
      | false => simpa [State.transmit, hready] using hframer
      | true => simp [State.transmit_eq, hready, hmore, State.framerOk]

/-! ### The operation in progress keeps the invariant -/

/-- A command stands in `Dispatch` with its opcode and payload complete. -/
def State.readyFor (s : State) (i : Instr) : Prop :=
  s.cfg.valid = true ∧ s.fstate = .dispatch ∧ s.fetched = some i
    ∧ (s.cfg.lookup s.opc).isSome = true ∧ s.pidx = s.cfg.reqPayload s.opc

theorem State.readyFor_of_inv {s : State} {i : Instr} (hs : s.inv = true)
    (hd : s.fstate = .dispatch) (hi : s.fetched = some i) : s.readyFor i := by
  obtain ⟨hvalid, -, hframer, -⟩ := s.inv_iff.mp hs
  obtain ⟨hrow, hidx, -⟩ := (State.framerOk_dispatch hd).mp hframer
  exact ⟨hvalid, hd, hi, hrow, hidx⟩

/-- R87: no response is empty. -/
theorem Config.respLen_pos {c : Config} {b : Byte} (hvalid : c.valid = true)
    (hrow : (c.lookup b).isSome = true) : 0 < c.respLen b := by
  obtain ⟨n, hn⟩ := Config.exists_respLen_eq hvalid hrow
  omega

/-- An assembled response meets the invariant. -/
theorem State.respond_inv {s : State} {i : Instr} (hready : s.readyFor i) (haxes : s.axesOk [])
    (ok : Bool) (outs : List Byte) : (s.respond ok outs).inv = true := by
  obtain ⟨hvalid, hd, -, hrow, hidx⟩ := hready
  refine State.inv_of_outside (by simp) hvalid haxes ?_
  exact (State.framerOk_dispatch (s := s.respond ok outs) hd).mpr
    ⟨hrow, hidx, fun _ => ⟨rfl, Config.respLen_pos hvalid hrow⟩⟩

/-- Inside an operation: the writes still to come keep the discipline, and START's second read finds what
its first read promised. -/
theorem State.inv_of_inside {s : State} {i : Instr} {k : Script} (hready : s.readyFor i)
    (hp : s.phase = .access) (hk : (operationOf s.cfg i).resume s.seen = k)
    (haxes : s.axesOk k.pending) (hfinish : s.mayFinish k.pending = true)
    (hstart : ∀ k' v, k = .read (.running .two) k' → s.seen = [v] →
      v ≠ 0 ∨ s.axis1.running = false) : s.inv = true := by
  obtain ⟨hvalid, hd, hi, hrow, hidx⟩ := hready
  have hprogress : s.inProgress = some k := by rw [State.inProgress_access hd hp hi, hk]
  have hpending : s.pending = k.pending := by rw [State.pending, hprogress]
  rw [State.inv_iff, State.operationOk_iff, hpending, hprogress, State.framerOk_dispatch hd, hp]
  exact ⟨hvalid, haxes, ⟨hrow, hidx, nofun⟩, hfinish,
    fun k' v hk' hv => hstart k' v (Option.some.inj hk') hv⟩

/-- Where the command agent stops, inside an operation or with its response assembled. -/
theorem Script.pause_inv {s : State} {i : Instr} {k : Script} {seen : List Half}
    (hready : s.readyFor i) (hk : (operationOf s.cfg i).resume seen = k)
    (haxes : s.axesOk k.pending) (hfinish : s.mayFinish k.pending = true)
    (hstart : ∀ k' v, k = .read (.running .two) k' → seen = [v] → v ≠ 0 ∨ s.axis1.running = false) :
    (k.pause seen s).inv = true := by
  obtain ⟨ok, outs, rfl, e⟩ | ⟨-, e⟩ := k.pause_cases seen s
  · rw [e]
    exact State.respond_inv hready haxes ok outs
  · rw [e]
    have hyields : s.Yields { s with phase := .access, seen := seen } :=
      State.Yields.ofAxes rfl fun _ => rfl
    exact State.inv_of_inside (s := { s with phase := .access, seen := seen }) hready rfl hk haxes
      (hyields.mayFinish hfinish) hstart

/-- The first step of an operation (R199). -/
theorem Script.start_inv {s : State} {i : Instr} (hs : s.inv = true) (hd : s.fstate = .dispatch)
    (hp : s.phase = .operate) (hi : s.fetched = some i) :
    ((operationOf s.cfg i).start s).inv = true := by
  have haxes := State.axesOk_of_outside hs fun _ => by simp [hp]
  have hready := State.readyFor_of_inv hs hd hi
  exact Script.pause_inv (s := s.toggled) hready rfl
    (haxes.mono (List.nil_subset _)) (operation_begins s.cfg i s.toggled) nofun

/-- The two clauses of `State.axesOk` for an axis after a write to it, and for the axes it leaves alone. -/
theorem State.axesOk.updAxis {s : State} {ws ws' : List Write} {a : AxisId} {f : Axis → Axis}
    (h : s.axesOk ws)
    (hself : (s.axis a).inRange s.cfg = true →
      ((s.axis a).seekIsSafe = true ∨ Write.seekUntilRelay a false ∈ ws) →
      (f (s.axis a)).inRange s.cfg = true
        ∧ ((f (s.axis a)).seekIsSafe = true ∨ Write.seekUntilRelay a false ∈ ws'))
    (hother : ∀ b, b ≠ a → Write.seekUntilRelay b false ∈ ws → Write.seekUntilRelay b false ∈ ws') :
    (s.updAxis a f).axesOk ws' := by
  intro b
  rw [State.updAxis_axis]
  split
  · rename_i e
    subst e
    exact hself (h b).1 (h b).2
  · rename_i e
    exact ⟨(h b).1, (h b).2.imp_right (hother b e)⟩

/-- Membership in `w :: ws` of a write that is not `w`. -/
theorem mem_of_mem_cons_ne {w u : Write} {ws : List Write} (hne : u ≠ w) (h : u ∈ w :: ws) : u ∈ ws :=
  (List.mem_cons.mp h).resolve_left hne

/-- The discipline of a write (R68) is what keeps the ranges of R50. -/
theorem State.put_axesOk {s : State} {w : Write} {ws : List Write} (h : s.axesOk (w :: ws))
    (hw : s.mayWrite ws w = true) : (s.put w).axesOk ws := by
  -- a write of another element than `seekUntilRelay` answers no waiting I-4
  have settle {a : AxisId} {f : Axis → Axis} (hput : s.put w = s.updAxis a f)
      (hne : ∀ b, Write.seekUntilRelay b false ≠ w)
      (hrange : (s.axis a).inRange s.cfg = true → (f (s.axis a)).inRange s.cfg = true)
      (hsafe : (s.axis a).seekIsSafe = true →
        (f (s.axis a)).seekIsSafe = true ∨ Write.seekUntilRelay a false ∈ ws)
      : (s.put w).axesOk ws := by
    rw [hput]
    refine h.updAxis (fun hr hs => ⟨hrange hr, ?_⟩) fun b _ => mem_of_mem_cons_ne (hne b)
    exact hs.elim hsafe fun hmem => .inr (mem_of_mem_cons_ne (hne a) hmem)
  simp only [Axis.inRange_iff] at settle
  cases w with
  | anyAxisRunning v =>
    refine fun a => ⟨(h a).1, (h a).2.imp_right fun hmem => ?_⟩
    exact mem_of_mem_cons_ne (w := .anyAxisRunning v) nofun hmem
  | running a v =>
    refine settle (State.put_running ..) nofun ?_ .inl
    cases v with
    | false => exact fun ⟨hd, hi, hstep, _⟩ => ⟨hd, hi, hstep, nofun⟩
    | true =>
      simp only [State.mayWrite, if_true, Bool.and_eq_true, decide_eq_true_eq] at hw
      exact fun ⟨hd, hi, hstep, _⟩ => ⟨hd, hi, hstep, fun _ => hw.2⟩
  | remainingSteps a v => exact settle (State.put_remainingSteps ..) nofun id .inl
  | delayTicks a v =>
    simp only [State.mayWrite, State.running, Bool.and_eq_true, Bool.not_eq_true', bne_iff_ne] at hw
    refine settle (State.put_delayTicks ..) nofun ?_ .inl
    exact fun ⟨_, hi, hstep, _⟩ => ⟨hw.2, hi, hstep, fun hrun => absurd hrun (by simp [hw.1])⟩
  | delayCounter a v =>
    simp only [State.mayWrite, State.running, Bool.not_eq_true'] at hw
    refine settle (State.put_delayCounter ..) nofun ?_ .inl
    exact fun ⟨hd, hi, hstep, _⟩ => ⟨hd, hi, hstep, fun hrun => absurd hrun (by simp [hw])⟩
  | seekUntilRelay a v =>
    simp only [State.mayWrite, Bool.and_eq_true, Bool.or_eq_true, Bool.not_eq_true'] at hw
    rw [State.put_seekUntilRelay]
    refine h.updAxis (fun hr _ => ⟨(Axis.inRange_iff ..).mpr ((Axis.inRange_iff ..).mp hr), .inl ?_⟩)
      fun b hb => mem_of_mem_cons_ne (by simp [hb])
    simpa [Axis.seekIsSafe] using hw.2
  | safeMode a v =>
    simp only [State.mayWrite, Bool.and_eq_true, Bool.or_eq_true, Bool.not_eq_true',
      decide_eq_true_eq] at hw
    refine settle (State.put_safeMode ..) nofun id fun _ => ?_
    refine hw.2.imp_left fun hv => ?_
    simpa [Axis.seekIsSafe, or_comm] using hv
  | nEN a v => exact settle (State.put_nEN ..) nofun id .inl
  | dir a v => exact settle (State.put_dir ..) nofun id .inl
  | ms a v => exact settle (State.put_ms ..) nofun id .inl
  | idac a v =>
    simp only [State.mayWrite, Bool.and_eq_true, decide_eq_true_eq] at hw
    refine settle (State.put_idac ..) nofun ?_ .inl
    exact fun ⟨hd, _, hstep, hcount⟩ => ⟨hd, hw.2, hstep, hcount⟩

/-- What the invariant says of an operation in progress. -/
theorem State.inv_access {s : State} {i : Instr} (hs : s.inv = true) (hd : s.fstate = .dispatch)
    (hp : s.phase = .access) (hi : s.fetched = some i) :
    s.axesOk ((operationOf s.cfg i).resume s.seen).pending
      ∧ s.mayFinish ((operationOf s.cfg i).resume s.seen).pending = true
      ∧ ∀ k v, (operationOf s.cfg i).resume s.seen = .read (.running .two) k → s.seen = [v] →
        v ≠ 0 ∨ s.axis1.running = false := by
  obtain ⟨-, haxes, -, hop⟩ := s.inv_iff.mp hs
  rw [State.operationOk_iff] at hop
  rw [State.pending, State.inProgress_access hd hp hi] at haxes hop
  exact ⟨haxes, hop.1, fun k v hk hv => hop.2 k v (congrArg some hk) hv⟩

/-- The write that an operation in progress has come to keeps the discipline, and so do those after it. -/
theorem State.inv_write {s : State} {i : Instr} {w : Write} {k : Script} (hs : s.inv = true)
    (hd : s.fstate = .dispatch) (hp : s.phase = .access) (hi : s.fetched = some i)
    (hk : (operationOf s.cfg i).resume s.seen = .write w k) :
    s.mayWrite k.pending w = true ∧ (s.put w).mayFinish k.pending = true := by
  obtain ⟨-, hfinish, -⟩ := State.inv_access hs hd hp hi
  rwa [hk, Script.pending, State.mayFinish, Bool.and_eq_true] at hfinish

theorem State.put_readyFor {s : State} {i : Instr} (w : Write) (h : s.readyFor i) :
    (s.put w).readyFor i := by
  obtain ⟨a, f, e⟩ | ⟨v, e⟩ := s.put_cases w <;> rw [e] <;> exact h

/-- One access of an operation (R62): a read is followed by what it allows, a write keeps the ranges. -/
theorem Script.access_inv {s : State} {i : Instr} (hs : s.inv = true) (hd : s.fstate = .dispatch)
    (hp : s.phase = .access) (hi : s.fetched = some i) :
    (((operationOf s.cfg i).resume s.seen).access s).inv = true := by
  have hready := State.readyFor_of_inv hs hd hi
  obtain ⟨haxes, -, hstart⟩ := State.inv_access hs hd hp hi
  have hresume := (operationOf s.cfg i).resume_append s.seen
  cases hk : (operationOf s.cfg i).resume s.seen with
  | respond ok outs =>
    rw [hk] at haxes
    exact State.respond_inv hready haxes ok outs
  | read r k =>
    rw [hk] at haxes hresume
    obtain ⟨hfinish, hnext⟩ := operation_reads hk fun v hr hv => hstart k v (by rw [hk, hr]) hv
    rw [Script.access_read]
    refine Script.pause_inv hready (hresume _) (haxes.mono (List.nil_subset _)) hfinish ?_
    intro k' v hk' hv
    obtain ⟨hseen, hidle⟩ := hnext _ _ hk'
    rw [hseen, List.nil_append, List.cons.injEq] at hv
    rwa [← hv.1]
  | write w k =>
    rw [hk] at haxes hresume
    obtain ⟨hw, hfinish⟩ := State.inv_write hs hd hp hi hk
    rw [Script.access_write]
    refine Script.pause_inv (State.put_readyFor w hready) ?_ (State.put_axesOk haxes hw) hfinish ?_
    · rw [(s.put_turns_cfg w).2]
      exact hresume 0
    · intro k' v hk' _
      exact absurd hk' ((operation_writes hk).not_read (seen := []))

/-- Every single step of the command agent keeps the invariant. -/
theorem agentStep_inv {s t : State} (hs : s.inv = true) (h : agentStep s = .next t) :
    t.inv = true := by
  obtain ⟨hd, rfl⟩ | ⟨hd, hp, i, hi, rfl⟩ | ⟨hd, hp, i, hi, rfl⟩ | ⟨hd, hp, rfl⟩ := agentStep_cases s h
  · exact State.receive_inv hd hs
  · exact Script.start_inv hs hd hp hi
  · exact Script.access_inv hs hd hp hi
  · exact State.transmit_inv hd hp hs

/-! ### A whole operation keeps the invariant -/

/-- A setter's effect on an idle axis keeps the ranges of R50 (R68). -/
theorem Setter.ok {c : Config} {a : AxisId} {i : Instr} {f : Axis → Axis} (h : Setter c a i f)
    {x : Axis} (hx : x.ok c = true) (hidle : x.running = false) : (f x).ok c = true := by
  simp only [Axis.ok, Bool.and_eq_true, Axis.inRange_iff, Axis.seekIsSafe_iff] at hx ⊢
  obtain ⟨⟨hdelay, hcurrent, hstep, -⟩, hsafe⟩ := hx
  have hcount (n m : Half) : x.running = true → n ≤ m := fun hr => absurd hr (by simp [hidle])
  cases h with
  | setSteps n => exact ⟨⟨hdelay, hcurrent, hstep, hcount _ _⟩, nofun⟩
  | setSafeSteps n => exact ⟨⟨hdelay, hcurrent, hstep, hcount _ _⟩, nofun⟩
  | setSeek => exact ⟨⟨hdelay, hcurrent, hstep, hcount _ _⟩, fun _ => rfl⟩
  | setEnable en v _ => exact ⟨⟨hdelay, hcurrent, hstep, hcount _ _⟩, hsafe⟩
  | setMicrosteps mode v _ => exact ⟨⟨hdelay, hcurrent, hstep, hcount _ _⟩, hsafe⟩
  | setDirection dir v _ => exact ⟨⟨hdelay, hcurrent, hstep, hcount _ _⟩, hsafe⟩
  | setCurrent value hv => exact ⟨⟨hdelay, hv, hstep, hcount _ _⟩, hsafe⟩
  | setStepDelay ticks hv =>
    exact ⟨⟨BitVec.ne_of_lt hv, hcurrent, hstep, hcount _ _⟩, hsafe⟩

theorem Axis.arm_ok {c : Config} {x : Axis} (hx : x.ok c = true) : x.arm.ok c = true := by
  simp only [Axis.ok, Bool.and_eq_true, Axis.inRange_iff] at hx ⊢
  obtain ⟨⟨hdelay, hcurrent, hstep, -⟩, hsafe⟩ := hx
  have hzero : (0 : Half) ≤ x.delayTicks := by bv_omega
  exact ⟨⟨hdelay, hcurrent, hstep, fun _ => hzero⟩, hsafe⟩

theorem Axis.halt_ok {c : Config} {x : Axis} (hx : x.ok c = true) : x.halt.ok c = true := by
  simp only [Axis.ok, Bool.and_eq_true, Axis.inRange_iff] at hx ⊢
  obtain ⟨⟨hdelay, hcurrent, hstep, -⟩, hsafe⟩ := hx
  exact ⟨⟨hdelay, hcurrent, hstep, nofun⟩, hsafe⟩

/-- What a command and the turns inside it make of an axis keeps the ranges of R50. -/
theorem AxisEffect.ok {n : Prop} {c : Config} {i : Instr} {a : AxisId} {x z : Axis}
    (h : AxisEffect n c i a x z) (hx : x.ok c = true) : z.ok c = true := by
  cases h with
  | ticks h => exact h.ok hx
  | setter f hf y h hidle hz => exact hz ▸ hf.ok (h.ok hx) hidle
  | start bf _ _ y h _ hz => exact hz.ok (Axis.arm_ok (h.ok hx))
  | stop bf _ _ y h hz => exact hz ▸ Axis.halt_ok (h.ok hx)

theorem State.axesOk_nil_iff (s : State) : s.axesOk [] ↔ ∀ a, (s.axis a).ok s.cfg = true := by
  simp [State.axesOk, Axis.ok]

theorem exec_inv {s t : State} {i : Instr} (hs : s.inv = true) (hd : s.fstate = .dispatch)
    (hp : s.phase = .operate) (hi : s.fetched = some i) (h : exec i s = .next t) :
    t.inv = true := by
  have hready := State.readyFor_of_inv hs hd hi
  obtain ⟨u, hcfg, rfl⟩ | ⟨u, ok, outs, rfl, -, hframe, -, heffect, -⟩ := exec_cases h
  · exact State.powerUp_inv (by rw [hcfg]; exact hready.1)
  · have haxes := State.axesOk_of_outside hs fun _ => by simp [hp]
    rw [State.axesOk_nil_iff] at haxes
    have hcfg : u.cfg = s.cfg := hframe.cfg
    have hready' : u.readyFor i := by
      rw [State.readyFor, hframe.fetched, hframe.cfg, hframe.fstate, hframe.opc, hframe.pidx]
      exact hready
    refine State.respond_inv hready' ((State.axesOk_nil_iff u).mpr fun a => ?_) ok outs
    rw [hcfg]
    exact (heffect a).ok (haxes a)

/-- Settles O4: the turns of the other agents, the single steps and the whole operations each keep the
invariant. -/
theorem stepKeepsTheInvariant : Obligations.StepKeepsTheInvariant := by
  intro s t hs h
  obtain ⟨u, ts, -, -, -, rfl⟩ | ⟨ts, -, hagent⟩ | ⟨ts, i, -, hd, hp, hi, hexec⟩ := step_cases s h
  · exact State.hostTurn_inv u ((s.inv_turns ts).trans hs)
  · exact agentStep_inv ((s.inv_turns ts).trans hs) hagent
  · exact exec_inv (s := { s with turns := ts }) ((s.inv_turns ts).trans hs) hd hp hi hexec

end Sys2Proof.Machine

namespace Sys2Proof.Machine

/-! ### Reset -/

/-- Settles O1: the reset values of each axis, and of what is not an axis. -/
theorem resetEstablishesTheResetValues : Obligations.ResetEstablishesTheResetValues := by
  intro c a
  dsimp only
  rw [State.initial_axis]
  exact ⟨⟨rfl, rfl, rfl, rfl, rfl, rfl, rfl⟩, ⟨rfl, rfl, rfl, rfl, rfl⟩, rfl, rfl, rfl, rfl, rfl, rfl,
    rfl⟩

theorem Config.default_valid : Config.default.valid = true := by decide

/-- Settles O2: reset meets the invariant under every valid configuration. -/
theorem resetMeetsTheInvariant : Obligations.ResetMeetsTheInvariant :=
  ⟨Config.default_valid, State.initial_inv Config.default_valid, fun _ => State.initial_inv⟩

/-- Settles O3: a RESET turn is the host's turn. -/
theorem resetTurnEstablishesTheResetValues : Obligations.ResetTurnEstablishesTheResetValues := by
  intro s ts h
  rw [step_turn s h nofun nofun]
  rfl

/-! ### A step in `Dispatch` -/

theorem agentStep_of_inv {s : State} (hs : s.inv = true) : ∃ t, agentStep s = .next t := by
  by_cases hd : s.fstate = .dispatch
  · obtain ⟨-, -, hframer, -⟩ := s.inv_iff.mp hs
    obtain ⟨hrow, -, -⟩ := (State.framerOk_dispatch hd).mp hframer
    obtain ⟨e, he⟩ := Option.isSome_iff_exists.mp hrow
    have hi : s.fetched = some (decodeOp e.op s.pay) := by
      rw [State.fetched, decodeCommand, he, Option.map_some]
    cases hp : s.phase with
    | operate => exact ⟨_, agentStep_operate s hd hp hi⟩
    | access => exact ⟨_, agentStep_access s hd hp hi⟩
    | transmit => exact ⟨_, agentStep_transmit s hd hp⟩
  · exact ⟨_, agentStep_await s hd⟩

/-- Settles O5: in `Dispatch` the invariant gives the opcode its row, and `exec` always answers. -/
theorem stepNeverStops : Obligations.StepNeverStops := by
  intro s hs
  have hagent (ts : List Turn) : ∃ t, agentStep { s with turns := ts } = .next t :=
    agentStep_of_inv ((s.inv_turns ts).trans hs)
  cases hts : s.turns with
  | nil =>
    rw [step_empty s hts]
    exact agentStep_of_inv hs
  | cons u ts =>
    by_cases hu : u = .command
    · subst hu
      rw [step_command s hts]
      exact hagent ts
    by_cases ho : u = .operation
    · subst ho
      rw [step_operation s hts]
      obtain e | ⟨-, -, i, -, e⟩ := operationStep_cases { s with turns := ts } <;> rw [e]
      · exact hagent ts
      · obtain ⟨t, hexec, -⟩ := exec_ends i { s with turns := ts }
        exact ⟨t, hexec⟩
    · exact ⟨_, step_turn s hts hu ho⟩

/-- With nothing scheduled or with its turn next the command agent moves. -/
theorem step_agent {s : State} {ts : List Turn}
    (h : (s.turns = [] ∧ ts = []) ∨ s.turns = .command :: ts) :
    step s = agentStep { s with turns := ts } := by
  obtain ⟨hturns, rfl⟩ | hturns := h
  · rw [step_empty s hturns, ← hturns]
  · exact step_command s hturns

/-- Settles O10: the first step of an operation is `Script.start`, each later one `Script.access`, and both
stop by `Script.pause`. -/
theorem stepRunsTheFetchedCommand : Obligations.StepRunsTheFetchedCommand := by
  refine ⟨fun s i hd hi => ⟨fun ts hp hturns => ?_, fun ts hturns => ⟨fun hp => ?_, fun hp => ?_⟩⟩,
    fun s u ts hturns hu ho => step_turn s hturns hu ho⟩
  · rw [step_operation s hturns]
    exact operationStep_operate { s with turns := ts } hd hp hi
  · rw [step_agent hturns, agentStep_operate { s with turns := ts } hd hp hi]
    change Host.Outcome.next ((operationOf s.cfg i).pause [] _) = _
    cases operationOf s.cfg i <;> rfl
  · rw [step_agent hturns, agentStep_access { s with turns := ts } hd hp hi]
    change Host.Outcome.next (((operationOf s.cfg i).resume s.seen).access _) = _
    cases (operationOf s.cfg i).resume s.seen with
    | respond ok outs => rfl
    | read r k =>
      change Host.Outcome.next ((k (s.get r)).pause (s.seen ++ [s.get r]) _) = _
      dsimp only
      cases k (s.get r) <;> rfl
    | write w k =>
      change Host.Outcome.next (k.pause (s.seen ++ [0]) _) = _
      dsimp only
      cases k <;> rfl

/-! ### What one write does to an axis -/

/-- The step output and the pulse are no elements that a command writes (R23, R34). -/
theorem State.put_step (s : State) (w : Write) (a : AxisId) :
    ((s.put w).axis a).step = (s.axis a).step
      ∧ ((s.put w).axis a).pulseHigh = (s.axis a).pulseHigh := by
  have upd (b : AxisId) (f : Axis → Axis)
      (hf : ∀ x, (f x).step = x.step ∧ (f x).pulseHigh = x.pulseHigh) :
      ((s.updAxis b f).axis a).step = (s.axis a).step
        ∧ ((s.updAxis b f).axis a).pulseHigh = (s.axis a).pulseHigh := by
    rw [State.updAxis_axis]
    split
    · exact hf _
    · exact ⟨rfl, rfl⟩
  cases w with
  | anyAxisRunning v => exact ⟨rfl, rfl⟩
  | _ => exact upd _ _ fun _ => ⟨rfl, rfl⟩

/-- A write of another element than `running` leaves `running` alone. -/
theorem State.put_running_eq (s : State) {w : Write} (a : AxisId) (hw : ∀ b v, w ≠ .running b v) :
    ((s.put w).axis a).running = (s.axis a).running := by
  have upd (b : AxisId) (f : Axis → Axis) (hf : ∀ x, (f x).running = x.running) :
      ((s.updAxis b f).axis a).running = (s.axis a).running := by
    rw [State.updAxis_axis]
    split
    · exact hf _
    · rfl
  cases w with
  | running b v => exact absurd rfl (hw b v)
  | anyAxisRunning v => rfl
  | _ => exact upd _ _ fun _ => rfl

/-- A write that sets an idle axis running is START's (R134). -/
theorem State.put_starts {s : State} {w : Write} {a : AxisId} (hidle : (s.axis a).running = false)
    (hrun : ((s.put w).axis a).running = true) : w = .running a true := by
  by_cases hw : ∃ b v, w = .running b v
  · obtain ⟨b, v, rfl⟩ := hw
    rw [State.put_running, State.updAxis_axis] at hrun
    split at hrun
    · rename_i hb
      rw [hb, show v = true from hrun]
    · rw [hidle] at hrun
      cases hrun
  · rw [State.put_running_eq s a fun b v e => hw ⟨b, v, e⟩, hidle] at hrun
    cases hrun

/-- A write that keeps the ownership discipline leaves a running axis alone, or stops it (R68). -/
theorem State.put_running_axis {s : State} {w : Write} {ws : List Write} {a : AxisId}
    (hw : s.mayWrite ws w = true) (hrun : (s.axis a).running = true) :
    (s.put w).axis a = s.axis a ∨ ((s.put w).axis a).running = false := by
  have guarded (b : AxisId) (f : Axis → Axis) (hb : s.running b = false) :
      (s.updAxis b f).axis a = s.axis a := by
    refine State.updAxis_axis_ne s b a f fun hab => ?_
    rw [hab] at hrun
    exact absurd (hrun.symm.trans hb) Bool.noConfusion
  cases w with
  | anyAxisRunning v => exact .inl rfl
  | running b v =>
    cases v with
    | false =>
      rw [State.put_running, State.updAxis_axis]
      split
      · exact .inr rfl
      · exact .inl rfl
    | true =>
      simp only [State.mayWrite, if_true, Bool.and_eq_true, Bool.not_eq_true'] at hw
      exact .inl (guarded b _ hw.1)
  | remainingSteps b v | delayCounter b v | nEN b v | dir b v | ms b v =>
    simp only [State.mayWrite, Bool.not_eq_true'] at hw
    exact .inl (guarded b _ hw)
  | delayTicks b v | seekUntilRelay b v | safeMode b v | idac b v =>
    simp only [State.mayWrite, Bool.and_eq_true, Bool.not_eq_true'] at hw
    exact .inl (guarded b _ hw.1)

/-! ### Settings, `running` and the step output over every step -/

theorem Axis.sameSettings.refl (x : Axis) : x.sameSettings x := ⟨rfl, rfl, rfl, rfl, rfl, rfl, rfl⟩

theorem Axis.sameSettings.trans {x y z : Axis} (h : x.sameSettings y) (k : y.sameSettings z) :
    x.sameSettings z := by
  obtain ⟨h1, h2, h3, h4, h5, h6, h7⟩ := h
  obtain ⟨k1, k2, k3, k4, k5, k6, k7⟩ := k
  exact ⟨h1.trans k1, h2.trans k2, h3.trans k3, h4.trans k4, h5.trans k5, h6.trans k6, h7.trans k7⟩

theorem State.powerUp_idle (s : State) (a : AxisId) : (s.powerUp.axis a).running = false := by
  rw [State.powerUp_axis]
  rfl

/-- A turn of the tick agent or the host restarts the machine, or makes of each axis what ticks make. -/
theorem State.hostTurn_axis (s : State) (u : Turn) (a : AxisId) :
    ((s.hostTurn u).axis a).running = false ∧ u = .reset
      ∨ u ≠ .reset ∧ (s.axis a).Ticked (u ≠ .tick) ((s.hostTurn u).axis a) := by
  by_cases hu : u = .reset
  · rw [hu]
    exact .inl ⟨s.powerUp_idle a, rfl⟩
  · exact .inr ⟨hu, (State.hostTurn_interleaved s hu).axes a⟩

/-- An axis that a command leaves running as it found it has kept its settings: its setters leave it idle,
and STOP stops it. -/
theorem AxisEffect.sameSettings {n : Prop} {c : Config} {i : Instr} {a : AxisId} {x z : Axis}
    (h : AxisEffect n c i a x z) (hrun : z.running = true) : x.sameSettings z := by
  cases h with
  | ticks h => exact h.sameSettings
  | setter f hf y h hidle hz =>
    rw [hz, (hf.keeps y).1, hidle] at hrun
    cases hrun
  | start bf _ _ y h _ hz => exact h.sameSettings.trans hz.sameSettings
  | stop bf _ _ y h hz =>
    rw [hz] at hrun
    cases hrun

/-- Settles O7: a turn and a whole operation make of a running axis what ticks make; a single write leaves
it alone by the ownership discipline. -/
theorem runningAxisKeepsItsSettings : Obligations.RunningAxisKeepsItsSettings := by
  intro s t a hs h hbefore hafter
  obtain ⟨u, ts, -, -, -, rfl⟩ | ⟨ts, -, hagent⟩ | ⟨ts, i, -, -, -, -, hexec⟩ := step_cases s h
  · obtain ⟨hidle, -⟩ | ⟨-, hticks⟩ := State.hostTurn_axis { s with turns := ts } u a
    · rw [hidle] at hafter
      cases hafter
    · exact hticks.sameSettings
  · obtain hsame | ⟨hd, hp, i, w, k, hi, hk, haxis⟩ := agentStep_axis { s with turns := ts } a hagent
    · rw [hsame]
      exact .refl _
    · obtain ⟨hw, -⟩ := State.inv_write ((s.inv_turns ts).trans hs) hd hp hi hk
      rw [haxis] at hafter ⊢
      obtain hsame | hidle := State.put_running_axis (a := a) hw hbefore
      · rw [hsame]
        exact .refl _
      · rw [hidle] at hafter
        cases hafter
  · obtain ⟨u, -, rfl⟩ | ⟨u, ok, outs, rfl, -, -, -, heffect, -⟩ := exec_cases hexec
    · rw [u.powerUp_idle] at hafter
      cases hafter
    · exact (heffect a).sameSettings hafter

/-- An axis that a command finds idle and leaves running was requested by a START. -/
theorem AxisEffect.started {n : Prop} {c : Config} {i : Instr} {a : AxisId} {x z : Axis}
    (h : AxisEffect n c i a x z) (hbefore : x.running = false) (hafter : z.running = true) :
    ∃ bf, i = .start bf ∧ requests c.wire bf a = true := by
  cases h with
  | ticks h =>
    rw [h.running hafter] at hbefore
    cases hbefore
  | setter f hf y h hidle hz =>
    rw [hz, (hf.keeps y).1, hidle] at hafter
    cases hafter
  | start bf hi hb y h hidle hz => exact ⟨bf, hi, hb⟩
  | stop bf _ _ y h hz =>
    rw [hz] at hafter
    cases hafter

/-- Settles O8: ticks only clear `running`; the single write that sets it is START's; so is the whole
operation. -/
theorem onlyStartSetsRunning : Obligations.OnlyStartSetsRunning := by
  intro s t a h hbefore hafter
  obtain ⟨u, ts, -, -, -, rfl⟩ | ⟨ts, -, hagent⟩ | ⟨ts, i, -, hd, hp, hi, hexec⟩ := step_cases s h
  · obtain ⟨hidle, -⟩ | ⟨-, hticks⟩ := State.hostTurn_axis { s with turns := ts } u a
    · exact absurd (hidle.symm.trans hafter) Bool.false_ne_true
    · exact absurd (hbefore.symm.trans (hticks.running hafter)) Bool.false_ne_true
  · obtain hsame | ⟨hd, hp, i, w, k, hi, hk, haxis⟩ := agentStep_axis { s with turns := ts } a hagent
    · rw [hsame] at hafter
      exact absurd (hbefore.symm.trans hafter) Bool.false_ne_true
    · rw [haxis] at hafter
      have hw := operation_write hk
      rw [State.put_starts (s := { s with turns := ts }) hbefore hafter] at hw
      cases hw with
      | startRunning _ bf hreq =>
        have hp : s.phase = .access := hp
        exact ⟨hd, by simp [hp], bf, hi, hreq⟩
  · obtain ⟨u, -, rfl⟩ | ⟨u, ok, outs, rfl, -, -, -, heffect, -⟩ := exec_cases hexec
    · rw [u.powerUp_idle] at hafter
      cases hafter
    · obtain ⟨bf, rfl, hreq⟩ := (heffect a).started hbefore hafter
      exact ⟨hd, by simp [hp], bf, hi, hreq⟩

/-- A command without a tick inside it leaves the step output and the pulse alone. -/
theorem AxisEffect.step_of_noTick {n : Prop} {c : Config} {i : Instr} {a : AxisId} {x z : Axis}
    (h : AxisEffect n c i a x z) (hn : n) : z.step = x.step ∧ z.pulseHigh = x.pulseHigh := by
  cases h with
  | ticks h => exact h.still hn ▸ ⟨rfl, rfl⟩
  | setter f hf y h _ hz =>
    rw [hz, h.still hn]
    exact ⟨(hf.keeps x).2.1, (hf.keeps x).2.2.1⟩
  | start bf _ _ y h _ hz =>
    rw [hz.still hn, h.still hn]
    exact ⟨rfl, rfl⟩
  | stop bf _ _ y h hz =>
    rw [hz, h.still hn]
    exact ⟨rfl, rfl⟩

/-- Settles O9: no write of a command and no turn but a tick or a RESET reaches the step output. -/
theorem onlyTicksMoveTheStepOutput : Obligations.OnlyTicksMoveTheStepOutput := by
  intro s t a htick hreset h
  obtain ⟨u, ts, -, -, hturns, rfl⟩ | ⟨ts, -, hagent⟩ | ⟨ts, i, hturns, -, -, -, hexec⟩ := step_cases s h
  · rw [hturns, List.mem_cons, not_or] at htick
    obtain ⟨-, hu⟩ | ⟨-, hticks⟩ := State.hostTurn_axis { s with turns := ts } u a
    · exact absurd (by rw [hturns, hu]; exact List.mem_cons_self) hreset
    · rw [hticks.still (Ne.symm htick.1)]
      exact ⟨rfl, rfl⟩
  · obtain hsame | ⟨-, -, i, w, k, -, -, haxis⟩ := agentStep_axis { s with turns := ts } a hagent
    · rw [hsame]
      exact ⟨rfl, rfl⟩
    · rw [haxis]
      exact State.put_step _ w a
  · rw [State.noReset, hturns, List.mem_cons, not_or] at hreset
    rw [hturns, List.mem_cons, not_or] at htick
    obtain ⟨u, ok, outs, rfl, -, -, -, heffect, -⟩ := exec_executed hreset.2 hexec
    exact (heffect a).step_of_noTick htick.2

end Sys2Proof.Machine

namespace Sys2Proof.Machine

/-! ### The single steps of an operation, under any schedule (R62, R69) -/

/-- Some run of at most `n` steps from `s` ends in `t`. -/
def State.Reaches (s : State) (n : Nat) (t : State) : Prop := ∃ m ≤ n, run m s = .next t

theorem State.Reaches.refl (s : State) (n : Nat) : s.Reaches n s := ⟨0, Nat.zero_le n, rfl⟩

theorem State.Reaches.after {s t u : State} {n : Nat} (h : step s = .next t) (k : t.Reaches n u) :
    s.Reaches (n + 1) u := by
  obtain ⟨m, hm, hrun⟩ := k
  exact ⟨m + 1, Nat.succ_le_succ hm, (run_succ s m h).trans hrun⟩

theorem State.Reaches.mono {s t : State} {m n : Nat} (h : s.Reaches m t) (hmn : m ≤ n) :
    s.Reaches n t := by
  obtain ⟨k, hk, hrun⟩ := h
  exact ⟨k, hk.trans hmn, hrun⟩

/-- The command agent stands inside the operation of `i`, with `seen` read so far. -/
structure State.Inside (c : Config) (i : Instr) (seen : List Half) (s : State) : Prop where
  cfg : s.cfg = c
  fstate : s.fstate = .dispatch
  phase : s.phase = .access
  fetched : s.fetched = some i
  seen : s.seen = seen

namespace State.Inside

variable {c : Config} {i : Instr} {seen : List Half} {s : State}

theorem hostTurn (h : s.Inside c i seen) {u : Turn} (hu : u ≠ .reset) :
    (s.hostTurn u).Inside c i seen := by
  have hframe := (State.hostTurn_interleaved s hu).toFramed
  exact ⟨hframe.cfg.trans h.cfg, hframe.fstate.trans h.fstate, hframe.phase.trans h.phase,
    hframe.fetched.trans h.fetched, hframe.seen.trans h.seen⟩

theorem turns (h : s.Inside c i seen) (ts : List Turn) :
    State.Inside c i seen { s with turns := ts } := ⟨h.1, h.2, h.3, h.4, h.5⟩

/-- Inside an operation the command agent's step is the next access. -/
theorem agentStep_eq (h : s.Inside c i seen) :
    agentStep s = .next (((operationOf c i).resume seen).access s) := by
  rw [agentStep_access s h.fstate h.phase h.fetched, h.cfg, h.seen]

/-- Inside an operation a turn `operation` is a turn `command` (log 1). -/
theorem operationStep_eq (h : s.Inside c i seen) : operationStep s = agentStep s := by
  obtain e | ⟨-, hp, -⟩ := operationStep_cases s
  · exact e
  · exact absurd (h.phase.symm.trans hp) nofun

end State.Inside

/-! ### Gaps turn by turn -/

section
variable (K : State → State) (s : State) {u : Turn} {ts : List Turn}

theorem State.hostTurn_turns (u : Turn) (ts : List Turn) :
    ({ s with turns := ts } : State).hostTurn u = { s.hostTurn u with turns := ts } := by
  cases u with
  | tick =>
    simp only [State.hostTurn, State.tick]
    split <;> rfl
  | _ => rfl

/-- The turns of a gap do not depend on the schedule field, which they overwrite. -/
theorem State.runTurns_turns (ts ts' : List Turn) :
    ({ s with turns := ts' } : State).runTurns ts = s.runTurns ts := by
  induction ts generalizing s ts' with
  | nil => rfl
  | cons u ts ih =>
    have other : (({ s with turns := ts' } : State).hostTurn u).runTurns ts
        = (s.hostTurn u).runTurns ts := by rw [State.hostTurn_turns, ih]
    cases u with
    | command => rfl
    | operation => rfl
    | reset => rfl
    | tick => exact other
    | rxByte b => exact other
    | contacts p x y => exact other
    | txAccept r => exact other

theorem gap_agent (h : s.turns = .command :: ts ∨ s.turns = .operation :: ts) :
    gap K s = K { s with turns := ts } := by
  obtain h | h := h <;> rw [gap, h] <;> rfl

theorem gap_reset (h : s.turns = .reset :: ts) :
    gap K s = ({ s with turns := ts } : State).powerUp := by
  rw [gap, h]
  rfl

/-- A gap that begins with a turn of the tick agent or the host is the gap after that turn. -/
theorem gap_turn (h : s.turns = u :: ts) (hc : u ≠ .command) (ho : u ≠ .operation)
    (hr : u ≠ .reset) : gap K s = gap K (({ s with turns := ts } : State).hostTurn u) := by
  have hnext : s.runTurns (u :: ts) = (s.hostTurn u).runTurns ts := by
    cases u with
    | command => exact absurd rfl hc
    | operation => exact absurd rfl ho
    | reset => exact absurd rfl hr
    | _ => rfl
  have hsame : (({ s with turns := ts } : State).hostTurn u).runTurns
      (({ s with turns := ts } : State).hostTurn u).turns = s.runTurns s.turns := by
    rw [State.hostTurn_turns, State.runTurns_turns, h, hnext]
  rw [gap, gap, hsame]

end

/-- An access of the operation after which the rest can be reached makes the gap before it reachable too, one
step for each turn. -/
theorem reaches_gap {c : Config} {i : Instr} {seen : List Half} {K : State → State} {n : Nat}
    (haccess : ∀ u : State, u.Inside c i seen →
      ∃ v, agentStep u = .next v ∧ v.Reaches (n + u.turns.length) (K u))
    {s : State} (hs : s.Inside c i seen) : s.Reaches (n + s.turns.length + 1) (gap K s) := by
  generalize hts : s.turns = ts
  induction ts generalizing s with
  | nil =>
    obtain ⟨v, hv, hreach⟩ := haccess s hs
    rw [hts] at hreach
    rw [gap_empty K s hts]
    exact hreach.after ((step_empty s hts).trans hv)
  | cons u ts ih =>
    obtain ⟨v, hv, hreach⟩ := haccess _ (hs.turns ts)
    have hagent : v.Reaches (n + (u :: ts).length) (K { s with turns := ts }) :=
      hreach.mono (by simp)
    by_cases hc : u = .command
    · subst hc
      rw [gap_agent K s (.inl hts)]
      exact hagent.after ((step_command s hts).trans hv)
    by_cases ho : u = .operation
    · subst ho
      rw [gap_agent K s (.inr hts)]
      exact hagent.after ((step_operation s hts).trans ((hs.turns ts).operationStep_eq.trans hv))
    have hstep := step_turn s hts hc ho
    by_cases hr : u = .reset
    · subst hr
      rw [gap_reset K s hts]
      exact (State.Reaches.refl _ _).after hstep
    · have hturns : (({ s with turns := ts } : State).hostTurn u).turns = ts := by
        rw [State.hostTurn_turns]
      rw [gap_turn K s hts hc ho hr]
      exact (ih ((hs.turns ts).hostTurn hr) hturns).after hstep

/-! ### The rest of an operation does not depend on the place fields, which its response overwrites -/

/-- The machine with the command agent at another place (log 29). -/
def State.atPlace (s : State) (p : Phase) (l : List Half) : State := { s with phase := p, seen := l }

theorem State.hostTurn_atPlace (s : State) {u : Turn} (hu : u ≠ .reset) (p : Phase) (l : List Half) :
    (s.atPlace p l).hostTurn u = (s.hostTurn u).atPlace p l := by
  cases u with
  | tick =>
    simp only [State.hostTurn, State.tick,
      show (s.atPlace p l).anyAxisRunning = s.anyAxisRunning from rfl]
    split <;> rfl
  | reset => exact absurd rfl hu
  | _ => rfl

theorem State.put_atPlace (s : State) (w : Write) (p : Phase) (l : List Half) :
    (s.atPlace p l).put w = (s.put w).atPlace p l := by
  cases w <;> rfl

theorem gap_atPlace {K : State → State} {p : Phase} {l : List Half}
    (hK : ∀ u : State, K (u.atPlace p l) = K u) (s : State) : gap K (s.atPlace p l) = gap K s := by
  generalize hts : s.turns = ts
  induction ts generalizing s with
  | nil => exact (gap_empty K (s.atPlace p l) hts).trans ((hK s).trans (gap_empty K s hts).symm)
  | cons u ts ih =>
    by_cases hagent : u = .command ∨ u = .operation
    · have hturns : s.turns = .command :: ts ∨ s.turns = .operation :: ts := by
        obtain rfl | rfl := hagent
        · exact .inl hts
        · exact .inr hts
      rw [gap_agent K s hturns, gap_agent K (s.atPlace p l) hturns]
      exact hK { s with turns := ts }
    by_cases hr : u = .reset
    · subst hr
      rw [gap_reset K s hts, gap_reset K (s.atPlace p l) hts]
      rfl
    · rw [not_or] at hagent
      rw [gap_turn K s hts hagent.1 hagent.2 hr,
        gap_turn K (s.atPlace p l) hts hagent.1 hagent.2 hr]
      have hplace := State.hostTurn_atPlace { s with turns := ts } hr p l
      refine (congrArg (gap K) hplace).trans (ih _ ?_)
      rw [State.hostTurn_turns]

theorem Script.run_atPlace (k : Script) (s : State) (p : Phase) (l : List Half) :
    k.run (s.atPlace p l) = k.run s := by
  induction k generalizing s with
  | respond ok outs => rfl
  | read r k ih => exact gap_atPlace (fun u => ih (u.get r) u) s
  | write w k ih =>
    refine gap_atPlace (fun u => ?_) s
    rw [State.put_atPlace, ih]

/-! ### The whole operation by its single steps -/

/-- At most `n` accesses are left, on every path. -/
def Script.within : Nat → Script → Prop
  | _, .respond _ _ => True
  | 0, _ => False
  | n + 1, .read _ k => ∀ v, (k v).within n
  | n + 1, .write _ k => k.within n

/-- The command agent stands in `Dispatch` with `i` fetched. -/
theorem State.atPlace_inside {s : State} {i : Instr} (hd : s.fstate = .dispatch)
    (hi : s.fetched = some i) (seen : List Half) :
    (s.atPlace .access seen).Inside s.cfg i seen := ⟨rfl, hd, rfl, hi, rfl⟩

/-- From where the command agent stops, single steps and the turns between them reach what the rest of the
operation answers as a whole. -/
theorem Script.reaches_run {c : Config} {i : Instr} (n : Nat) {k : Script} (hk : k.within n)
    {seen : List Half} (hresume : (operationOf c i).resume seen = k) {s : State} (hc : s.cfg = c)
    (hd : s.fstate = .dispatch) (hi : s.fetched = some i) :
    (k.pause seen s).Reaches (n + s.turns.length) (k.run s) := by
  induction n generalizing k seen s with
  | zero =>
    cases k with
    | respond ok outs => exact .refl _ _
    | read r k => exact hk.elim
    | write w k => exact hk.elim
  | succ n ih =>
    have hinside : (s.atPlace .access seen).Inside c i seen := hc ▸ State.atPlace_inside hd hi seen
    have hnext := (operationOf c i).resume_append seen
    rw [hresume] at hnext
    cases k with
    | respond ok outs => exact .refl _ _
    | read r k =>
      rw [← Script.run_atPlace _ s .access seen, Nat.succ_add]
      refine reaches_gap (fun u hu => ⟨_, hu.agentStep_eq, ?_⟩) hinside
      rw [hresume, Script.access_read, hu.seen]
      exact ih (hk _) (hnext _) hu.cfg hu.fstate hu.fetched
    | write w k =>
      rw [← Script.run_atPlace _ s .access seen, Nat.succ_add]
      refine reaches_gap (fun u hu => ⟨_, hu.agentStep_eq, ?_⟩) hinside
      rw [hresume, Script.access_write, hu.seen]
      obtain ⟨a, f, e⟩ | ⟨v, e⟩ := u.put_cases w
      · rw [e]
        exact ih hk (hnext 0) hu.cfg hu.fstate hu.fetched
      · rw [e]
        exact ih hk (hnext 0) hu.cfg hu.fstate hu.fetched

section
variable {n : Nat} {k : Script} {c : Bool} {w : Write}

theorem Script.within.succ (h : k.within n) : k.within (n + 1) := by
  induction n generalizing k with
  | zero =>
    cases k with
    | respond ok outs => trivial
    | read r k => exact h.elim
    | write w k => exact h.elim
  | succ n ih =>
    cases k with
    | respond ok outs => trivial
    | read r k => exact fun v => ih (h v)
    | write w k => exact ih h

theorem writesIf_within (h : k.within n) : (writesIf c w k).within (n + 1) := by
  cases c
  · exact h.succ
  · exact h

theorem requires_within (h : k.within n) : (requires c k).within n := by
  cases c
  · cases n <;> trivial
  · exact h

theorem decoded_within {α : Type} {v : Option α} {k : α → Script} (h : ∀ x, (k x).within n) :
    (decoded v k).within n := by
  cases v
  · cases n <;> trivial
  · exact h _

end

/-- No operation makes more than eight accesses: START's two reads and six writes are the most (R79). -/
theorem operation_within (c : Config) (i : Instr) : (operationOf c i).within 8 := by
  have axis {b : Byte} {k : AxisId → Script} (h : ∀ a, (k a).within 8) : (checkAxis b k).within 8 :=
    decoded_within h
  have idle {a : AxisId} {k : Script} (h : k.within 7) : (checkIdle a k).within 8 :=
    fun _ => requires_within h
  cases i with
  | setSteps b n | setSafeSteps b n => exact axis fun a => idle trivial
  | setSeek b => exact axis fun a => idle trivial
  | setEnable b x | setMicrosteps b x | setDirection b x =>
    exact axis fun a => idle (decoded_within fun _ => trivial)
  | setCurrent b x | setStepDelay b x => exact axis fun a => idle (requires_within trivial)
  | start bf =>
    refine requires_within fun _ _ => requires_within ?_
    exact writesIf_within <| writesIf_within <| writesIf_within <| writesIf_within <|
      writesIf_within (trivial : (writes (.anyAxisRunning true) (succeeds [])).within 1)
  | stop bf =>
    refine requires_within ?_
    exact writesIf_within <| writesIf_within <| writesIf_within
      (trivial : (succeeds []).within 5)
  | getVersion => trivial
  | getMoving b | getEnable b | getMicrosteps b | getDirection b | getCurrent b | getStepDelay b
  | getRelayStatus b => exact axis fun a _ => trivial

/-- From the start of an operation at most nine single steps, and one step for each scheduled turn, end in
what `exec` answers. -/
theorem reaches_exec {s : State} {i : Instr} {ts : List Turn} (hd : s.fstate = .dispatch)
    (hp : s.phase = .operate) (hi : s.fetched = some i)
    (hturns : (s.turns = [] ∧ ts = []) ∨ s.turns = .command :: ts) :
    ∃ t, exec i { s with turns := ts } = .next t ∧ ∃ m ≤ 8 + ts.length, run (m + 1) s = .next t := by
  refine ⟨_, exec_eq i { s with turns := ts }, ?_⟩
  have hstep := (step_agent hturns).trans (agentStep_operate { s with turns := ts } hd hp hi)
  obtain ⟨m, hm, hrun⟩ := Script.reaches_run 8 (operation_within s.cfg i)
    (Script.resume_nil _) (s := State.toggled { s with turns := ts }) rfl hd hi
  exact ⟨m, hm, (run_succ s m hstep).trans hrun⟩

/-- Settles O16: every gap of the operation is crossed by as many steps as it has turns. -/
theorem singleStepsMakeUpTheCommand : Obligations.SingleStepsMakeUpTheCommand := by
  intro s i ts hd hp hi hturns
  obtain ⟨t, hexec, m, -, hrun⟩ := reaches_exec hd hp hi hturns
  exact ⟨m + 1, t, hrun, hexec⟩

end Sys2Proof.Machine

namespace Sys2Proof.Machine

/-! ### One response for each command (R204) -/

/-- The row of the opcode in `Dispatch` is the row of the command that stands there. -/
theorem State.fetched_eq_some {s : State} {i : Instr} (hi : s.fetched = some i) :
    ∃ e, s.cfg.lookup s.opc = some e ∧ e.op = i.op := by
  obtain ⟨e, hrow, hdecode⟩ := Option.map_eq_some_iff.mp hi
  exact ⟨e, hrow, by rw [← hdecode, decodeOp_op]⟩

/-- What a command leaves behind is a response frame of the opcode's length, about to be sent. -/
theorem Executed.aboutToSend {i : Instr} {s t : State} (h : Executed i s t)
    (hvalid : s.cfg.valid = true) (hi : s.fetched = some i) :
    ∃ ok outs, t.aboutToSend (responseFrame s.cfg s.opc ok outs)
      ∧ (responseFrame s.cfg s.opc ok outs).length = s.cfg.respLen s.opc := by
  obtain ⟨u, ok, outs, rfl, houts, hframe, -⟩ := h
  obtain ⟨e, hrow, hop⟩ := State.fetched_eq_some hi
  have hcfg : u.cfg = s.cfg := hframe.cfg
  have hopc : u.opc = s.opc := hframe.opc
  have hlen : e.respLen = 5 + i.op.respFields.sum := by
    rw [(Config.lengths hvalid (Config.lookup_mem hrow).1).2, hop]
  have hassembled := responseAssembly u e ok outs (by rw [hcfg]; exact hvalid)
    (by rw [hcfg, hopc]; exact hrow) fun hok => by rw [houts hok, hlen, Nat.add_sub_cancel_left]
  rw [hcfg, hopc] at hassembled
  refine ⟨ok, outs, hassembled.1, ?_⟩
  rw [hassembled.2, Config.respLen, hrow]

theorem responseFrame_ne_nil (c : Config) (opc : Byte) (ok : Bool) (outs : List Byte) :
    responseFrame c opc ok outs ≠ [] := List.cons_ne_nil _ _

/-- Settles O21: the frame is received, the operation makes at most eight accesses, and the response it
leaves is sent. -/
theorem oneResponsePerFramedCommand : Obligations.OneResponsePerFramedCommand := by
  intro s i rest hvalid hturns hready hstate hrx
  have hreceived := run_encode hvalid hturns hstate hrx
  have hi : (s.delivered i rest).fetched = some i := State.delivered_fetched hvalid
  obtain ⟨u, hexec, m, hm, hrun⟩ :=
    reaches_exec (s := s.delivered i rest) rfl rfl hi (.inl ⟨hturns, rfl⟩)
  obtain ⟨hrx', hready', -, -, hturns'⟩ := exec_quietly i (s := { s.delivered i rest with turns := [] })
    rfl hexec
  have hexecuted := exec_executed (by simp [State.noReset]) hexec
  obtain ⟨ok, outs, hsend, hlen⟩ := hexecuted.aboutToSend hvalid hi
  obtain ⟨v, ok', outs', rfl, -, hframe, -⟩ := hexecuted
  have hsent := responseIsTransmittedInOrder _ _ hturns' hframe.fstate (hready'.trans hready) hsend
    (responseFrame_ne_nil _ _ _ _)
  rw [hlen] at hsent
  have hrunAll := (run_add _ _ _ hreceived).trans ((run_add _ _ _ hrun).trans hsent)
  rw [← Nat.add_assoc] at hrunAll
  refine ⟨m + 1, _, ok, outs, Nat.succ_pos m, Nat.succ_le_succ hm, hrunAll, ?_, hlen, rfl, hrx', ?_⟩
  · exact congrArg (· ++ _) hframe.tx
  · exact hframe.indicator

end Sys2Proof.Machine

namespace Sys2Proof.Machine

/-! ### Several ticks of the machine -/

section
variable (s : State) (a : AxisId)

theorem State.ticks_add (m n : Nat) : s.ticks (m + n) = (s.ticks m).ticks n := by
  induction n with
  | zero => rfl
  | succ n ih => rw [Nat.add_succ, State.ticks, ih, State.ticks]

@[simp] theorem State.ticks_anyAxisRunning (n : Nat) :
    (s.ticks n).anyAxisRunning = s.anyAxisRunning := by
  induction n with
  | zero => rfl
  | succ n ih => rw [State.ticks, State.tick_anyAxisRunning, ih]

@[simp] theorem State.ticks_relayTriggered (n : Nat) :
    (s.ticks n).relayTriggered a = s.relayTriggered a := by
  induction n with
  | zero => rfl
  | succ n ih => rw [State.ticks, State.tick_relayTriggered, ih]

/-- One more tick of an axis while the flag is up. -/
theorem State.ticks_succ_axis (n : Nat) (h : s.anyAxisRunning = true) :
    (s.ticks (n + 1)).axis a = ((s.ticks n).axis a).tick (s.relayTriggered a) := by
  rw [State.ticks, State.tick_axis, State.ticks_anyAxisRunning, State.ticks_relayTriggered, if_pos h]

end

/-- Settles O25: by R111 and R114 a tick of one axis is a function of the flag, the axis and its relay. -/
theorem ticksKeepTheAxesIndependent : Obligations.TicksKeepTheAxesIndependent := by
  intro s t a n hflag haxis hcontacts
  have hrelay : s.relayTriggered a = t.relayTriggered a := by
    rw [State.relayTriggered, State.relayTriggered, hcontacts]
  induction n with
  | zero => exact haxis
  | succ n ih =>
    rw [State.ticks, State.ticks, State.tick_axis, State.tick_axis, ih]
    simp only [State.ticks_anyAxisRunning, State.ticks_relayTriggered, hflag, hrelay]

/-- Settles O30: the count is decremented by the toggle of an unfinished low axis, the countdown when it is
not 0. -/
theorem decrementsNeverWrap : Obligations.DecrementsNeverWrap := by
  intro s a
  dsimp only
  rw [State.tick_axis]
  generalize s.axis a = x
  split
  case isFalse => exact ⟨.inl rfl, .inl rfl⟩
  case isTrue =>
    obtain ⟨-, e⟩ | ⟨-, e⟩ | ⟨-, hunfinished, -, e⟩ | ⟨-, -, hcount, e⟩ :=
      Axis.tick_cases x (s.relayTriggered a) <;> rw [e]
    · exact ⟨.inl rfl, .inl rfl⟩
    · exact ⟨.inl rfl, .inl rfl⟩
    · refine ⟨?_, .inr (.inl rfl)⟩
      rw [Axis.toggle_eq]
      dsimp only
      split
      · rename_i hcounted
        have hsteps : x.remainingSteps ≠ 0 := by
          simpa [Axis.unfinished, hcounted.1, hcounted.2] using hunfinished
        right
        bv_omega
      · exact .inl rfl
    · refine ⟨.inl rfl, .inr (.inr ?_)⟩
      dsimp only
      bv_omega

/-- Settles O29: while it seeks and its relay is quiet an axis toggles or counts down, and no toggle is
counted (R118). -/
theorem seekRunsUntilTheRelay : Obligations.SeekRunsUntilTheRelay := by
  intro s a n hflag hrun hseek hrelay
  suffices h : ((s.ticks n).axis a).running = true ∧ ((s.ticks n).axis a).seekUntilRelay = true
      ∧ ((s.ticks n).axis a).remainingSteps = (s.axis a).remainingSteps from ⟨h.1, h.2.2⟩
  induction n with
  | zero => exact ⟨hrun, hseek, rfl⟩
  | succ n ih =>
    rw [State.ticks_succ_axis s a n hflag, hrelay]
    obtain ⟨hrun', hseek', hcount'⟩ := ih
    have huntripped : ((s.ticks n).axis a).untripped false := Bool.and_false _
    by_cases h0 : ((s.ticks n).axis a).delayCounter = 0
    · rw [Axis.tick_toggle _ _ huntripped hrun' (.inl hseek') h0]
      exact ⟨hrun', hseek', by simp [Axis.toggle, hseek', hcount']⟩
    · rw [Axis.tick_countdown _ _ huntripped hrun' (.inl hseek') h0]
      exact ⟨hrun', hseek', hcount'⟩

/-- A tick does nothing to two idle axes. -/
theorem State.tick_idle {s : State} (h : ∀ a, (s.axis a).running = false) : s.tick = s := by
  refine State.ext_axis (fun a => s.tick_axis_idle a (h a)) ?_
  exact (congrArg (fun t : State => { t with axis1 := s.axis1, axis2 := s.axis2 }) s.tick_frame)

/-- Settles O31: no axis to tick, no byte to take. -/
theorem quiescentStatesAreStable : Obligations.QuiescentStatesAreStable := by
  intro s h
  simp only [State.quiescent, Bool.and_eq_true, Bool.not_eq_true', beq_iff_eq,
    List.isEmpty_iff] at h
  obtain ⟨⟨⟨hstate, hrx⟩, h1⟩, h2⟩ := h
  have htick : s.tick = s := State.tick_idle fun a => by cases a <;> assumption
  refine ⟨fun n => ?_, fun hturns => (holdKeepsTheState s hturns).1 (by simp [hstate]) hrx⟩
  induction n with
  | zero => rfl
  | succ n ih => rw [State.ticks, ih, htick]

/-! ### Half-periods (40_step_generator.md section 2) -/

/-- The relay does not trip the axis in any of the ticks to come. -/
theorem State.relayQuiet.untripped {s : State} {a : AxisId} (h : s.relayQuiet a) :
    (s.axis a).untripped (s.relayTriggered a) := by
  obtain ⟨hsafe, hseek⟩ | hrelay := h
  · simp [Axis.untripped, hsafe, hseek]
  · rw [Axis.untripped, hrelay, Bool.and_false]

/-- An axis whose next tick toggles it: it runs, its relay is quiet and its countdown has come to 0. -/
structure State.Toggling (s : State) (a : AxisId) : Prop where
  flag : s.anyAxisRunning = true
  running : (s.axis a).running = true
  quiet : (s.axis a).untripped (s.relayTriggered a)
  unfinished : (s.axis a).unfinished
  zero : (s.axis a).delayCounter = 0

namespace State.Toggling

variable {s : State} {a : AxisId}

theorem ticks_one (h : s.Toggling a) : (s.ticks 1).axis a = (s.axis a).toggle := by
  rw [State.ticks_succ_axis s a 0 h.flag]
  exact Axis.tick_toggle _ _ h.quiet h.running h.unfinished h.zero

/-- After the toggle the axis counts down from its delay (R115). -/
theorem ticks_one_add (h : s.Toggling a) (hunfinished : (s.axis a).toggle.unfinished) {k : Nat}
    (hk : k ≤ (s.axis a).delayTicks.toNat) :
    (s.ticks (1 + k)).axis a = { (s.axis a).toggle with
      delayCounter := (s.axis a).delayTicks - BitVec.ofNat 16 k } := by
  induction k with
  | zero =>
    rw [h.ticks_one]
    simp [Axis.toggle]
  | succ k ih =>
    rw [← Nat.add_assoc, State.ticks_succ_axis s a _ h.flag, ih (Nat.le_of_succ_le hk)]
    have hcount : (s.axis a).delayTicks - BitVec.ofNat 16 k ≠ 0 := by
      have := (s.axis a).delayTicks.isLt
      bv_omega
    refine (Axis.tick_countdown { (s.axis a).toggle with
      delayCounter := (s.axis a).delayTicks - BitVec.ofNat 16 k } _ h.quiet h.running hunfinished
      hcount).trans ?_
    rw [BitVec.ofNat_add, ← BitVec.sub_sub]
    rfl

/-- One half-period: the axis is toggled, and its countdown is back at 0. -/
theorem ticks_half (h : s.Toggling a) (hunfinished : (s.axis a).toggle.unfinished) :
    (s.ticks (1 + (s.axis a).delayTicks.toNat)).axis a
      = { (s.axis a).toggle with delayCounter := 0 } := by
  rw [h.ticks_one_add hunfinished le_rfl]
  simp

/-- Over a half-period the level of `STEP` is the toggled one. -/
theorem step_half (h : s.Toggling a) (hunfinished : (s.axis a).toggle.unfinished) {k : Nat}
    (hk : k ≤ (s.axis a).delayTicks.toNat) :
    ((s.ticks (1 + k)).axis a).step = !(s.axis a).step := by
  rw [h.ticks_one_add hunfinished hk]
  rfl

/-- After a half-period the next toggle is due. -/
theorem next (h : s.Toggling a) (hunfinished : (s.axis a).toggle.unfinished) :
    (s.ticks (1 + (s.axis a).delayTicks.toNat)).Toggling a := by
  have hhalf := h.ticks_half hunfinished
  constructor
  · rw [State.ticks_anyAxisRunning, h.flag]
  · rw [hhalf]
    exact h.running
  · rw [hhalf, State.ticks_relayTriggered]
    exact h.quiet
  · rw [hhalf]
    exact hunfinished
  · rw [hhalf]

end State.Toggling

/-- Outside a low pulse with an empty count a toggle leaves the axis unfinished, unless it brings the pulse
down with an empty count. -/
theorem Axis.toggle_unfinished {x : Axis} (h : x.seekUntilRelay = true ∨ x.remainingSteps ≠ 0) :
    x.toggle.unfinished := by
  rw [Axis.toggle_eq]
  cases hp : x.pulseHigh with
  | false => exact .inr (.inl rfl)
  | true =>
    refine h.imp_right fun hcount => .inr ?_
    simpa [hp] using hcount

/-- Settles O26: the toggle, the countdown, and the next toggle. -/
theorem halfPeriodIsDelayPlusOne : Obligations.HalfPeriodIsDelayPlusOne := by
  intro s a hflag hrun hquiet hzero hcount
  have htoggling : s.Toggling a :=
    ⟨hflag, hrun, hquiet.untripped, hcount.imp_right .inr, hzero⟩
  have hunfinished := Axis.toggle_unfinished hcount
  refine ⟨fun k hk => htoggling.step_half hunfinished hk, ?_⟩
  rw [← Nat.add_assoc, State.ticks_add, (htoggling.next hunfinished).ticks_one,
    htoggling.ticks_half hunfinished]
  simp [Axis.toggle]

/-! ### Ticks to completion (R117) -/

section
variable (s : State) (a : AxisId)

/-- The edges a counted axis still makes: two for each step left, and the falling one of a high pulse. -/
def Axis.edgesLeft (x : Axis) : Nat := 2 * x.remainingSteps.toNat + x.pulseHigh.toNat

/-- The tick at which an axis with countdown 0, half-period `H` and `m` edges left is done. -/
def completionTick (H m : Nat) : Nat := if m = 0 then 1 else 2 + (m - 1) * H

theorem completionTick_add_two (H m : Nat) :
    completionTick H (m + 2) = H + completionTick H (m + 1) := by
  simp only [completionTick, Nat.succ_ne_zero, if_false, Nat.add_sub_cancel]
  rw [show m + 2 - 1 = m + 1 from rfl, Nat.succ_mul]
  omega

/-- A tick makes an edge when the level of `STEP` differs before and after it. -/
theorem State.risingEdges_succ {n : Nat} {p q : Bool} (hp : ((s.ticks n).axis a).step = p)
    (hq : ((s.ticks (n + 1)).axis a).step = q) :
    s.risingEdges a (n + 1) = s.risingEdges a n + (!p && q).toNat := by
  rw [State.risingEdges]
  simp only [hp, hq]
  cases p <;> cases q <;> rfl

theorem State.fallingEdges_succ {n : Nat} {p q : Bool} (hp : ((s.ticks n).axis a).step = p)
    (hq : ((s.ticks (n + 1)).axis a).step = q) :
    s.fallingEdges a (n + 1) = s.fallingEdges a n + (p && !q).toNat := by
  rw [State.fallingEdges]
  simp only [hp, hq]
  cases p <;> cases q <;> rfl

/-- The edges of the first `m + n` ticks are those of the first `m` and those of the `n` after them. -/
theorem State.risingEdges_add (m n : Nat) :
    s.risingEdges a (m + n) = s.risingEdges a m + (s.ticks m).risingEdges a n := by
  induction n with
  | zero => rfl
  | succ n ih =>
    rw [← Nat.add_assoc, State.risingEdges, State.risingEdges, ih, Nat.add_assoc, Nat.add_assoc,
      State.ticks_add, State.ticks_add]

theorem State.fallingEdges_add (m n : Nat) :
    s.fallingEdges a (m + n) = s.fallingEdges a m + (s.ticks m).fallingEdges a n := by
  induction n with
  | zero => rfl
  | succ n ih =>
    rw [← Nat.add_assoc, State.fallingEdges, State.fallingEdges, ih, Nat.add_assoc, Nat.add_assoc,
      State.ticks_add, State.ticks_add]

end

namespace State.Toggling

variable {s : State} {a : AxisId}

/-- A half-period has the one edge of its toggle. -/
theorem edges_half (h : s.Toggling a) (hunfinished : (s.axis a).toggle.unfinished) {k : Nat}
    (hk : k ≤ (s.axis a).delayTicks.toNat) :
    s.risingEdges a (1 + k) = (!(s.axis a).step).toNat
      ∧ s.fallingEdges a (1 + k) = (s.axis a).step.toNat := by
  induction k with
  | zero =>
    have hstep := h.step_half hunfinished hk
    rw [s.risingEdges_succ a rfl hstep, s.fallingEdges_succ a rfl hstep]
    change 0 + (!(s.axis a).step && _).toNat = _ ∧ 0 + ((s.axis a).step && _).toNat = _
    cases (s.axis a).step <;> exact ⟨rfl, rfl⟩
  | succ k ih =>
    obtain ⟨hrise, hfall⟩ := ih (Nat.le_of_succ_le hk)
    have hbefore := h.step_half hunfinished (Nat.le_of_succ_le hk)
    have hafter := h.step_half hunfinished hk
    rw [← Nat.add_assoc] at hafter ⊢
    rw [s.risingEdges_succ a hbefore hafter, s.fallingEdges_succ a hbefore hafter, hrise, hfall]
    cases (s.axis a).step <;> exact ⟨rfl, rfl⟩

end State.Toggling

/-- Everything R117 says of a counted axis with countdown 0: until when it runs, how it ends, how many edges
it makes and on which ticks. -/
structure State.Completes (s : State) (a : AxisId) (m : Nat) : Prop where
  running : ∀ n < completionTick ((s.axis a).delayTicks.toNat + 1) m,
    ((s.ticks n).axis a).running = true
  final : (s.ticks (completionTick ((s.axis a).delayTicks.toNat + 1) m)).axis a = { s.axis a with
    running := false, remainingSteps := 0, pulseHigh := false, step := false
    delayCounter := if m = 0 then 0 else (s.axis a).delayTicks }
  rising : s.risingEdges a (completionTick ((s.axis a).delayTicks.toNat + 1) m)
    = (m + (!(s.axis a).step).toNat) / 2
  falling : s.fallingEdges a (completionTick ((s.axis a).delayTicks.toNat + 1) m)
    = (m + (s.axis a).step.toNat) / 2
  edges : ∀ j < m,
    ((s.ticks (j * ((s.axis a).delayTicks.toNat + 1))).axis a).step = ((s.axis a).step ^^ decide (j % 2 = 1))
    ∧ ((s.ticks (1 + j * ((s.axis a).delayTicks.toNat + 1))).axis a).step
      = !((s.axis a).step ^^ decide (j % 2 = 1))

/-- A running axis outside seek mode, with the flag up, its relay quiet and its output equal to its pulse. -/
structure State.Counting (s : State) (a : AxisId) : Prop where
  flag : s.anyAxisRunning = true
  running : (s.axis a).running = true
  seek : (s.axis a).seekUntilRelay = false
  quiet : (s.axis a).untripped (s.relayTriggered a)
  level : (s.axis a).step = (s.axis a).pulseHigh

namespace State.Counting

variable {s : State} {a : AxisId}

/-- R113: with the pulse low and no step left the next tick ends the move. -/
theorem done (h : s.Counting a) (hlow : (s.axis a).pulseHigh = false)
    (hcount : (s.axis a).remainingSteps = 0) :
    (s.ticks 1).axis a = { s.axis a with running := false } := by
  rw [State.ticks_succ_axis s a 0 h.flag]
  exact Axis.tick_complete _ _ h.quiet h.running h.seek hlow hcount

/-- The state after a number of ticks that have changed the axis to `x`. -/
theorem ticks (h : s.Counting a) {n : Nat} {x : Axis} (hx : (s.ticks n).axis a = x)
    (hrun : x.running = true) (hset : (s.axis a).sameSettings x) (hlevel : x.step = x.pulseHigh) :
    (s.ticks n).Counting a := by
  obtain ⟨-, hseek, hsafe, -⟩ := hset
  constructor <;> simp only [hx, State.ticks_anyAxisRunning, State.ticks_relayTriggered]
  · exact h.flag
  · exact hrun
  · exact hseek ▸ h.seek
  · rw [Axis.untripped, ← hsafe, ← hseek]
    exact h.quiet
  · exact hlevel

end State.Counting

/-- No edge left: the low pulse and the empty count end the move at the first tick. -/
theorem State.completes_zero {s : State} {a : AxisId} (h : s.Counting a)
    (hlow : (s.axis a).pulseHigh = false) (hcount : (s.axis a).remainingSteps = 0)
    (hzero : (s.axis a).delayCounter = 0) : s.Completes a 0 := by
  have hdone := h.done hlow hcount
  have hstep : ((s.ticks 0).axis a).step = false := h.level.trans hlow
  have hstep' : ((s.ticks 1).axis a).step = false := by rw [hdone]; exact hstep
  constructor
  · intro n hn
    obtain rfl : n = 0 := Nat.lt_one_iff.mp hn
    exact h.running
  · refine hdone.trans ?_
    have hlevel := h.level
    generalize s.axis a = x at hlow hcount hzero hlevel ⊢
    cases x
    simp_all
  · rw [h.level, hlow]
    exact s.risingEdges_succ a hstep hstep'
  · rw [h.level, hlow]
    exact s.fallingEdges_succ a hstep hstep'
  · nofun

/-- One edge left: the falling edge of the high pulse, and the end of the move at the tick after it. -/
theorem State.completes_one {s : State} {a : AxisId} (h : s.Counting a)
    (hhigh : (s.axis a).pulseHigh = true) (hcount : (s.axis a).remainingSteps = 0)
    (hzero : (s.axis a).delayCounter = 0) : s.Completes a 1 := by
  have htoggling : s.Toggling a := ⟨h.flag, h.running, h.quiet, .inr (.inl hhigh), hzero⟩
  have hone := htoggling.ticks_one
  have hlevel : (s.axis a).toggle.step = (s.axis a).toggle.pulseHigh := by
    simp [Axis.toggle, h.level]
  have hnext : (s.ticks 1).Counting a := h.ticks hone h.running
    ⟨rfl, rfl, rfl, rfl, rfl, rfl, rfl⟩ hlevel
  have htwo : (s.ticks 2).axis a = { (s.axis a).toggle with running := false } := by
    rw [State.ticks_add s 1 1, hnext.done, hone]
    · rw [hone]
      simp [Axis.toggle, hhigh]
    · rw [hone]
      simp [Axis.toggle, hhigh, hcount]
  have hstep0 : ((s.ticks 0).axis a).step = true := h.level.trans hhigh
  have hstep1 : ((s.ticks 1).axis a).step = false := by
    rw [hone, hlevel]
    simp [Axis.toggle, hhigh]
  have hstep2 : ((s.ticks 2).axis a).step = false := by
    rw [htwo, ← hstep1, hone]
  have htick (H : Nat) : completionTick H 1 = 2 := by simp [completionTick]
  constructor
  · intro n hn
    rw [htick] at hn
    obtain rfl | rfl : n = 0 ∨ n = 1 := by omega
    · exact h.running
    · exact hnext.running
  · rw [htick, htwo]
    have hlevel := h.level
    generalize s.axis a = x at hhigh hcount hlevel ⊢
    cases x
    simp_all [Axis.toggle]
  · rw [htick, h.level, hhigh, s.risingEdges_succ a hstep1 hstep2,
      s.risingEdges_succ a hstep0 hstep1]
    rfl
  · rw [htick, h.level, hhigh, s.fallingEdges_succ a hstep1 hstep2,
      s.fallingEdges_succ a hstep0 hstep1]
    simp [State.fallingEdges]
  · intro j hj
    obtain rfl : j = 0 := Nat.lt_one_iff.mp hj
    rw [Nat.zero_mul, h.level, hhigh]
    exact ⟨hstep0, hstep1⟩

/-- More edges left: one edge in the first half-period, the others after it. -/
theorem State.completes_add_two {s : State} {a : AxisId} {m : Nat} (htoggling : s.Toggling a)
    (hunfinished : (s.axis a).toggle.unfinished)
    (hrest : (s.ticks (1 + (s.axis a).delayTicks.toNat)).Completes a (m + 1)) :
    s.Completes a (m + 2) := by
  have hhalf := htoggling.ticks_half hunfinished
  obtain ⟨hrising, hfalling⟩ := htoggling.edges_half hunfinished le_rfl
  obtain ⟨rrun, rfinal, rrising, rfalling, redges⟩ := hrest
  simp only [hhalf, Axis.toggle] at rrun rfinal rrising rfalling redges
  have htick : completionTick ((s.axis a).delayTicks.toNat + 1) (m + 2)
      = (1 + (s.axis a).delayTicks.toNat)
        + completionTick ((s.axis a).delayTicks.toNat + 1) (m + 1) := by
    rw [completionTick_add_two, Nat.add_comm 1]
  constructor
  · intro n hn
    rw [htick] at hn
    obtain rfl | ⟨k, hk, rfl⟩ | ⟨k, rfl⟩ : n = 0 ∨ (∃ k ≤ (s.axis a).delayTicks.toNat, n = 1 + k)
        ∨ ∃ k, n = (1 + (s.axis a).delayTicks.toNat) + k := by
      by_cases h0 : n = 0
      · exact .inl h0
      by_cases hle : n ≤ 1 + (s.axis a).delayTicks.toNat
      · exact .inr (.inl ⟨n - 1, by omega, by omega⟩)
      · exact .inr (.inr ⟨n - (1 + (s.axis a).delayTicks.toNat), by omega⟩)
    · exact htoggling.running
    · rw [htoggling.ticks_one_add hunfinished hk]
      exact htoggling.running
    · rw [State.ticks_add]
      exact rrun k (Nat.lt_of_add_lt_add_left hn)
  · rw [htick, State.ticks_add, rfinal]
    simp
  · rw [htick, State.risingEdges_add, hrising, rrising]
    cases (s.axis a).step <;> simp <;> omega
  · rw [htick, State.fallingEdges_add, hfalling, rfalling]
    cases (s.axis a).step <;> simp <;> omega
  · intro j hj
    cases j with
    | zero =>
      rw [Nat.zero_mul]
      have hone := htoggling.step_half hunfinished (Nat.zero_le _)
      exact ⟨(Bool.xor_false _).symm, hone.trans (by simp)⟩
    | succ j =>
      have hmul : (j + 1) * ((s.axis a).delayTicks.toNat + 1)
          = (1 + (s.axis a).delayTicks.toNat) + j * ((s.axis a).delayTicks.toNat + 1) := by
        rw [Nat.succ_mul]
        omega
      have hodd : decide ((j + 1) % 2 = 1) = !decide (j % 2 = 1) := by
        rw [← decide_not]
        exact decide_eq_decide.mpr (by omega)
      have hsplit : 1 + (j + 1) * ((s.axis a).delayTicks.toNat + 1)
          = (1 + (s.axis a).delayTicks.toNat) + (1 + j * ((s.axis a).delayTicks.toNat + 1)) := by
        omega
      obtain ⟨hlevel, hedge⟩ := redges j (Nat.lt_of_succ_lt_succ hj)
      rw [hsplit, hmul, s.ticks_add (1 + _), s.ticks_add (1 + _), hlevel, hedge, hodd]
      simp

/-- A toggle makes one of the edges left. -/
theorem Axis.toggle_edgesLeft {x : Axis} (hseek : x.seekUntilRelay = false)
    (hcount : x.remainingSteps ≠ 0) : x.toggle.edgesLeft + 1 = x.edgesLeft := by
  rw [Axis.toggle_eq]
  simp only [Axis.edgesLeft, hseek, and_true]
  cases x.pulseHigh with
  | false =>
    simp only [if_true, Bool.not_false, Bool.toNat_true, Bool.toNat_false]
    bv_omega
  | true => simp

/-- A counted move outside seek mode ends by the count of its edges. -/
theorem State.completes {s : State} {a : AxisId} (m : Nat) (h : s.Counting a)
    (hzero : (s.axis a).delayCounter = 0) (hm : (s.axis a).edgesLeft = m) : s.Completes a m := by
  induction m generalizing s with
  | zero =>
    simp only [Axis.edgesLeft, Nat.add_eq_zero_iff, Nat.mul_eq_zero, Bool.toNat_eq_zero] at hm
    exact State.completes_zero h hm.2 (BitVec.eq_of_toNat_eq (hm.1.resolve_left (by decide))) hzero
  | succ m ih =>
    by_cases hcount : (s.axis a).remainingSteps = 0
    · cases hpulse : (s.axis a).pulseHigh with
      | false => simp [Axis.edgesLeft, hcount, hpulse] at hm
      | true =>
        obtain rfl : m = 0 := by simpa [Axis.edgesLeft, hcount, hpulse] using hm.symm
        exact State.completes_one h hpulse hcount hzero
    · have htoggling : s.Toggling a := ⟨h.flag, h.running, h.quiet, .inr (.inr hcount), hzero⟩
      have hunfinished := Axis.toggle_unfinished (.inr hcount)
      have hhalf := htoggling.ticks_half hunfinished
      have hleft := Axis.toggle_edgesLeft h.seek hcount
      have hcounting := h.ticks hhalf h.running ⟨rfl, rfl, rfl, rfl, rfl, rfl, rfl⟩
        (congrArg (!·) h.level)
      have hrest := ih hcounting (by rw [hhalf]) (by
        rw [hhalf]
        exact Nat.succ.inj (hleft.trans hm))
      cases m with
      | zero =>
        have hpos : 0 < (s.axis a).remainingSteps.toNat := by bv_omega
        rw [Axis.edgesLeft] at hm
        omega
      | succ m => exact State.completes_add_two htoggling hunfinished hrest

/-- The edges with an even number, and those with an odd number. -/
theorem State.Completes.edge_even {s : State} {a : AxisId} {m k : Nat} (h : s.Completes a m)
    (hk : 2 * k < m) :
    ((s.ticks (2 * k * ((s.axis a).delayTicks.toNat + 1))).axis a).step = (s.axis a).step
      ∧ ((s.ticks (1 + 2 * k * ((s.axis a).delayTicks.toNat + 1))).axis a).step
        = !(s.axis a).step := by
  have hparity : decide (2 * k % 2 = 1) = false := by simp
  have hedge := h.edges _ hk
  rwa [hparity, Bool.xor_false] at hedge

theorem State.Completes.edge_odd {s : State} {a : AxisId} {m k : Nat} (h : s.Completes a m)
    (hk : 2 * k + 1 < m) :
    ((s.ticks ((2 * k + 1) * ((s.axis a).delayTicks.toNat + 1))).axis a).step = !(s.axis a).step
      ∧ ((s.ticks (1 + (2 * k + 1) * ((s.axis a).delayTicks.toNat + 1))).axis a).step
        = (s.axis a).step := by
  have hparity : decide ((2 * k + 1) % 2 = 1) = true := by
    rw [decide_eq_true_eq]
    omega
  have hedge := h.edges _ hk
  rwa [hparity, Bool.xor_true, Bool.not_not] at hedge

/-- Settles O27: an axis that starts low makes two edges for each step left. -/
theorem completionFromLow : Obligations.CompletionFromLow := by
  intro s a hflag x N H T hrun hseek hquiet hzero hlow hstep
  have hcounting : s.Counting a := ⟨hflag, hrun, hseek, hquiet.untripped, hstep.trans hlow.symm⟩
  have hedges : x.edgesLeft = 2 * N := by simp [Axis.edgesLeft, hlow, N]
  have hzero_iff : 2 * N = 0 ↔ N = 0 := by omega
  have htick : completionTick (x.delayTicks.toNat + 1) (2 * N) = T := by
    simp only [completionTick, hzero_iff, T, H]
  have h : s.Completes a (2 * N) := State.completes _ hcounting hzero hedges
  have ⟨krun, kfinal, krising, kfalling, _⟩ := h
  rw [htick] at krun kfinal krising kfalling
  refine ⟨krun, ?_, ?_, ?_, fun k hk => ?_, fun k hk => ?_⟩
  · rw [kfinal]
    simp [hzero_iff, x, show (s.axis a).pulseHigh = false from hlow,
      show (s.axis a).step = false from hstep]
  · rw [krising, show (s.axis a).step = false from hstep]
    simp only [Bool.not_false, Bool.toNat_true]
    omega
  · rw [kfalling, show (s.axis a).step = false from hstep]
    simp
  · obtain ⟨hbefore, hafter⟩ := h.edge_even (k := k) (by omega)
    exact ⟨hbefore.trans hstep, hafter.trans (congrArg (!·) hstep)⟩
  · obtain ⟨hbefore, hafter⟩ := h.edge_odd (k := k) (by omega)
    exact ⟨hbefore.trans (congrArg (!·) hstep), hafter.trans hstep⟩

/-- Settles O28: an axis that starts high makes one edge more, the first one uncounted. -/
theorem completionFromHigh : Obligations.CompletionFromHigh := by
  intro s a hflag x N H T hrun hseek hquiet hzero hhigh hstep
  have hcounting : s.Counting a := ⟨hflag, hrun, hseek, hquiet.untripped, hstep.trans hhigh.symm⟩
  have hedges : x.edgesLeft = 2 * N + 1 := by simp [Axis.edgesLeft, hhigh, N]
  have htick : completionTick (x.delayTicks.toNat + 1) (2 * N + 1) = T := by
    simp [completionTick, T, H]
  have h : s.Completes a (2 * N + 1) := State.completes _ hcounting hzero hedges
  have ⟨krun, kfinal, krising, kfalling, _⟩ := h
  rw [htick] at krun kfinal krising kfalling
  refine ⟨krun, kfinal, ?_, ?_, fun k hk => ?_, fun k hk => ?_⟩
  · rw [krising, show (s.axis a).step = true from hstep]
    simp only [Bool.not_true, Bool.toNat_false]
    omega
  · rw [kfalling, show (s.axis a).step = true from hstep]
    simp only [Bool.toNat_true]
    omega
  · obtain ⟨hbefore, hafter⟩ := h.edge_even (k := k) (by omega)
    exact ⟨hbefore.trans hstep, hafter.trans (congrArg (!·) hstep)⟩
  · obtain ⟨hbefore, hafter⟩ := h.edge_odd (k := k) (by omega)
    exact ⟨hbefore.trans (congrArg (!·) hstep), hafter.trans hstep⟩

end Sys2Proof.Machine

namespace Sys2Proof.Machine

/-! ### The remaining commands of one axis or relay pair, with no turn inside them -/

/-- Settles O34: two writes to the idle axis, none of them to the count. -/
theorem setSeekEffect : Obligations.SetSeekEffect := by
  intro s axis hs
  refine ⟨⟨rfl, rfl⟩, exec_bad_axis rfl, ?_⟩
  rintro a rfl
  refine ⟨exec_busy rfl hs, fun hidle => ?_⟩
  rw [exec_idle rfl hs hidle]
  simp [hs]

theorem enableLineOf_default_of_le {b : Byte} (h : b ≤ 1) :
    enableLineOf WireCodes.default b = some (decide (b = 0)) := by
  have hcodes : b = 0 ∨ b = 1 := by bv_omega
  obtain rfl | rfl := hcodes <;> rfl

theorem enableLineOf_default_of_gt {b : Byte} (h : 1 < b) :
    enableLineOf WireCodes.default b = none := by
  have h0 : b ≠ 0x00 := by bv_omega
  have h1 : b ≠ 0x01 := by bv_omega
  exact (if_neg h0).trans (if_neg h1)

section
variable {s : State} {a : AxisId}

/-- R151 under any codes, for a code that decodes to the level `v`. -/
theorem exec_setEnable {en : Byte} {v : Bool} (hs : s.turns = [])
    (hidle : (s.axis a).running = false) (hen : enableLineOf s.cfg.wire en = some v) :
    exec (.setEnable a.number en) s
      = .next ((s.toggled.updAxis a fun x => { x with nEN := v }).respond true []) := by
  rw [exec_setting (w := .nEN a v) rfl hs hidle (by rw [hen, decoded_some]), State.put_nEN]

/-- Only the sentinel is out of range (R159). -/
theorem lt_delaySentinel_iff {ticks : Half} : ticks < delaySentinel ↔ ticks ≠ 0xFFFF := by
  rw [delaySentinel]
  bv_omega

theorem exec_setStepDelay {ticks : Half} (hs : s.turns = []) (hidle : (s.axis a).running = false)
    (hticks : ticks ≠ 0xFFFF) :
    exec (.setStepDelay a.number ticks) s
      = .next ((s.toggled.updAxis a fun x => { x with delayTicks := ticks }).respond true []) := by
  rw [exec_setting (w := .delayTicks a ticks) rfl hs hidle
    (by rw [decide_eq_true (lt_delaySentinel_iff.mpr hticks), requires_true]), State.put_delayTicks]

end

/-- Settles O38: the default codes are 0 and 1, and the line is their inverse. -/
theorem setEnableEffect : Obligations.SetEnableEffect := by
  intro s axis en hs hwire
  refine ⟨⟨rfl, rfl⟩, exec_bad_axis rfl, ?_⟩
  rintro a rfl
  refine ⟨fun hfail => exec_busy_or_rejected rfl hs (hfail.imp_right fun hen => ?_),
    fun hidle hen => ?_⟩
  · rw [hwire, enableLineOf_default_of_gt hen, decoded_none]
  · rw [exec_setEnable hs hidle (by rw [hwire, enableLineOf_default_of_le hen])]
    simp

/-- Settles O46: one write to the idle axis, with the sentinel refused. -/
theorem setStepDelayEffect : Obligations.SetStepDelayEffect := by
  intro s axis ticks hs
  refine ⟨⟨rfl, rfl⟩, exec_bad_axis rfl, ?_⟩
  rintro a rfl
  refine ⟨fun hfail => exec_busy_or_rejected rfl hs (hfail.imp_right fun hticks => ?_),
    fun hidle hticks => exec_setStepDelay hs hidle hticks⟩
  rw [decide_eq_false fun hlt => lt_delaySentinel_iff.mp hlt hticks, requires_false]

/-- Settles O49: one sample of the pair's two contacts. -/
theorem getRelayStatusEffect : Obligations.GetRelayStatusEffect := by
  intro s pair hs
  refine ⟨⟨rfl, rfl⟩, exec_bad_axis rfl, ?_⟩
  rintro p rfl
  rw [exec_axis rfl, readsBit_empty s.toggled hs, State.get_relay, bitValue_ne_zero, succeeds_run,
    State.relayTriggered]
  change Host.Outcome.next (s.toggled.respond true
    [boolByte !((s.contacts p).aOpen && (s.contacts p).bOpen)]) = _
  cases (s.contacts p).aOpen && (s.contacts p).bOpen <;> rfl

/-- Settles O50: the operation makes no access, so no turn falls inside it. -/
theorem getVersionEffect : Obligations.GetVersionEffect :=
  ⟨⟨rfl, rfl⟩, fun _ => rfl⟩

/-! ### START and STOP under the default axis bits (R91, R134, R135) -/

theorem bitfieldOk_default (bf : Byte) :
    bitfieldOk WireCodes.default bf = true ↔ bf &&& 0xFC = 0 := by
  decide +revert

theorem requests_default_one (bf : Byte) :
    requests WireCodes.default bf .one = bf.getLsbD 0 := by
  decide +revert

theorem requests_default_two (bf : Byte) :
    requests WireCodes.default bf .two = bf.getLsbD 1 := by
  decide +revert

/-- START's writes with nothing scheduled (R134): the run flag ends raised, whatever it was before. -/
theorem startOp_writes_empty {s : State} (hs : s.turns = []) (c q1 q2 : Bool) :
    (writesIf c (.anyAxisRunning false) <| writesIf q1 (.delayCounter .one 0) <|
      writesIf q1 (.running .one true) <| writesIf q2 (.delayCounter .two 0) <|
      writesIf q2 (.running .two true) <| writes (.anyAxisRunning true) <| succeeds []).run s
    = ({ s with
        axis1 := if q1 then s.axis1.arm else s.axis1
        axis2 := if q2 then s.axis2.arm else s.axis2
        anyAxisRunning := true } : State).respond true [] := by
  cases c <;> cases q1 <;> cases q2 <;>
    simp [hs, State.updAxis, AxisId.pick, Axis.arm]

/-- START with nothing scheduled (R134). -/
theorem startOp_empty {s : State} (hs : s.turns = []) (w : WireCodes) (bf : Byte) :
    (startOp w bf).run s =
      if bitfieldOk w bf = true ∧ ¬((requests w bf .one = true ∧ s.axis1.running = true)
          ∨ (requests w bf .two = true ∧ s.axis2.running = true)) then
        ({ s with
          axis1 := if requests w bf .one then s.axis1.arm else s.axis1
          axis2 := if requests w bf .two then s.axis2.arm else s.axis2
          anyAxisRunning := true } : State).respond true []
      else s.respond false [] := by
  rw [startOp]
  cases hfield : bitfieldOk w bf with
  | false => rfl
  | true =>
    rw [requires_true, readsBit_empty s hs, readsBit_empty s hs]
    simp only [State.get_running, bitValue_ne_zero, State.axis_one, State.axis_two, true_and,
      ← Bool.and_eq_true, ← Bool.or_eq_true]
    cases hbusy : requests w bf .one && s.axis1.running || requests w bf .two && s.axis2.running with
    | true => rfl
    | false => exact startOp_writes_empty hs _ _ _

/-- Settles O35: the check and the writes of START, read off the default bits. -/
theorem startEffect : Obligations.StartEffect := by
  intro s bf hs hwire arm rejected
  have hexec : exec (.start bf) s = .next ((startOp s.cfg.wire bf).run s.toggled) := by
    rw [exec_eq, dispatch_eq]
    rfl
  have hcheck : rejected ↔ ¬(bf &&& 0xFC = 0 ∧ ¬((bf.getLsbD 0 = true ∧ s.axis1.running = true)
      ∨ (bf.getLsbD 1 = true ∧ s.axis2.running = true))) := by
    rw [not_and_or, not_not]
  rw [startOp_empty (s := s.toggled) hs] at hexec
  simp only [hwire, bitfieldOk_default, requests_default_one, requests_default_two] at hexec
  rw [hcheck, not_not]
  exact ⟨⟨rfl, rfl⟩, fun h => hexec.trans (congrArg _ (if_neg h)),
    fun h => hexec.trans (congrArg _ (if_pos h))⟩

/-- STOP with nothing scheduled (R135). -/
theorem stopOp_empty {s : State} (hs : s.turns = []) (w : WireCodes) (bf : Byte) :
    (stopOp w bf).run s =
      if bitfieldOk w bf = true then
        ({ s with
          axis1 := if requests w bf .one then s.axis1.halt else s.axis1
          axis2 := if requests w bf .two then s.axis2.halt else s.axis2
          anyAxisRunning :=
            if requests w bf .one && requests w bf .two then false else s.anyAxisRunning }
          : State).respond true []
      else s.respond false [] := by
  rw [stopOp]
  cases bitfieldOk w bf with
  | false => rfl
  | true =>
    cases requests w bf .one <;> cases requests w bf .two
    · rfl
    all_goals simp [hs, State.updAxis, AxisId.pick, Axis.halt]

theorem requests_default_both {bf : Byte} (h : bf &&& 0xFC = 0) :
    (bf.getLsbD 0 && bf.getLsbD 1) = decide (bf = 0x03) := by
  decide +revert

/-- Settles O36: the check and the writes of STOP, read off the default bits. -/
theorem stopEffect : Obligations.StopEffect := by
  intro s bf hs hwire
  have hexec : exec (.stop bf) s = .next ((stopOp s.cfg.wire bf).run s.toggled) := by
    rw [exec_eq, dispatch_eq]
    rfl
  rw [stopOp_empty (s := s.toggled) hs] at hexec
  simp only [hwire, bitfieldOk_default, requests_default_one, requests_default_two] at hexec
  refine ⟨⟨rfl, rfl⟩, fun h => hexec.trans (congrArg _ (if_neg h)), fun h => ?_⟩
  rw [hexec, if_pos h, requests_default_both h]
  simp only [decide_eq_true_eq]
  rfl

end Sys2Proof.Machine

namespace Sys2Proof.Machine

/-! ### Round trips (R161) -/

section
variable {s : State} {a : AxisId}

/-- A setter's success, and a getter that answers `outs` from any state with the axis it leaves. -/
theorem set_then_get {set get : Instr} {f : Axis → Axis} {outs : List Byte} (hs : s.turns = [])
    (hset : exec set s = .next ((s.toggled.updAxis a f).respond true []))
    (hget : ∀ t : State, t.turns = [] → t.cfg = s.cfg → t.axis a = f (s.axis a) →
      exec get t = .next (t.toggled.respond true outs)) :
    ∃ t, exec set s = .next t ∧ exec get t = .next (t.toggled.respond true outs)
      ∧ ∀ b, b ≠ a → t.axis b = s.axis b := by
  refine ⟨_, hset, hget _ hs rfl ?_, fun b hb => ?_⟩
  · rw [State.respond_axis, State.updAxis_axis_self, State.toggled_axis]
  · rw [State.respond_axis, State.updAxis_axis_ne _ _ _ _ hb, State.toggled_axis]

end

/-- Settles O48: each getter reads the element its setter wrote, and answers its code. -/
theorem setThenGetReturnsTheValue : Obligations.SetThenGetReturnsTheValue := by
  intro s a en mode dir value ticks hs hwire hidle hen hmode hdir hvalue hticks returns
  refine ⟨?_, ?_, ?_, ?_, ?_⟩
  · have hline : enableLineOf s.cfg.wire en = some (decide (en = 0)) := by
      rw [hwire, enableLineOf_default_of_le hen]
    have hcode : boolByte (!decide (en = 0)) = en := by
      have hcodes : en = 0 ∨ en = 1 := by bv_omega
      obtain rfl | rfl := hcodes <;> rfl
    refine set_then_get hs (exec_setEnable hs hidle hline) fun t ht _ haxis => ?_
    rw [exec_getEnable ht, haxis, hcode]
  · have hlines : microOf s.cfg.wire mode = some (mode.extractLsb' 0 2) := by
      rw [hwire, microOf_default_of_le hmode]
    refine set_then_get hs (exec_setMicrosteps hs hidle hlines) fun t ht hcfg haxis => ?_
    rw [exec_getMicrosteps ht, haxis, hcfg, microCode_microOf hlines]
  · have hlevel : dirOf s.cfg.wire dir = some (dir.getLsbD 0) := by
      rw [hwire, dirOf_default_of_le hdir]
    have hcode : dirCode WireCodes.default (dir.getLsbD 0) = dir := by
      have hcodes : dir = 0 ∨ dir = 1 := by bv_omega
      obtain rfl | rfl := hcodes <;> rfl
    refine set_then_get hs (exec_setDirection hs hidle hlevel) fun t ht hcfg haxis => ?_
    rw [exec_getDirection ht, haxis, hcfg, hwire, hcode]
  · refine set_then_get hs (exec_setCurrent hs hidle hvalue) fun t ht _ haxis => ?_
    rw [exec_getCurrent ht, haxis]
  · refine set_then_get hs (exec_setStepDelay hs hidle hticks)
      fun t ht _ haxis => ?_
    rw [exec_getStepDelay ht, haxis]

/-! ### Commands under any schedule without a `RESET`: their frames -/

/-- Settles O57: the frame is a part of `Executed`. -/
theorem commandsKeepTheFramerAndTheStreams : Obligations.CommandsKeepTheFramerAndTheStreams := by
  intro i s t hreset hexec
  obtain ⟨u, ok, outs, rfl, -, hframe, -⟩ := exec_executed hreset hexec
  have hcfg : u.cfg = s.cfg := hframe.cfg
  have hopc : u.opc = s.opc := hframe.opc
  refine ⟨hcfg, hframe.fstate, hopc, hframe.pay, hframe.pidx, hframe.tx, hframe.rx,
    hframe.indicator, rfl, rfl, ?_, hframe.turns⟩
  rw [State.respond_rlen, hcfg, hopc]

/-- On an axis that a command neither sets nor arms nor stops there are only the ticks inside it. -/
theorem AxisEffect.ticks_of_not {n : Prop} {c : Config} {i : Instr} {a : AxisId} {x z : Axis}
    (h : AxisEffect n c i a x z) (hset : ∀ f, ¬Setter c a i f)
    (hstart : ∀ bf, i = .start bf → requests c.wire bf a = false)
    (hstop : ∀ bf, i = .stop bf → requests c.wire bf a = false) : x.Ticked n z := by
  cases h with
  | ticks h => exact h
  | setter f hf => exact absurd hf (hset f)
  | start bf hi hb => exact absurd ((hstart bf hi).symm.trans hb) Bool.false_ne_true
  | stop bf hi hb => exact absurd ((hstop bf hi).symm.trans hb) Bool.false_ne_true

/-- Settles O58: a query is no setter, no START and no STOP. -/
theorem queriesWriteNoRegister : Obligations.QueriesWriteNoRegister := by
  intro i s t hreset hexec hquery
  obtain ⟨u, ok, outs, rfl, -, -, hflag, heffect, -⟩ := exec_executed hreset hexec
  have hset (a : AxisId) (f : Axis → Axis) : ¬Setter s.cfg a i f := by
    intro h
    cases h <;> simp at hquery
  have hstart (bf : Byte) : i ≠ .start bf := by
    rintro rfl
    simp at hquery
  have hstop (bf : Byte) : i ≠ .stop bf := by
    rintro rfl
    simp at hquery
  refine ⟨?_, fun a => ?_⟩
  · obtain h | ⟨bf, h⟩ | ⟨bf, h⟩ := hflag
    · exact h
    · exact absurd h (hstart bf)
    · exact absurd h (hstop bf)
  · exact ((heffect a).ticks_of_not (hset a) (fun bf h => absurd h (hstart bf))
      fun bf h => absurd h (hstop bf)).kept

/-- Settles O60: START writes the countdown and `running`, STOP `running`, of requested axes only. -/
theorem startAndStopKeepTheSettings : Obligations.StartAndStopKeepTheSettings := by
  intro i bf s t hreset hexec hi a
  obtain ⟨u, ok, outs, rfl, -, -, -, heffect, -⟩ := exec_executed hreset hexec
  have hset (f : Axis → Axis) : ¬Setter s.cfg a i f := by
    intro h
    cases h <;> simp at hi
  have heffect := heffect a
  rw [State.respond_axis]
  refine ⟨?_, fun htick => ?_, fun hreq => ?_⟩
  · cases heffect with
    | ticks h => exact h.sameSettings
    | setter f hf => exact absurd hf (hset f)
    | start _ _ _ y h _ hz => exact h.sameSettings.trans hz.sameSettings
    | stop _ _ _ y h hz =>
      rw [hz]
      exact h.sameSettings
  · cases heffect with
    | ticks h =>
      rw [h.still htick]
      exact ⟨rfl, rfl, rfl⟩
    | setter f hf => exact absurd hf (hset f)
    | start _ _ _ y h _ hz =>
      rw [hz.still htick, h.still htick]
      exact ⟨rfl, rfl, rfl⟩
    | stop _ _ _ y h hz =>
      rw [hz, h.still htick]
      exact ⟨rfl, rfl, rfl⟩
  · have hticked : (s.axis a).Ticked (Turn.tick ∉ s.turns) (u.axis a) := by
      refine heffect.ticks_of_not hset (fun bf' h => ?_) fun bf' h => ?_
      all_goals
        rw [h] at hi
        simp at hi
        exact hi ▸ hreq
    obtain ⟨hticks, -, hidle, hstill⟩ := hticked.kept
    exact ⟨hticks, hstill, hidle⟩

/-! ### Setters under any schedule without a `RESET` (R68) -/

/-- What a setter that succeeds under a schedule leaves: the turns inside it, its effect, its
response. -/
def State.SetBy (s : State) (a : AxisId) (f : Axis → Axis) (t : State) : Prop :=
  ∃ u, s.Resumed u ∧ t = (u.updAxis a f).respond true []

section
variable {s : State} {a : AxisId} {i : Instr} {f : Axis → Axis}

/-- The rest of a setter whose single write updates the axis by `f`. -/
theorem write_setBy {w : Write} {t : State} (hs : s.noReset) (ht : s.Resumed t)
    (hw : ∀ u : State, u.put w = u.updAxis a f) :
    s.SetBy a f ((writes w (succeeds [])).run t) := by
  obtain ⟨u, hu, e⟩ := writes_interleaved w (succeeds []) t (ht.noReset hs)
  exact ⟨u, ht.trans hu, by rw [e, hw, succeeds_run]⟩

/-- The rest of a setter of a counted move. -/
theorem countedMove_setBy {count : Word} {safe : Bool} {t : State} (hs : s.noReset)
    (ht : s.Resumed t) (hidle : (t.axis a).running = false) :
    s.SetBy a
      (fun x => { x with remainingSteps := count, safeMode := safe, seekUntilRelay := false })
      ((countedMove count safe a).run t) := by
  refine State.Ends.runs (s := t) ?_ (ht.noReset hs)
  refine writesAxis_ends _ a _ _ t (State.put_remainingSteps · _ _) hidle fun u hu hr => ?_
  refine writesAgain_ends _ a _ _ _ u (State.put_safeMode · _ _) hr (fun _ h => h)
    fun v hv hr => ?_
  refine writesAgain_ends _ a _ _ _ v (State.put_seekUntilRelay · _ _) hr (fun _ h => h)
    fun w hw hr => .inr ?_
  exact ⟨w, ((ht.trans hu).trans hv).trans hw, rfl⟩

/-- The rest of SET_SEEK. -/
theorem seek_setBy {t : State} (hs : s.noReset) (ht : s.Resumed t)
    (hidle : (t.axis a).running = false) :
    s.SetBy a (fun x => { x with safeMode := true, seekUntilRelay := true })
      ((writes (.safeMode a true) (writes (.seekUntilRelay a true) (succeeds []))).run t) := by
  refine State.Ends.runs (s := t) ?_ (ht.noReset hs)
  refine writesAxis_ends _ a _ _ t (State.put_safeMode · _ _) hidle fun u hu hr => ?_
  refine writesAgain_ends _ a _ _ _ u (State.put_seekUntilRelay · _ _) hr (fun _ h => h)
    fun v hv hr => .inr ?_
  exact ⟨v, (ht.trans hu).trans hv, rfl⟩

/-- A setter with an operand it accepts, on an idle axis, succeeds under every schedule without a
`RESET`. -/
theorem Setter.exec_setBy (h : Setter s.cfg a i f) (hs : s.noReset)
    (hidle : (s.axis a).running = false) :
    ∃ t, exec i s = .next t ∧ s.toggled.SetBy a f t := by
  have guarded {k : AxisId → Script}
      (hop : operationOf s.cfg i = checkAxis a.number fun a => checkIdle a (k a))
      (hk : ∀ t, s.toggled.Resumed t → (t.axis a).running = false →
        s.toggled.SetBy a f ((k a).run t)) :
      ∃ t, exec i s = .next t ∧ s.toggled.SetBy a f t := by
    obtain ⟨t, ht, e⟩ := checkIdle_idle a (k a) s.toggled hs hidle
    refine ⟨_, exec_axis hop, ?_⟩
    rw [e]
    exact hk t ht (by rw [(ht.axes a).idle hidle]; exact hidle)
  cases h with
  | setSteps count => exact guarded rfl fun t ht hr => countedMove_setBy hs ht hr
  | setSafeSteps count => exact guarded rfl fun t ht hr => countedMove_setBy hs ht hr
  | setSeek => exact guarded rfl fun t ht hr => seek_setBy hs ht hr
  | setEnable en v hv =>
    refine guarded rfl fun t ht hr => ?_
    rw [hv, decoded_some]
    exact write_setBy hs ht (State.put_nEN · _ _)
  | setMicrosteps mode v hv =>
    refine guarded rfl fun t ht hr => ?_
    rw [hv, decoded_some]
    exact write_setBy hs ht (State.put_ms · _ _)
  | setDirection dir v hv =>
    refine guarded rfl fun t ht hr => ?_
    rw [hv, decoded_some]
    exact write_setBy hs ht (State.put_dir · _ _)
  | setCurrent value hv =>
    refine guarded rfl fun t ht hr => ?_
    rw [decide_eq_true hv, requires_true]
    exact write_setBy hs ht (State.put_idac · _ _)
  | setStepDelay ticks hv =>
    refine guarded rfl fun t ht hr => ?_
    rw [decide_eq_true hv, requires_true]
    exact write_setBy hs ht (State.put_delayTicks · _ _)

/-- A guarded command on a running axis fails, when no tick stops the axis meanwhile. -/
theorem exec_busy_noTick {k : AxisId → Script}
    (hop : operationOf s.cfg i = checkAxis a.number fun a => checkIdle a (k a)) (hs : s.noReset)
    (htick : Turn.tick ∉ s.turns) (hrun : (s.axis a).running = true) :
    ∃ u, s.toggled.Resumed u ∧ exec i s = .next (u.respond false []) := by
  obtain ⟨u, hu, e⟩ := checkIdle_interleaved a (k a) s.toggled hs
  have hrun' : (u.axis a).running = true := by
    rw [(hu.axes a).still htick]
    exact hrun
  exact ⟨u, hu, by rw [exec_axis hop, e, hrun', if_pos rfl, fails_run]⟩

/-- The response of a command is assembled in the buffer and for the opcode it found. -/
theorem State.Resumed.respond_resp {u : State} (h : s.toggled.Resumed u) (ok : Bool)
    (outs : List Byte) :
    (u.respond ok outs).resp = assemble s.cfg s.resp (s.cfg.respLen s.opc) s.opc ok outs := by
  have hcfg : u.cfg = s.cfg := h.cfg
  have hopc : u.opc = s.opc := h.opc
  have hresp : u.resp = s.resp := h.resp
  rw [State.respond_resp, hcfg, hopc, hresp]

end

/-- Settles O51: on an idle axis `Setter.exec_setBy`, on a running one the busy check. -/
theorem settersObeyTheOwnershipDiscipline : Obligations.SettersObeyTheOwnershipDiscipline := by
  refine ⟨fun s a i f hs hidle hsetter => ?_, fun s a i hs htick hrun hsetter => ?_⟩
  · have h : Setter s.cfg a i f := by
      obtain ⟨count, rfl, rfl⟩ | ⟨count, rfl, rfl⟩ | ⟨rfl, rfl⟩ | ⟨en, v, rfl, hv, rfl⟩
        | ⟨mode, v, rfl, hv, rfl⟩ | ⟨dir, v, rfl, hv, rfl⟩ | ⟨value, rfl, hv, rfl⟩
        | ⟨ticks, rfl, hv, rfl⟩ := hsetter
      · exact .setSteps count
      · exact .setSafeSteps count
      · exact .setSeek
      · exact .setEnable en v hv
      · exact .setMicrosteps mode v hv
      · exact .setDirection dir v hv
      · exact .setCurrent value hv
      · exact .setStepDelay ticks (lt_delaySentinel_iff.mpr hv)
    obtain ⟨t, hexec, u, hu, rfl⟩ := h.exec_setBy hs hidle
    refine ⟨_, hexec, ?_, fun b hb => ?_, hu.flag, hu.indicator, hu.respond_resp _ _⟩
    · rw [State.respond_axis, State.updAxis_axis_self, (hu.axes a).idle hidle, State.toggled_axis]
    · rw [State.respond_axis, State.updAxis_axis_ne _ _ _ _ hb]
      obtain ⟨hticks, hsettings, -, hstill⟩ := (hu.axes b).kept
      exact ⟨hsettings, hticks, hstill⟩
  · have hfails : ∃ u, s.toggled.Resumed u ∧ exec i s = .next (u.respond false []) := by
      obtain ⟨count, rfl⟩ | ⟨count, rfl⟩ | rfl | ⟨en, rfl⟩ | ⟨mode, rfl⟩ | ⟨dir, rfl⟩ | ⟨value, rfl⟩
        | ⟨ticks, rfl⟩ := hsetter
      all_goals exact exec_busy_noTick rfl hs htick hrun
    obtain ⟨u, hu, hexec⟩ := hfails
    refine ⟨_, hexec, fun b => ?_, hu.flag, hu.indicator, hu.respond_resp _ _⟩
    rw [State.respond_axis, (hu.axes b).still htick, State.toggled_axis]

/-! ### One read under any schedule without a `RESET` -/

section
variable {s : State} {a : AxisId} {i : Instr}

/-- A query of one element answers what it reads after the turns before the read. -/
theorem exec_query {l : AxisId → Read} {g : Half → List Byte}
    (hop : operationOf s.cfg i = checkAxis a.number fun a => .read (l a) fun v => succeeds (g v))
    (hs : s.noReset) {outs : State → List Byte}
    (hg : ∀ u, s.toggled.Resumed u → g (u.get (l a)) = outs u) :
    ∃ u, s.toggled.Resumed u ∧ exec i s = .next (u.respond true (outs u)) := by
  obtain ⟨u, hu, e⟩ := read_interleaved (l a) (fun v => succeeds (g v)) s.toggled hs
  exact ⟨u, hu, by rw [exec_axis hop, e, succeeds_run, hg u hu]⟩

end

/-- Settles O53: no turn in the gap before the read changes a setting. -/
theorem gettersOfSettingsAreUndisturbed : Obligations.GettersOfSettingsAreUndisturbed := by
  intro s a i outs hs hgetter
  have hquery : ∃ u, s.toggled.Resumed u ∧ exec i s = .next (u.respond true outs) := by
    obtain ⟨rfl, rfl⟩ | ⟨rfl, rfl⟩ | ⟨rfl, rfl⟩ | ⟨rfl, rfl⟩ | ⟨rfl, rfl⟩ := hgetter
    all_goals
      refine exec_query (outs := fun _ => _) rfl hs fun u hu => ?_
      obtain ⟨hdelay, hseek, hsafe, hEN, hdir, hms, hidac⟩ := (hu.axes a).sameSettings
    · rw [State.get_nEN, bitValue_ne_zero, ← hEN, State.toggled_axis]
    · rw [State.get_ms, BitVec.setWidth_setWidth_of_le _ (by decide), BitVec.setWidth_eq, ← hms,
        State.toggled_axis]
    · rw [State.get_dir, bitValue_ne_zero, ← hdir, State.toggled_axis]
    · rw [State.get_idac, ← hidac, State.toggled_axis]
    · rw [State.get_delayTicks, ← hdelay, State.toggled_axis]
  obtain ⟨u, hu, hexec⟩ := hquery
  exact ⟨_, hexec, hu.respond_resp _ _, hu.flag, fun b => (hu.axes b).sameSettings⟩

/-- Settles O54: nothing lies between the read and the response. -/
theorem getMovingReportsOneInstant : Obligations.GetMovingReportsOneInstant := by
  intro s a hs
  have hquery : ∃ u, s.toggled.Resumed u ∧ exec (.getMoving a.number) s
      = .next (u.respond true [boolByte (u.axis a).running]) := by
    refine exec_query (outs := fun u => [boolByte (u.axis a).running]) rfl hs fun u hu => ?_
    rw [State.get_running, bitValue_ne_zero]
  obtain ⟨u, hu, hexec⟩ := hquery
  refine ⟨_, hexec, hu.respond_resp _ _, fun hidle => ?_, fun htick => ?_⟩
  · exact (congrArg Axis.running ((hu.axes a).idle hidle)).trans hidle
  · exact congrArg Axis.running ((hu.axes a).still htick)

end Sys2Proof.Machine

namespace Sys2Proof.Machine

/-! ### Synchronized start and stop (R122, R123) -/

/-- While the run flag is down no turn but a `RESET` changes an axis: the axes are those of `x`. -/
def State.Still (s : State) (x : AxisId → Axis) : Prop :=
  s.noReset ∧ s.anyAxisRunning = false ∧ ∀ a, s.axis a = x a

/-- One axis of a family changed. -/
def withAxis (x : AxisId → Axis) (a : AxisId) (f : Axis → Axis) (b : AxisId) : Axis :=
  if b = a then f (x b) else x b

section
variable {s : State} {x : AxisId → Axis}

theorem State.Still.updAxis (h : s.Still x) (a : AxisId) (f : Axis → Axis) :
    (s.updAxis a f).Still (withAxis x a f) := by
  obtain ⟨hreset, hflag, haxes⟩ := h
  refine ⟨hreset, hflag, fun b => ?_⟩
  rw [State.updAxis_axis, withAxis, haxes]

/-- With the run flag down the turns before a write leave the axes. -/
theorem State.Still.writes_run (h : s.Still x) (w : Write) (k : Script) :
    ∃ t : State, t.Still x ∧ (writes w k).run s = k.run (t.put w) := by
  obtain ⟨hreset, hflag, haxes⟩ := h
  obtain ⟨t, ht, e⟩ := writes_interleaved w k s hreset
  exact ⟨t, ⟨ht.noReset hreset, ht.flag.trans hflag, fun a => (ht.exit hflag a).trans (haxes a)⟩, e⟩

/-- With the run flag down a write to an axis is all that happens to the axes. -/
theorem State.Still.writesAxis_run (h : s.Still x) {w : Write} {a : AxisId} {f : Axis → Axis}
    (hw : ∀ t : State, t.put w = t.updAxis a f) (k : Script) :
    ∃ t : State, t.Still (withAxis x a f) ∧ (writes w k).run s = k.run t := by
  obtain ⟨t, ht, e⟩ := h.writes_run w k
  exact ⟨_, hw t ▸ ht.updAxis a f, e⟩

end

/-- `t` is the end of a START of both axes: those of `s`, armed, and the run flag up. -/
def State.StartedFrom (s t : State) : Prop :=
  ∃ u : State, (∀ a, u.axis a = (s.axis a).arm)
    ∧ t = ({ u with anyAxisRunning := true } : State).respond true []

/-- The writes of START of both axes, once the run flag is down. -/
theorem State.Still.start_both {s v : State} (hv : v.Still s.axis) :
    s.StartedFrom ((writes (.delayCounter .one 0) <| writes (.running .one true) <|
      writes (.delayCounter .two 0) <| writes (.running .two true) <|
      writes (.anyAxisRunning true) <| succeeds []).run v) := by
  obtain ⟨t1, h1, e1⟩ := hv.writesAxis_run (State.put_delayCounter · .one 0) _
  obtain ⟨t2, h2, e2⟩ := h1.writesAxis_run (State.put_running · .one true) _
  obtain ⟨t3, h3, e3⟩ := h2.writesAxis_run (State.put_delayCounter · .two 0) _
  obtain ⟨t4, h4, e4⟩ := h3.writesAxis_run (State.put_running · .two true) _
  obtain ⟨u, ⟨-, -, haxes⟩, e⟩ := h4.writes_run (.anyAxisRunning true) (succeeds [])
  refine ⟨u, fun a => ?_, by rw [e1, e2, e3, e4, e, State.put_anyAxisRunning, succeeds_run]⟩
  rw [haxes]
  cases a <;> rfl

/-- START of both axes with neither running, under any schedule without a `RESET`. -/
theorem exec_start_both {s : State} (hs : s.noReset) (hwire : s.cfg.wire = WireCodes.default)
    (hidle : ∀ a, (s.axis a).running = false) :
    ∃ t, exec (.start 0x03) s = .next t ∧ s.StartedFrom t := by
  have kept {u : State} (hu : s.toggled.Resumed u) (a : AxisId) : u.axis a = s.axis a :=
    (hu.axes a).idle (hidle a)
  have hexec : exec (.start 0x03) s = .next ((startOp WireCodes.default 0x03).run s.toggled) := by
    rw [exec_eq, dispatch_eq, ← hwire]
    rfl
  have hfield : bitfieldOk WireCodes.default 0x03 = true := rfl
  refine ⟨_, hexec, State.Ends.runs (s := s.toggled) ?_ hs⟩
  rw [startOp, hfield, requires_true]
  refine readsBit_ends _ _ _ fun u hu => ?_
  rw [State.get_running, bitValue_ne_zero, kept hu, hidle]
  refine readsBit_ends _ _ _ fun v hv => ?_
  rw [State.get_running, bitValue_ne_zero, kept (hu.trans hv), hidle]
  refine writes_ends _ _ _ fun w hw => .inr (State.Still.start_both ?_)
  have hw' := (hu.trans hv).trans hw
  exact ⟨hw'.noReset hs, rfl, fun a => kept hw' a⟩

/-- An axis that was just armed toggles on the next tick, if its relay does not stop it and it has
something to do (R115). -/
theorem State.tick_axis_armed {t : State} {a : AxisId} {x : Axis} (hflag : t.anyAxisRunning = true)
    (haxis : t.axis a = x.arm) (hquiet : t.relayQuiet a) (hx : x.unfinished) :
    t.tick.axis a = x.arm.toggle := by
  have huntripped := hquiet.untripped
  rw [haxis] at huntripped
  rw [State.tick_axis, hflag, if_pos rfl, haxis]
  exact Axis.tick_toggle _ _ huntripped rfl hx rfl

/-- Settles O55: the clear of the run flag, START's first write, shuts the ticks out. -/
theorem startOfBothAxesIsSynchronized : Obligations.StartOfBothAxesIsSynchronized := by
  intro s hs hwire h1 h2
  have hidle : ∀ a, (s.axis a).running = false := by
    rintro (_ | _)
    · exact h1
    · exact h2
  obtain ⟨t, hexec, u, haxes, rfl⟩ := exec_start_both hs hwire hidle
  have harmed (a : AxisId) :
      (({ u with anyAxisRunning := true } : State).respond true []).axis a = (s.axis a).arm :=
    haxes a
  refine ⟨_, hexec, rfl, harmed, fun a hquiet hwork => ?_⟩
  rw [State.tick_axis_armed rfl (harmed a) hquiet hwork]
  rfl

/-- The indicator has no part in what the turns of a gap do. -/
theorem State.runTurns_toggled (ts : List Turn) (s : State) (hts : Turn.reset ∉ ts) :
    s.toggled.runTurns ts = ((s.runTurns ts).1.toggled, (s.runTurns ts).2) := by
  induction ts generalizing s with
  | nil => rfl
  | cons t ts ih =>
    have ih (s : State) := ih s fun h => hts (List.mem_cons_of_mem _ h)
    cases t with
    | command => rfl
    | operation => rfl
    | reset => exact absurd List.mem_cons_self hts
    | tick =>
      have htick : s.toggled.tick = s.tick.toggled := by
        unfold State.tick
        rw [State.toggled_anyAxisRunning]
        split <;> rfl
      exact (congrArg (State.runTurns · ts) htick).trans (ih _)
    | rxByte b => exact ih (s.hostTurn (.rxByte b))
    | contacts p x y => exact ih (s.hostTurn (.contacts p x y))
    | txAccept r => exact ih (s.hostTurn (.txAccept r))

/-- Settles O56: STOP of both axes clears the run flag first; STOP of one axis is a single write. -/
theorem stopIsSynchronized : Obligations.StopIsSynchronized := by
  intro s hs hwire
  refine ⟨fun ts hts => ?_, fun a b hne => ?_⟩
  · have hexec : exec (.stop 0x03) s = .next ((writes (.running .one false) <|
        writes (.running .two false) <| succeeds []).run
          ({ s.toggled with turns := ts }.put (.anyAxisRunning false))) := by
      rw [exec_eq, dispatch_eq]
      change Host.Outcome.next ((stopOp s.cfg.wire 0x03).run s.toggled) = _
      rw [hwire]
      exact congrArg _ (gap_agent (fun t => (writes (.running .one false) <|
        writes (.running .two false) <| succeeds []).run (t.put (.anyAxisRunning false)))
        s.toggled (.inl hts))
    have hstill : State.Still ({ s.toggled with turns := ts }.put (.anyAxisRunning false)) s.axis :=
      ⟨fun h => hs (hts ▸ List.mem_cons_of_mem _ h), rfl, fun _ => rfl⟩
    obtain ⟨t1, h1, e1⟩ := hstill.writesAxis_run (State.put_running · .one false) _
    obtain ⟨t2, ⟨-, hflag, haxes⟩, e2⟩ := h1.writesAxis_run (State.put_running · .two false) _
    refine ⟨_, hexec.trans (congrArg _ (e1.trans e2)), hflag, fun c => (haxes c).trans ?_⟩
    cases c <;> rfl
  · have hexec : exec (.stop a.number) s
        = .next ((writes (.running a false) (succeeds [])).run s.toggled) := by
      rw [exec_eq, dispatch_eq]
      change Host.Outcome.next ((stopOp s.cfg.wire a.number).run s.toggled) = _
      rw [hwire]
      cases a <;> rfl
    obtain hrestart | ⟨hu, e⟩ := gap_cases
      (fun t => (succeeds []).run (t.put (.running a false))) s.toggled
    · exact absurd hrestart.1 hs
    refine ⟨_, hexec.trans (congrArg _ e), ?_, ?_, hu.flag⟩
    · rw [succeeds_run, State.respond_axis, State.put_running, State.updAxis_axis_ne _ _ _ _ hne.symm,
        State.toggled_turns, State.runTurns_toggled _ _ hs, State.toggled_axis]
    · rw [succeeds_run, State.respond_axis, State.put_running, State.updAxis_axis_self]

end Sys2Proof.Machine

namespace Sys2Proof.Machine

/-! ### Runs on a schedule without end (R12) -/

/-- A state taken by itself, with nothing scheduled. -/
def State.alone (s : State) : State := { s with turns := [] }

theorem State.alone_inv (s : State) : s.alone.inv = s.inv := s.inv_turns []

section
variable (σ : Schedule) {s t : State} {n : Nat}

theorem State.along_succ (h : s.along σ n = .next t) :
    s.along σ (n + 1) = step { t with turns := [σ n] } := by
  rw [State.along, h]

/-- On a turn of the tick agent or the host the next state is what that turn makes. -/
theorem State.along_host (h : s.along σ n = .next t) (hc : σ n ≠ .command) (ho : σ n ≠ .operation) :
    s.along σ (n + 1) = .next (t.alone.hostTurn (σ n)) :=
  (State.along_succ σ h).trans (step_turn { t with turns := [σ n] } rfl hc ho)

theorem State.along_command (h : s.along σ n = .next t) (hc : σ n = .command) :
    s.along σ (n + 1) = agentStep t.alone := by
  rw [State.along_succ σ h, hc]
  exact step_command _ rfl

theorem State.along_operation (h : s.along σ n = .next t) (ho : σ n = .operation) :
    s.along σ (n + 1) = operationStep t.alone := by
  rw [State.along_succ σ h, ho]
  exact step_operation _ rfl

/-- From the invariant no schedule stops the machine. -/
theorem State.along_inv (hs : s.inv = true) (n : Nat) :
    ∃ t, s.along σ n = .next t ∧ t.inv = true := by
  induction n with
  | zero => exact ⟨s, rfl, hs⟩
  | succ n ih =>
    obtain ⟨t, ht, hinv⟩ := ih
    have hinv' := (t.inv_turns [σ n]).trans hinv
    obtain ⟨u, hu⟩ := stepNeverStops _ hinv'
    exact ⟨u, (State.along_succ σ ht).trans hu, stepKeepsTheInvariant _ _ hinv' hu⟩

end

/-! ### A counted move ends (R117) -/

section
variable {s t : State} {a : AxisId} {i : Instr}

theorem agentStep_running_axis (hs : s.inv = true) (hrun : (s.axis a).running = true)
    (h : agentStep s = .next t) : t.axis a = s.axis a ∨ (t.axis a).running = false := by
  obtain hsame | ⟨hd, hp, i, w, k, hi, hk, haxis⟩ := agentStep_axis s a h
  · exact .inl hsame
  · obtain ⟨hw, -⟩ := State.inv_write hs hd hp hi hk
    rw [haxis]
    exact State.put_running_axis hw hrun

theorem AxisEffect.running_axis {n : Prop} {c : Config} {x z : Axis} (h : AxisEffect n c i a x z)
    (hn : n) (hrun : x.running = true) : z = x ∨ z.running = false := by
  cases h with
  | ticks h => exact .inl (h.still hn)
  | setter f _ y h hidle =>
    rw [h.still hn, hrun] at hidle
    cases hidle
  | start _ _ _ y h hidle =>
    rw [h.still hn, hrun] at hidle
    cases hidle
  | stop _ _ _ y _ hz =>
    rw [hz]
    exact .inr rfl

theorem exec_running_axis (hs : s.turns = []) (hrun : (s.axis a).running = true)
    (h : exec i s = .next t) : t.axis a = s.axis a ∨ (t.axis a).running = false := by
  obtain ⟨u, ok, outs, rfl, -, -, -, heffect, -⟩ := exec_executed (by simp [State.noReset, hs]) h
  exact (heffect a).running_axis (by simp [hs]) hrun

/-- A running axis changes by ticks only, until it is stopped. -/
theorem State.along_running_axis {σ : Schedule} {v : State} {n : Nat} (ht : s.along σ n = .next t)
    (hinv : t.inv = true) (hflag : t.anyAxisRunning = true) (hrun : (t.axis a).running = true)
    (hv : s.along σ (n + 1) = .next v) (hrun' : (v.axis a).running = true) :
    if σ n = .tick then v.axis a = (t.axis a).tick (t.relayTriggered a) else v.axis a = t.axis a := by
  have agent (h : v.axis a = t.axis a ∨ (v.axis a).running = false) : v.axis a = t.axis a :=
    h.resolve_right (by simp [hrun'])
  have hinv' := t.alone_inv.trans hinv
  by_cases hc : σ n = .command
  · rw [if_neg (by simp [hc])]
    exact agent (agentStep_running_axis (s := t.alone) hinv' hrun
      ((State.along_command σ ht hc).symm.trans hv))
  by_cases ho : σ n = .operation
  · rw [if_neg (by simp [ho])]
    have hstep := (State.along_operation σ ht ho).symm.trans hv
    obtain e | ⟨-, -, i, -, e⟩ := operationStep_cases t.alone
    · exact agent (agentStep_running_axis (s := t.alone) hinv' hrun (e.symm.trans hstep))
    · exact agent (exec_running_axis (s := t.alone) rfl hrun (e.symm.trans hstep))
  obtain rfl := Host.Outcome.next.inj ((State.along_host σ ht hc ho).symm.trans hv)
  by_cases htick : σ n = .tick
  · rw [if_pos htick, htick, State.hostTurn, State.tick_axis]
    exact if_pos hflag
  · rw [if_neg htick]
    obtain ⟨hidle, -⟩ | ⟨-, hticks⟩ := State.hostTurn_axis t.alone (σ n) a
    · rw [hidle] at hrun'
      cases hrun'
    · exact hticks.still htick

/-- A bound on the ticks that a counted axis still runs: a half-period for each edge left, and the
countdown. -/
def Axis.ticksLeft (x : Axis) : Nat := x.edgesLeft * (x.delayTicks.toNat + 1) + x.delayCounter.toNat

theorem Axis.toggle_edgesLeft_lt {x : Axis} (hseek : x.seekUntilRelay = false) (hx : x.unfinished) :
    x.toggle.edgesLeft < x.edgesLeft := by
  by_cases hcount : x.remainingSteps = 0
  · have hpulse : x.pulseHigh = true := by simpa [Axis.unfinished, hseek, hcount] using hx
    simp [Axis.toggle_eq, Axis.edgesLeft, hpulse, hcount]
  · exact Nat.lt_of_succ_le (Axis.toggle_edgesLeft hseek hcount).le

/-- Each tick of a counted axis stops it or comes nearer to its end. -/
theorem Axis.tick_ticksLeft {x : Axis} (r : Bool) (hseek : x.seekUntilRelay = false)
    (hrun : (x.tick r).running = true) : (x.tick r).ticksLeft + 1 ≤ x.ticksLeft := by
  obtain ⟨hidle, e⟩ | ⟨-, e⟩ | ⟨-, hx, hzero, e⟩ | ⟨-, -, hcounter, e⟩ := x.tick_cases r
  · rw [e, hidle] at hrun
    cases hrun
  · rw [e] at hrun
    cases hrun
  · have hedges := Nat.mul_le_mul_right (x.delayTicks.toNat + 1) (Axis.toggle_edgesLeft_lt hseek hx)
    have htoggle : x.toggle.ticksLeft
        = x.toggle.edgesLeft * (x.delayTicks.toNat + 1) + x.delayTicks.toNat := rfl
    rw [e, htoggle, Axis.ticksLeft]
    rw [Nat.succ_mul] at hedges
    omega
  · rw [e]
    simp only [Axis.ticksLeft, Axis.edgesLeft]
    bv_omega

end

/-- Settles O24: as long as the axis runs, the ticks so far and those left are no more than those left at
first; and ticks keep coming. -/
theorem countedMovesEndUnderFairness : Obligations.CountedMovesEndUnderFairness := by
  intro σ s a hs hfair hrun hseek hflag
  by_contra hnever
  have runs (n : Nat) (t : State) (ht : s.along σ n = .next t) : (t.axis a).running = true :=
    Bool.not_eq_false _ |>.mp fun h => hnever ⟨n, t, ht, h⟩
  have bound (n : Nat) (t : State) (ht : s.along σ n = .next t) : (t.axis a).seekUntilRelay = false
      ∧ (t.axis a).ticksLeft + Nat.count (fun k => σ k = .tick) n ≤ (s.axis a).ticksLeft := by
    induction n generalizing t with
    | zero =>
      cases ht
      exact ⟨hseek, by simp⟩
    | succ n ih =>
      obtain ⟨u, hu, hinv⟩ := State.along_inv σ hs n
      obtain ⟨hseek', hleft⟩ := ih u hu
      have haxis := State.along_running_axis hu hinv (hflag n u hu) (runs n u hu) ht (runs _ t ht)
      rw [Nat.count_succ]
      split at haxis
      · have hrun' := runs _ t ht
        rw [haxis] at hrun' ⊢
        have hless := Axis.tick_ticksLeft _ hseek' hrun'
        obtain ⟨-, hsame, -⟩ := Axis.tick_sameSettings (u.axis a) (u.relayTriggered a)
        rw [if_pos ‹_›]
        exact ⟨hsame ▸ hseek', by omega⟩
      · rw [haxis, if_neg ‹_›]
        exact ⟨hseek', by omega⟩
  have hinfinite : (Set.ofPred fun k => σ k = .tick).Infinite :=
    Nat.frequently_atTop_iff_infinite.mp (Filter.frequently_atTop.mpr hfair.ticks)
  obtain ⟨t, ht, -⟩ := State.along_inv σ hs
    (Nat.nth (fun k => σ k = .tick) ((s.axis a).ticksLeft + 1))
  obtain ⟨-, hleft⟩ := bound _ t ht
  rw [Nat.count_nth_of_infinite hinfinite] at hleft
  omega

end Sys2Proof.Machine

namespace Sys2Proof.Machine

/-! ### The turns of the tick agent and the host on a schedule without end -/

/-- `d` turns of a schedule, from the `n`-th on. -/
def window (σ : Schedule) (n d : Nat) : List Turn := (List.range d).map fun k => σ (n + k)

theorem window_add (σ : Schedule) (n d e : Nat) :
    window σ n (d + e) = window σ n d ++ window σ (n + d) e := by
  simp [window, List.range_add, Nat.add_assoc]

theorem window_one (σ : Schedule) (n : Nat) : window σ n 1 = [σ n] := rfl

theorem mem_window {σ : Schedule} {n d : Nat} {u : Turn} (h : u ∈ window σ n d) : ∃ k, u = σ k := by
  obtain ⟨k, -, rfl⟩ := List.mem_map.mp h
  exact ⟨n + k, rfl⟩

/-- What turns of the tick agent and the host make of a state. -/
def State.hosted (s : State) (l : List Turn) : State := l.foldl State.hostTurn s

/-- A turn of the command agent. -/
def Turn.isAgent (u : Turn) : Prop := u = .command ∨ u = .operation

section
variable {s : State} {l : List Turn}

theorem State.hosted_append (s : State) (l k : List Turn) : s.hosted (l ++ k) = (s.hosted l).hosted k :=
  List.foldl_append

theorem State.alone_hostTurn (s : State) (u : Turn) : s.alone.hostTurn u = (s.hostTurn u).alone :=
  State.hostTurn_turns s u []

theorem State.alone_hosted (s : State) (l : List Turn) : s.alone.hosted l = (s.hosted l).alone := by
  induction l generalizing s with
  | nil => rfl
  | cons u l ih => exact (congrArg (State.hosted · l) (s.alone_hostTurn u)).trans (ih _)

theorem State.hosted_framed (h : Turn.reset ∉ l) : s.Framed (s.hosted l) := by
  induction l generalizing s with
  | nil => exact .refl s
  | cons u l ih =>
    rw [List.mem_cons, not_or] at h
    exact (State.hostTurn_interleaved s (Ne.symm h.1)).toFramed.trans (ih h.2)

theorem State.hosted_txReady (h : Turn.txAccept false ∉ l) (hs : s.txReady = true) :
    (s.hosted l).txReady = true := by
  induction l generalizing s with
  | nil => exact hs
  | cons u l ih =>
    rw [List.mem_cons, not_or] at h
    refine ih h.2 ?_
    cases u with
    | tick => exact (State.tick_txReady s).trans hs
    | txAccept r =>
      cases r with
      | true => rfl
      | false => exact absurd rfl h.1
    | _ => exact hs

/-- A gap that the turns `l` and then the command agent's turn end. -/
theorem gap_hosted (K : State → State) (s : State) {u : Turn} (ts : List Turn) (hu : u.isAgent)
    (hagent : ∀ v ∈ l, ¬v.isAgent) (hreset : Turn.reset ∉ l) :
    gap K { s with turns := l ++ u :: ts } = K { s.hosted l with turns := ts } := by
  induction l generalizing s with
  | nil =>
    exact gap_agent K { s with turns := u :: ts }
      (hu.imp (congrArg (· :: ts)) (congrArg (· :: ts)))
  | cons v l ih =>
    rw [List.forall_mem_cons, Turn.isAgent, not_or] at hagent
    obtain ⟨⟨hc, ho⟩, hagent⟩ := hagent
    rw [List.mem_cons, not_or] at hreset
    refine (gap_turn K { s with turns := v :: (l ++ u :: ts) } rfl hc ho (Ne.symm hreset.1)).trans ?_
    exact (congrArg (gap K) (State.hostTurn_turns s v _)).trans
      (ih (s.hostTurn v) hagent hreset.2)

end

/-! ### The next turn of the command agent -/

section
variable {σ : Schedule} {s t : State} {n d : Nat}

theorem State.along_agent {v : State} (hv : s.along σ n = .next v) (hu : (σ n).isAgent)
    (hp : v.phase ≠ .operate) : s.along σ (n + 1) = agentStep v.alone := by
  obtain hc | ho := hu
  · exact State.along_command σ hv hc
  · rw [State.along_operation σ hv ho]
    exact (operationStep_cases v.alone).resolve_right fun h => hp h.2.1

/-- In `Dispatch`, with a transport that accepts, the command agent can step. -/
theorem State.not_held (hd : t.fstate = .dispatch) (hready : t.txReady = true) : t.held = false := by
  rw [State.held, hd]
  cases t.phase with
  | transmit => exact congrArg (!·) hready
  | _ => rfl

variable (hreset : ∀ k, σ k ≠ .reset) (haccept : ∀ k, σ k ≠ .txAccept false)
  (hfair : WeaklyFair σ s)

include hreset in
theorem window_noReset (n d : Nat) : Turn.reset ∉ window σ n d := fun h =>
  (mem_window h).elim fun k hk => hreset k hk.symm

include haccept in
theorem window_accepts (n d : Nat) : Turn.txAccept false ∉ window σ n d := fun h =>
  (mem_window h).elim fun k hk => haccept k hk.symm

include hreset haccept

/-- Between two turns of the command agent the other turns are taken one by one. -/
theorem State.along_hosted (ht : s.along σ n = .next t) (h : ∀ u ∈ window σ n d, ¬u.isAgent) :
    ∃ v, s.along σ (n + d) = .next v ∧ v.alone = t.alone.hosted (window σ n d)
      ∧ t.alone.Framed v.alone ∧ (t.txReady = true → v.txReady = true) := by
  have hstates : ∃ v, s.along σ (n + d) = .next v ∧ v.alone = t.alone.hosted (window σ n d) := by
    induction d with
    | zero => exact ⟨t, ht, rfl⟩
    | succ d ih =>
      rw [window_add, window_one, List.forall_mem_append, List.forall_mem_singleton, Turn.isAgent,
        not_or] at h
      obtain ⟨hbefore, hc, ho⟩ := h
      obtain ⟨v, hv, halone⟩ := ih hbefore
      refine ⟨_, State.along_host σ hv hc ho, ?_⟩
      rw [window_add, window_one, State.hosted_append, ← halone, State.alone_hostTurn]
      exact (State.alone_hostTurn v _).symm
  obtain ⟨v, hv, halone⟩ := hstates
  have hframe := State.hosted_framed (s := t.alone) (window_noReset hreset n d)
  have hready := State.hosted_txReady (s := t.alone) (window_accepts haccept n d)
  rw [← halone] at hframe hready
  exact ⟨v, hv, halone, hframe, hready⟩

include hfair

/-- Weak fairness gives the command agent its next turn in `Dispatch`; until then only ticks and host
actions lie between. -/
theorem State.next_agent (ht : s.along σ n = .next t) (hd : t.fstate = .dispatch)
    (hready : t.txReady = true) :
    ∃ d v, (σ (n + d)).isAgent ∧ (∀ u ∈ window σ n d, ¬u.isAgent) ∧ s.along σ (n + d) = .next v
      ∧ v.alone = t.alone.hosted (window σ n d) ∧ t.alone.Framed v.alone ∧ v.txReady = true := by
  have hexists : ∃ d, (σ (n + d)).isAgent := by
    by_contra hnone
    rw [not_exists] at hnone
    obtain ⟨m, hm, hagent⟩ := hfair.commands n fun m hm v hv => by
      obtain ⟨d, rfl⟩ := Nat.exists_eq_add_of_le hm
      obtain ⟨v', hv', -, hframe, hready'⟩ :=
        State.along_hosted hreset haccept (d := d) ht fun u hu => by
          obtain ⟨k, -, rfl⟩ := List.mem_map.mp hu
          exact hnone k
      obtain rfl := Host.Outcome.next.inj (hv'.symm.trans hv)
      exact State.not_held (hframe.fstate.trans hd) (hready' hready)
    obtain ⟨d, rfl⟩ := Nat.exists_eq_add_of_le hm
    exact hnone d hagent
  classical
  have hbefore : ∀ u ∈ window σ n (Nat.find hexists), ¬u.isAgent := by
    intro u hu
    obtain ⟨k, hk, rfl⟩ := List.mem_map.mp hu
    exact Nat.find_min hexists (List.mem_range.mp hk)
  obtain ⟨v, hv, halone, hframe, hready'⟩ := State.along_hosted hreset haccept ht hbefore
  exact ⟨_, v, Nat.find_spec hexists, hbefore, hv, halone, hframe, hready' hready⟩

/-! ### An operation on a schedule without end -/

/-- The gap before an access, on a schedule without end: its turns lead to a state inside the operation,
in which the command agent moves. -/
theorem State.along_gap {c : Config} {i : Instr} {seen : List Half} {w : State} (hc : w.cfg = c)
    (hd : w.fstate = .dispatch) (hi : w.fetched = some i) (hready : w.txReady = true)
    (ht : s.along σ n = .next (w.alone.atPlace .access seen)) :
    ∃ (d : Nat) (x : State), x.alone = x ∧ x.Inside c i seen ∧ x.txReady = true
      ∧ s.along σ (n + (d + 1)) = agentStep x
      ∧ ∀ (K : State → State) (e : Nat),
        gap K (State.atPlace { w with turns := window σ n (d + 1 + e) } .access seen)
        = K { x with turns := window σ (n + (d + 1)) e } := by
  have hinside : (w.alone.atPlace .access seen).Inside c i seen :=
    hc ▸ State.atPlace_inside (s := w.alone) hd hi seen
  obtain ⟨d, v, hagent, hbefore, hv, halone, hframe, hready'⟩ :=
    State.next_agent hreset haccept hfair ht hd hready
  have hphase : v.phase = .access := hframe.phase.trans hinside.phase
  refine ⟨d, v.alone, rfl, ⟨hframe.cfg.trans hinside.cfg, hframe.fstate.trans hinside.fstate, hphase,
    hframe.fetched.trans hinside.fetched, hframe.seen.trans hinside.seen⟩, hready',
    State.along_agent hv hagent (by simp [hphase]), fun K e => ?_⟩
  have hsplit : window σ n (d + 1 + e) = window σ n d ++ σ (n + d) :: window σ (n + (d + 1)) e := by
    rw [window_add, window_add, window_one, List.append_assoc]
    rfl
  rw [hsplit]
  have hgap := gap_hosted K (w.alone.atPlace .access seen) (window σ (n + (d + 1)) e) hagent hbefore
    (window_noReset hreset n d)
  rw [State.alone_hosted] at halone
  have hsame := congrArg (fun q : State => K { q with turns := window σ (n + (d + 1)) e }) halone
  exact hgap.trans hsame.symm

/-- The rest of an operation on a schedule without end: after some turns the machine is where the rest of
the operation, taken as a whole with these turns inside it, ends. -/
theorem Script.along_run {c : Config} {i : Instr} (k : Script) {seen : List Half} {w : State}
    (hresume : (operationOf c i).resume seen = k) (hc : w.cfg = c) (hd : w.fstate = .dispatch)
    (hi : w.fetched = some i) (hready : w.txReady = true)
    (hn : s.along σ n = .next (k.pause seen w.alone)) :
    ∃ d u, s.along σ (n + d) = .next u ∧ u.txReady = true
      ∧ k.run { w with turns := window σ n d } = u := by
  induction k generalizing n seen w with
  | respond ok outs => exact ⟨0, _, hn, hready, rfl⟩
  | read r k ih =>
    obtain ⟨d, x, halone, hx, hready', hstep, hgap⟩ :=
      State.along_gap hreset haccept hfair hc hd hi hready hn
    have hrest : (operationOf c i).resume (seen ++ [x.get r]) = k (x.get r) := by
      rw [Script.resume_append, hresume]
      rfl
    rw [hx.agentStep_eq, hresume, Script.access_read, hx.seen] at hstep
    obtain ⟨e, u, hu, hready'', hrun⟩ := ih (x.get r) hrest hx.cfg hx.fstate hx.fetched hready'
      (by rw [halone]; exact hstep)
    refine ⟨d + 1 + e, u, Nat.add_assoc n (d + 1) e ▸ hu, hready'', ?_⟩
    rw [← Script.run_atPlace _ _ .access seen]
    exact (hgap (fun u => (k (u.get r)).run u) e).trans hrun
  | write w' k ih =>
    obtain ⟨d, x, halone, hx, hready', hstep, hgap⟩ :=
      State.along_gap hreset haccept hfair hc hd hi hready hn
    have hrest : (operationOf c i).resume (seen ++ [0]) = k := by
      rw [Script.resume_append, hresume]
      rfl
    rw [hx.agentStep_eq, hresume, Script.access_write, hx.seen, ← halone] at hstep
    have hput (y : State) (ts : List Turn) :
        ({ y with turns := ts } : State).put w' = { y.put w' with turns := ts } := by
      cases w' <;> rfl
    have hx' : (x.put w').Inside c i seen ∧ (x.put w').txReady = true := by
      obtain ⟨a, f, e⟩ | ⟨v, e⟩ := x.put_cases w' <;> rw [e]
      · exact ⟨⟨hx.cfg, hx.fstate, hx.phase, hx.fetched, hx.seen⟩, hready'⟩
      · exact ⟨⟨hx.cfg, hx.fstate, hx.phase, hx.fetched, hx.seen⟩, hready'⟩
    obtain ⟨hx', hready'⟩ := hx'
    obtain ⟨e, u, hu, hready'', hrun⟩ := ih hrest hx'.cfg hx'.fstate hx'.fetched hready'
      (hstep.trans (by rw [State.alone, hput]; rfl))
    refine ⟨d + 1 + e, u, Nat.add_assoc n (d + 1) e ▸ hu, hready'', ?_⟩
    rw [← Script.run_atPlace _ _ .access seen]
    refine (hgap (fun u => k.run (u.put w')) e).trans ?_
    rw [hput]
    exact hrun

/-- The command that stands in `Dispatch` when the command agent's turn comes is carried out: after the
turns of a window the machine is where `exec` with this window inside it ends. -/
theorem State.along_exec {i : Instr} {v : State} (hagent : (σ n).isAgent)
    (hv : s.along σ n = .next v) (hd : v.fstate = .dispatch) (hp : v.phase = .operate)
    (hi : v.fetched = some i) (hready : v.txReady = true) :
    ∃ d u, s.along σ (n + 1 + d) = .next u ∧ u.txReady = true
      ∧ exec i { v with turns := window σ (n + 1) d } = .next u := by
  obtain hc | ho := hagent
  · have hstart := (State.along_command σ hv hc).trans (agentStep_operate v.alone hd hp hi)
    obtain ⟨d, u, hu, hready', hrun⟩ := Script.along_run hreset haccept hfair (operationOf v.cfg i)
      (w := v.toggled) (Script.resume_nil _) rfl hd hi hready hstart
    exact ⟨d, u, hu, hready', by rw [exec_eq, dispatch_eq]; exact congrArg _ hrun⟩
  · have hstep := (State.along_operation σ hv ho).trans (operationStep_operate v.alone hd hp hi)
    obtain ⟨u, hexec, -⟩ := exec_ends i v.alone
    obtain ⟨-, hready', -⟩ := exec_quietly i (s := v.alone) rfl hexec
    exact ⟨0, u, hstep.trans hexec, hready'.trans hready, hexec⟩

/-- A response is sent, one byte in each turn of the command agent (R202). -/
theorem State.along_transmit {bs : List Byte} (ht : s.along σ n = .next t) (hd : t.fstate = .dispatch)
    (hp : t.phase = .transmit) (hready : t.txReady = true)
    (hbytes : (t.resp.toList.take t.rlen).drop t.tidx = bs) (hne : bs ≠ [])
    (hlen : t.tidx + bs.length = t.rlen) :
    ∃ d u, 0 < d ∧ s.along σ (n + d) = .next u ∧ u.fstate = .awaitStart ∧ u.tx = t.tx ++ bs
      ∧ u.indicator = t.indicator := by
  induction bs generalizing n t with
  | nil => exact absurd rfl hne
  | cons b bs ih =>
    obtain ⟨d, v, hagent, -, hv, -, hframe, hready'⟩ :=
      State.next_agent hreset haccept hfair ht hd hready
    have hphase : v.phase = .transmit := hframe.phase.trans hp
    have hresp : v.resp = t.resp := hframe.resp
    have hrlen : v.rlen = t.rlen := hframe.rlen
    have htidx : v.tidx = t.tidx := hframe.tidx
    have htx : v.tx = t.tx := hframe.tx
    have hfstate : v.fstate = .dispatch := hframe.fstate.trans hd
    rw [← hresp, ← hrlen, ← htidx] at hbytes
    rw [← hrlen, ← htidx] at hlen
    have hstep := (State.along_agent hv hagent (by simp [hphase])).trans
      (agentStep_transmit v.alone hfstate hphase)
    rw [State.transmit_ready (s := v.alone) hready' hbytes hlen] at hstep
    cases bs with
    | nil => exact ⟨d + 1, _, Nat.succ_pos d, hstep, rfl, congrArg (· ++ [b]) htx, hframe.indicator⟩
    | cons b' bs =>
      have hrest : (v.resp.toList.take v.rlen).drop (v.tidx + 1) = b' :: bs := by
        rw [← List.drop_drop, hbytes]
        rfl
      have hlen' : v.tidx + 1 + (b' :: bs).length = v.rlen := by
        rw [← hlen]
        simp only [List.length_cons]
        omega
      rw [if_neg (by simp), if_neg (by simp)] at hstep
      obtain ⟨e, u, -, hu, hawait, hsent, hindicator⟩ :=
        ih hstep hfstate hphase hready' hrest (by simp) hlen'
      refine ⟨d + 1 + e, u, by omega, Nat.add_assoc n (d + 1) e ▸ hu, hawait, ?_,
        hindicator.trans hframe.indicator⟩
      rw [hsent]
      simp [State.alone, htx]

end

/-- Settles O52: the command begins at the command agent's next turn, its operation ends by
`State.along_exec`, and its response is sent by `State.along_transmit`. -/
theorem commandsAreAnsweredUnderFairness : Obligations.CommandsAreAnsweredUnderFairness := by
  intro σ s i hs hfair hd hi hp hready hreset haccept
  obtain ⟨j, v, hagent, -, hv, -, hframe, hready'⟩ :=
    State.next_agent hreset haccept hfair (n := 0) (t := s) rfl hd hready
  rw [Nat.zero_add] at hagent hv
  have hphase : v.phase = .operate := hframe.phase.trans hp
  have hfetched : v.fetched = some i := hframe.fetched.trans hi
  have hcfg : v.cfg = s.cfg := hframe.cfg
  have hopc : v.opc = s.opc := hframe.opc
  have htx : v.tx = s.tx := hframe.tx
  have hindicator : v.indicator = s.indicator := hframe.indicator
  have hfstate : v.fstate = .dispatch := hframe.fstate.trans hd
  obtain ⟨d, u, hu, huReady, hexec⟩ :=
    State.along_exec hreset haccept hfair hagent hv hfstate hphase hfetched hready'
  have hexecuted := exec_executed (window_noReset hreset (j + 1) d) hexec
  obtain ⟨hvalid, -⟩ := s.inv_iff.mp hs
  have hanswer : ∃ ok outs, u.aboutToSend (responseFrame s.cfg s.opc ok outs)
      ∧ (responseFrame s.cfg s.opc ok outs).length = s.cfg.respLen s.opc := by
    rw [← hcfg] at hvalid
    rw [← hcfg, ← hopc]
    exact hexecuted.aboutToSend hvalid hfetched
  obtain ⟨ok, outs, hsend, hlen⟩ := hanswer
  obtain ⟨w, ok', outs', rfl, -, hkept, -⟩ := hexecuted
  have ⟨huPhase, hidx, hrlen, hbytes⟩ := hsend
  obtain ⟨e, t, hpos, ht, hawait, hsent, htoggled⟩ :=
    State.along_transmit hreset haccept hfair hu (hkept.fstate.trans hfstate) huPhase huReady
      (by rw [hbytes, hidx]; rfl) (responseFrame_ne_nil _ _ _ _) (by rw [hidx, hrlen, Nat.zero_add])
  have hlength : j + 1 + d - (j + 1) = d := Nat.add_sub_cancel_left ..
  refine ⟨j, j + 1 + d, j + 1 + d + e, v, _, t, ok, outs, by omega, by omega,
    ⟨hv, hphase, hfetched, hindicator⟩, ⟨?_, hu, hsend⟩, ⟨ht, hawait, ?_, ?_⟩, hlen⟩
  · rw [hlength]
    exact hexec
  · exact hsent.trans (congrArg (· ++ _) (hkept.tx.trans htx))
  · exact htoggled.trans (hkept.indicator.trans (congrArg (!·) hindicator))

end Sys2Proof.Machine
